-- ==== Sys2Proof/Word.lean ====
section
/-! DEFINITION. The port word and its bytes (00_scope.md R8, R9; 20_memory.md R65). -/

namespace Sys2Proof

/-- A port word: 64 bits, bit 0 the least significant (00_scope.md R6, R8). -/
abbrev Word := BitVec 64

/-- An 8-bit field of a command word or of the status word (30_encoding.md R80). -/
abbrev Byte := BitVec 8

/-- `w[hi:lo]` of 00_scope.md R8, for a field of `n` bits whose lowest bit is `lo`. -/
def Word.field (w : Word) (lo n : Nat) : BitVec n := w.extractLsb' lo n

end Sys2Proof
end

