-- ==== Sys2Proof/Machine/FaultCode.lean ====
section
/-! DEFINITION. The fault codes of the block (60_exceptions.md R201). They are effects of the block, recorded in its
state; none of them stops the machine. -/

namespace Sys2Proof.Machine

/-- The eight causes of 60_exceptions.md R201. -/
inductive FaultCode where
  | illegalOpcode
  | reservedBits
  | illegalSelector
  | sequence
  | configInvalid
  | inputNonfinite
  | operandInvalid
  | numericNan
deriving DecidableEq, Repr

/-- The 8-bit code of a cause (60_exceptions.md R201). -/
def FaultCode.bits : FaultCode → Byte
  | .illegalOpcode => 0x01#8
  | .reservedBits => 0x02#8
  | .illegalSelector => 0x03#8
  | .sequence => 0x04#8
  | .configInvalid => 0x05#8
  | .inputNonfinite => 0x06#8
  | .operandInvalid => 0x07#8
  | .numericNan => 0x08#8

/-- The 8-bit content of `FAULT_CODE`: 0x00 where there was no fault since reset (60_exceptions.md R201). -/
def faultCodeBits : Option FaultCode → Byte
  | none => 0x00#8
  | some c => c.bits

end Sys2Proof.Machine
end

