-- ==== Sys2Proof/Syntax.lean ====
section
/-! DEFINITION. The six commands of the block with their operand words (30_encoding.md R86, R90;
opcode_table.json). -/

namespace Sys2Proof

/-- A command: its `ARG` fields as 30_encoding.md R87 to R89 name them, then its operand words. -/
inductive Instr where
  /-- `CFG_WR`: write configuration register `sel` with `op0` (42_call_and_config.md R170). -/
  | cfgWr (sel : Byte) (op0 : Word)
  /-- `CFG_RD`: read register `sel` (42_call_and_config.md R171). -/
  | cfgRd (sel : Byte)
  /-- `BEGIN`: start a call at the rate `op0` (42_call_and_config.md R172; flags of 30_encoding.md R88). -/
  | beginCall (stereo i16 : Bool) (op0 : Word)
  /-- `PUSH`: one mono sample (41_sample_commands.md R151). -/
  | push (op0 : Word)
  /-- `PUSH2`: one stereo frame, left then right (41_sample_commands.md R152). -/
  | push2 (op0 op1 : Word)
  /-- `END`: close the call (42_call_and_config.md R174). -/
  | endCall
deriving DecidableEq, Repr

end Sys2Proof
end

