-- ==== Sys2Proof/WellFormed.lean ====
section
/-! DEFINITION. Which terms of `Instr` are commands the encoding admits (30_encoding.md R87 to R89).
Operand words have no form of their own (R84), so only the selectors are checked. -/

namespace Sys2Proof

/-- The selectors `CFG_WR` accepts: 0x00 to 0x07 (30_encoding.md R87). -/
def writableSelector (sel : Byte) : Bool := decide (sel.toNat ≤ 0x07)

/-- The selectors `CFG_RD` accepts: 0x00 to 0x07 and 0x10 to 0x17 (30_encoding.md R87). -/
def readableSelector (sel : Byte) : Bool :=
  decide (sel.toNat ≤ 0x07) || (decide (0x10 ≤ sel.toNat) && decide (sel.toNat ≤ 0x17))

/-- A command the encoding admits. -/
def Instr.wellFormed : Instr → Bool
  | .cfgWr sel _ => writableSelector sel
  | .cfgRd sel => readableSelector sel
  | .beginCall _ _ _ => true
  | .push _ => true
  | .push2 _ _ => true
  | .endCall => true

end Sys2Proof
end

