-- ==== Sys2Proof/Decode.lean ====
section
/-! DEFINITION. The decoder of 30_encoding.md R98, total on any words, and the encoder from the same tables
(R80 to R90); the byte order of a narrower link (20_memory.md R65). -/

namespace Sys2Proof

open Sys2Proof.Machine (FaultCode)

/-- `OPC = w[7:0]` (30_encoding.md R81). -/
def opcOf (w : Word) : Byte := w.field 0 8

/-- `ARG = w[15:8]` (30_encoding.md R82). -/
def argOf (w : Word) : Byte := w.field 8 8

/-- `RSV = w[63:16]` (30_encoding.md R83). -/
def rsvOf (w : Word) : BitVec 48 := w.field 16 48

/-- `NOPS(OPC)`: the operand words of an opcode (table of 30_encoding.md R86). For an opcode with no entry "the length
is undefined, and none is needed" (R85): 0, so its command word alone raises the fault. -/
def nops (opc : Byte) : Nat :=
  match opc.toNat with
  | 0x01 => 1
  | 0x03 => 1
  | 0x04 => 1
  | 0x05 => 2
  | _ => 0

/-- `NRES(OPC)`: the result words of an opcode (table of 30_encoding.md R86). -/
def nres (opc : Byte) : Nat :=
  match opc.toNat with
  | 0x02 => 1
  | 0x04 => 1
  | 0x05 => 2
  | _ => 0

/-- The tests of `decode` on a command word, in the order of 30_encoding.md R98: the fault of an illegal word, none
for a legal one. -/
def illegal (w : Word) : Option FaultCode :=
  let opc := (opcOf w).toNat
  let arg := argOf w
  if opc < 0x01 ∨ 0x06 < opc then some .illegalOpcode
  else if rsvOf w ≠ 0 then some .reservedBits
  else if opc = 0x01 then
    if writableSelector arg then none else some .illegalSelector
  else if opc = 0x02 then
    if readableSelector arg then none else some .illegalSelector
  else if opc = 0x03 then
    if arg.extractLsb' 2 6 ≠ 0 then some .reservedBits else none
  else if arg ≠ 0 then some .reservedBits
  else none

/-- The command of a legal command word and its operand words (30_encoding.md R98, R90); none where the operand
words are not there yet. -/
def assemble (w : Word) (ops : List Word) : Option Instr :=
  match (opcOf w).toNat, ops with
  | 0x01, o :: _ => some (.cfgWr (argOf w) o)
  | 0x02, _ => some (.cfgRd (argOf w))
  | 0x03, o :: _ => some (.beginCall ((argOf w).getLsbD 0) ((argOf w).getLsbD 1) o)
  | 0x04, o :: _ => some (.push o)
  | 0x05, o :: o' :: _ => some (.push2 o o')
  | 0x06, _ => some .endCall
  | _, _ => none

/-- What the words at the command port are. -/
inductive Decoded where
  /-- no command word, or not all its operand words (20_memory.md R61) -/
  | incomplete
  /-- an illegal command word `w` whose operand words are there, with the fault it raises (30_encoding.md R98) -/
  | illegal (c : FaultCode) (w : Word)
  /-- a command, and the words after it -/
  | command (i : Instr) (rest : List Word)
deriving DecidableEq, Repr

/-- Decode the words at the command port, the first a command word. The block reads "the number of operand words its
opcode takes" before it executes (20_memory.md R61; 30_encoding.md R85), whether the word is legal or not (DEDUCED, log
entry 21); then R98 says what the word is. -/
def decode : List Word → Decoded
  | [] => .incomplete
  | w :: ops =>
    if ops.length < nops (opcOf w) then .incomplete
    else
      match illegal w with
      | some c => .illegal c w
      | none =>
        match assemble w ops with
        | some i => .command i (ops.drop (nops (opcOf w)))
        | none => .incomplete

/-- The command word with these fields and `RSV` zero (30_encoding.md R80). -/
def cmdWord (opc arg : Byte) : Word := (0#48 ++ arg ++ opc : BitVec 64)

/-- The opcode of a command (30_encoding.md R86). -/
def Instr.opc : Instr → Byte
  | .cfgWr _ _ => 0x01#8
  | .cfgRd _ => 0x02#8
  | .beginCall _ _ _ => 0x03#8
  | .push _ => 0x04#8
  | .push2 _ _ => 0x05#8
  | .endCall => 0x06#8

/-- The `ARG` field of a command (30_encoding.md R87 to R89). -/
def Instr.arg : Instr → Byte
  | .cfgWr sel _ => sel
  | .cfgRd sel => sel
  | .beginCall stereo i16 _ => (0#6 ++ BitVec.ofBool i16 ++ BitVec.ofBool stereo : BitVec 8)
  | .push _ => 0#8
  | .push2 _ _ => 0#8
  | .endCall => 0#8

/-- The operand words of a command, `op[0]` first (30_encoding.md R84). -/
def Instr.operands : Instr → List Word
  | .cfgWr _ o => [o]
  | .cfgRd _ => []
  | .beginCall _ _ o => [o]
  | .push o => [o]
  | .push2 o o' => [o, o']
  | .endCall => []

/-- How many words a command emits when it completes (30_encoding.md R86). -/
def Instr.nres (i : Instr) : Nat := Sys2Proof.nres i.opc

/-- The words of a command as the host sends them (30_encoding.md R80, R84). -/
def encode (i : Instr) : List Word := cmdWord i.opc i.arg :: i.operands

/-- The word that `nbits` bits of `w` give at position `k`, bit 0 of `w` being bit 0 of the first word; every bit
above `nbits` is 0. -/
def tableWord (nbits w k : Nat) : Word := BitVec.ofNat 64 ((w % 2 ^ nbits) >>> (64 * k))

/-- The words of the command whose bits are `w`: its command word and as many operand words as its opcode takes. -/
def fetchWords (nbits w : Nat) : List Word :=
  match nops (opcOf (tableWord nbits w 0)) with
  | 0 => [tableWord nbits w 0]
  | 1 => [tableWord nbits w 0, tableWord nbits w 1]
  | _ => [tableWord nbits w 0, tableWord nbits w 1, tableWord nbits w 2]

/-- The command that the decoder reads from an instruction whose bits are `w` (opcode_table.json's numbering). -/
def decodeTableWord (nbits w : Nat) : Option Instr :=
  match decode (fetchWords nbits w) with
  | .command i _ => some i
  | _ => none

/-- The bytes of a port word on a byte-wide link, byte 0 first: byte `k` is bits `[8k+7:8k]` (20_memory.md R65). -/
def bytesOfWord (w : Word) : List Byte := (List.range 8).map fun k => w.field (8 * k) 8

/-- The port words that arrive over a byte-wide link. A partial word at the end "has not delivered a word"
(20_memory.md R65, R66). -/
def wordsOfBytes : List Byte → List Word
  | b0 :: b1 :: b2 :: b3 :: b4 :: b5 :: b6 :: b7 :: rest =>
    (b7 ++ b6 ++ b5 ++ b4 ++ b3 ++ b2 ++ b1 ++ b0 : BitVec 64) :: wordsOfBytes rest
  | _ => []

end Sys2Proof
end

