-- ==== Sys2Proof/Config.lean ====
section
/-! DEFINITION. What an implementation fixes (00_scope.md R6) and the free values.
The `opaque` constants have no body: a claim holds whatever they are. -/

namespace Sys2Proof

/-- The three tie rules of the quantizer's `round` (00_scope.md R6, R11). -/
inductive RoundTie where
  /-- a tie goes to the integer of larger magnitude -/
  | away
  /-- a tie goes to the even integer -/
  | even
  /-- a tie goes to the larger integer -/
  | up
deriving DecidableEq, Repr, Inhabited

/-- `ROUND_TIE` (00_scope.md R6; 92_eei_decisions.md D4): the named parameter, left open. Log entry 5. -/
opaque Config.roundTie : RoundTie

/-- How far `RES_DEPTH` exceeds its least value. Log entry 4. -/
opaque Config.resDepthAboveTwo : Nat

/-- `RES_DEPTH` (00_scope.md R6; 20_memory.md R62): the depth of the result port, at least 2 words. -/
def Config.resDepth : Nat := Config.resDepthAboveTwo + 2

/-- `N_INST` (00_scope.md R6; 60_exceptions.md R214): how many instances a platform holds. Log entry 14. -/
opaque Config.nInst : Nat

/-- `PI` (00_scope.md R6; 92_eei_decisions.md D5): the word of the binary64 value the block uses for pi. -/
def Config.piWord : Word := 0x400921FB54442D18#64

/-- The sign of the word that encodes a NaN: a free value. Log entry 6. -/
opaque Config.nanSign : Bool

/-- The fraction of the word that encodes a NaN: a free value, read as 1 where it is 0. Log entry 6. -/
opaque Config.nanFraction : BitVec 52

end Sys2Proof
end

