-- ==== Sys2Proof/Machine/State.lean ====
section
/-! DEFINITION. The state of one block instance (10_state.md R20), its ports (20_memory.md R61, R62) and the reasons a
step could stop. -/

namespace Sys2Proof.Machine

/-- `MODE` (10_state.md R40). -/
inductive Mode where
  | idle
  | mono
  | stereo
  | faulted
deriving DecidableEq, Repr

/-- `FMT` (10_state.md R38): the input sample format of the call. -/
inductive SampleFormat where
  | binary64
  | int16
deriving DecidableEq, Repr

/-- What the host does at the block's ports, in the order it does it (log entries 1 and 3). -/
inductive HostEvent where
  /-- delivers one word on the command port (20_memory.md R61) -/
  | word (w : Word)
  /-- takes the oldest result word (20_memory.md R62) -/
  | take
  /-- asserts `RESET` (70_reset_and_hazards.md R240) -/
  | reset
deriving DecidableEq, Repr

/-- The state. The first 21 fields are the architectural state of 10_state.md R20; a register the spec calls a
binary64 holds the 64 bits of its encoding (00_scope.md R12). -/
structure State where
  /-- `BITDEPTH` (R25) -/
  bitdepth : Word
  /-- `SRR_FACTOR` (R26) -/
  srrFactor : Word
  /-- `MIX`, binary64 (R27) -/
  mix : Word
  /-- `LPF_EN` (R28) -/
  lpfEn : Word
  /-- `LPF_CUTOFF`, binary64 (R29) -/
  lpfCutoff : Word
  /-- `CLIP_EN` (R30) -/
  clipEn : Word
  /-- `CLIP_THRESH`, binary64 (R31) -/
  clipThresh : Word
  /-- `DOWNMIX_EN` (R32) -/
  downmixEn : Word
  /-- `SR`, binary64 (R35) -/
  sr : Word
  /-- `STEPS`, uint64 (R36) -/
  steps : Word
  /-- `ALPHA`, binary64 (R37) -/
  alpha : Word
  /-- `FMT` (R38) -/
  fmt : SampleFormat
  /-- `MODE` (R40) -/
  mode : Mode
  /-- `PHASE`, uint64 (R41) -/
  phase : Word
  /-- `FILT_L`, binary64 (R42) -/
  filtL : Word
  /-- `FILT_R`, binary64 (R42) -/
  filtR : Word
  /-- `HOLD_L`, binary64 (R43) -/
  holdL : Word
  /-- `HOLD_R`, binary64 (R43) -/
  holdR : Word
  /-- `FAULT_CODE` (R48; 60_exceptions.md R201): none is 0x00 -/
  faultCode : Option FaultCode
  /-- `FAULT_OPC` (R48) -/
  faultOpc : Byte
  /-- `FAULT_ARG` (R48) -/
  faultArg : Byte
  /-- the host's events the block has not consumed, oldest first (20_memory.md R61; log entry 1) -/
  hostInput : List HostEvent
  /-- the words on the result port, oldest first (20_memory.md R62) -/
  results : List Word
  /-- the model's own field: the result words the host has taken, oldest first (log entry 11) -/
  taken : List Word
deriving DecidableEq, Repr

/-- Why a machine would stop. The spec gives every command word, operand and mode of this block an effect
(60_exceptions.md R200, R205, R207), so there is no such reason: nothing raises one. -/
inductive Fault where
deriving DecidableEq, Repr

/-- Why a machine would refuse. -/
inductive Refusal where
  /-- Raised by an arm of `exec` whose instruction has no meaning yet; no arm of this model raises it. Safe: the model
  stops where the block goes on. -/
  | notModelled (mnemonic : String)
deriving DecidableEq, Repr

/-- The state after reset and after power-on (10_state.md R51; 70_reset_and_hazards.md R240, R242): the block waits for
a command word, nothing is on the result port. -/
def State.reset : State where
  bitdepth := 8#64
  srrFactor := 4#64
  mix := 0x3FF0000000000000#64
  lpfEn := 0#64
  lpfCutoff := 0#64
  clipEn := 0#64
  clipThresh := 0x3FE999999999999A#64
  downmixEn := 0#64
  sr := 0#64
  steps := 0#64
  alpha := 0#64
  fmt := .binary64
  mode := .idle
  phase := 0#64
  filtL := 0#64
  filtR := 0#64
  holdL := 0#64
  holdR := 0#64
  faultCode := none
  faultOpc := 0#8
  faultArg := 0#8
  hostInput := []
  results := []
  taken := []

end Sys2Proof.Machine
end

