-- ==== Sys2Proof/Machine/Flags.lean ====
section
/-! DEFINITION. The block has no flags or condition codes (10_state.md R23). What takes their place: the status word
(R48), read on the status port without side effect (20_memory.md R63), and the `ERR` output (R49). -/

namespace Sys2Proof.Machine

/-- The 2-bit encoding of `MODE` (10_state.md R40). -/
def Mode.bits : Mode → BitVec 2
  | .idle => 0#2
  | .mono => 1#2
  | .stereo => 2#2
  | .faulted => 3#2

/-- The bit of `FMT` (10_state.md R38). -/
def SampleFormat.bit : SampleFormat → BitVec 1
  | .binary64 => 0#1
  | .int16 => 1#1

/-- The status word (10_state.md R48). -/
def State.statusWord (s : State) : Word :=
  (0#32 ++ s.faultArg ++ s.faultOpc ++ faultCodeBits s.faultCode ++ 0#5 ++ s.fmt.bit ++ s.mode.bits : BitVec 64)

/-- The `ERR` output (10_state.md R49). -/
def State.err (s : State) : Bool := s.mode == .faulted

end Sys2Proof.Machine
end

