-- ==== Sys2Proof/Machine/Binary64.lean ====
section
/-! DEFINITION. IEEE 754 binary64 (00_scope.md R6, R10, R11). Every finite binary64 is a whole number of units of
2^-1074, the least subnormal; a value is its sign and that number, arithmetic on it is exact, and ONE function rounds
the exact result (round to nearest, ties to even). The IEEE meanings are log entry 7. -/

namespace Sys2Proof.Machine

/-- A binary64 value. -/
inductive F64 where
  /-- not a number -/
  | nan
  /-- an infinity, negative where `neg` -/
  | inf (neg : Bool)
  /-- `mag` units of 2^-1074, negative where `neg`; both zeros have `mag = 0` -/
  | fin (neg : Bool) (mag : Nat)
deriving DecidableEq, Repr

/-- A unit is 2^-1074. (Irreducible, so that no tactic writes out a number of 300 digits; the kernel evaluates it.) -/
@[irreducible] def F64.unitExp : Nat := 1074

/-- The magnitude of 1.0. -/
def F64.unit : Nat := 2 ^ F64.unitExp

/-- The least magnitude beyond the finite values: that of 2^1024. -/
def F64.beyond : Nat := 2 ^ (1024 + F64.unitExp)

/-! ## Encoding -/

/-- `f64(w)` (00_scope.md R10): the value a word encodes. -/
def F64.ofBits (w : Word) : F64 :=
  let neg := w.msb
  let e := (w.field 52 11).toNat
  let f := (w.field 0 52).toNat
  if e = 2047 then (if f = 0 then .inf neg else .nan)
  else if e = 0 then .fin neg f
  else .fin neg ((2 ^ 52 + f) * 2 ^ (e - 1))

/-- The word with this sign, exponent field and fraction field. -/
def F64.pack (neg : Bool) (e : BitVec 11) (f : BitVec 52) : Word := (BitVec.ofBool neg ++ e ++ f : BitVec 64)

/-- A word that encodes a NaN: which one is a free value (log entry 6). -/
def F64.nanWord : Word :=
  F64.pack Config.nanSign 2047#11 (if Config.nanFraction = 0 then 1#52 else Config.nanFraction)

/-- How far the leading bit of a magnitude lies above bit 52: the exponent of its unit in the last place. -/
def F64.ulpExp (mag : Nat) : Nat := mag.log2 - 52

/-- `bits64(v)` (00_scope.md R10): the word that encodes a value. -/
def F64.toBits : F64 → Word
  | .nan => F64.nanWord
  | .inf neg => F64.pack neg 2047#11 0#52
  | .fin neg mag =>
    if mag < 2 ^ 52 then F64.pack neg 0#11 (BitVec.ofNat 52 mag)
    else F64.pack neg (BitVec.ofNat 11 (F64.ulpExp mag + 1))
      (BitVec.ofNat 52 (mag / 2 ^ F64.ulpExp mag - 2 ^ 52))

/-- The magnitudes binary64 has: at most 53 significant bits, below 2^1024. -/
def F64.magOk (mag : Nat) : Bool := mag % 2 ^ F64.ulpExp mag == 0 && decide (mag < F64.beyond)

/-- The terms that stand for a binary64 value. -/
def F64.ok : F64 → Bool
  | .fin _ mag => F64.magOk mag
  | _ => true

/-! ## Rounding -/

/-- `num / den` rounded to the nearest integer, ties to even. -/
def roundHalfEven (num den : Nat) : Nat :=
  let q := num / den
  let r := num % den
  if 2 * r < den then q
  else if den < 2 * r then q + 1
  else if q % 2 = 0 then q
  else q + 1

/-- `num / den` units rounded to 53 significant bits, ties to even; subnormals are kept (00_scope.md R6). -/
def F64.roundMag (num den : Nat) : Nat :=
  let e := F64.ulpExp (num / den)
  roundHalfEven num (den * 2 ^ e) * 2 ^ e

/-- The value of a rounded magnitude: an infinity where it lies beyond the finite values. -/
def F64.ofMag (neg : Bool) (mag : Nat) : F64 := if mag < F64.beyond then .fin neg mag else .inf neg

/-- The binary64 value nearest `num / den` units, ties to even (00_scope.md R10). -/
def F64.round (neg : Bool) (num den : Nat) : F64 := F64.ofMag neg (F64.roundMag num den)

/-! ## Values of integers and decimals -/

/-- The binary64 value of an integer (00_scope.md R10): exact below 2^53, nearest beyond (log entry 12). -/
def F64.ofInt (i : Int) : F64 := F64.round (decide (i < 0)) (i.natAbs * F64.unit) 1

/-- The binary64 value of a natural number. -/
def F64.ofNat (n : Nat) : F64 := F64.ofInt n

/-- +0.0 -/
def F64.zero : F64 := .fin false 0

/-- 1.0 -/
def F64.one : F64 := .fin false F64.unit

/-- The binary64 value nearest the decimal `digits * 10^exp10`, ties to even (30_encoding.md R96; 92_eei_decisions.md
D39). -/
def F64.ofDecimal (neg : Bool) (digits : Nat) (exp10 : Int) : F64 :=
  if 0 ≤ exp10 then F64.round neg (digits * 10 ^ exp10.toNat * F64.unit) 1
  else F64.round neg (digits * F64.unit) (10 ^ (-exp10).toNat)

/-! ## Predicates and comparisons -/

/-- `isNaN(v)` (00_scope.md R10). -/
def F64.isNaN : F64 → Bool
  | .nan => true
  | _ => false

/-- `isFinite(v)` (00_scope.md R10). -/
def F64.isFinite : F64 → Bool
  | .fin _ _ => true
  | _ => false

/-- The signed magnitude of a finite value. -/
def signedMag (neg : Bool) (mag : Nat) : Int := if neg then -(mag : Int) else mag

/-- Where a value that is not a NaN stands in the order: both zeros at 0, the infinities beyond every finite value. -/
def F64.key : F64 → Option Int
  | .nan => none
  | .inf neg => some (signedMag neg F64.beyond)
  | .fin neg mag => some (signedMag neg mag)

/-- `a < b` (00_scope.md R10): false where either is a NaN. -/
def F64.lt (a b : F64) : Bool :=
  match a.key, b.key with
  | some x, some y => decide (x < y)
  | _, _ => false

/-- `a <= b` (00_scope.md R10): false where either is a NaN. -/
def F64.le (a b : F64) : Bool :=
  match a.key, b.key with
  | some x, some y => decide (x ≤ y)
  | _, _ => false

/-- `a == b` as numbers (00_scope.md R10): `-0.0 == +0.0`, false where either is a NaN. -/
def F64.numEq (a b : F64) : Bool :=
  match a.key, b.key with
  | some x, some y => decide (x = y)
  | _, _ => false

/-! ## Arithmetic: each operation rounds once (00_scope.md R6, R10) -/

/-- `-a`: "flips the sign bit" (00_scope.md R10). -/
def F64.neg : F64 → F64
  | .nan => .nan
  | .inf n => .inf (!n)
  | .fin n m => .fin (!n) m

/-- `a + b`. A zero sum is -0.0 only where both operands are negative. -/
def F64.add : F64 → F64 → F64
  | .nan, _ => .nan
  | _, .nan => .nan
  | .inf n, .inf n' => if n = n' then .inf n else .nan
  | .inf n, .fin _ _ => .inf n
  | .fin _ _, .inf n => .inf n
  | .fin n m, .fin n' m' =>
    let i := signedMag n m + signedMag n' m'
    if i = 0 then .fin (n && n') 0 else F64.round (decide (i < 0)) i.natAbs 1

/-- `a - b`. -/
def F64.sub (a b : F64) : F64 := a.add b.neg

/-- `a * b`. -/
def F64.mul : F64 → F64 → F64
  | .nan, _ => .nan
  | _, .nan => .nan
  | .inf n, .inf n' => .inf (n ^^ n')
  | .inf n, .fin n' m => if m = 0 then .nan else .inf (n ^^ n')
  | .fin n m, .inf n' => if m = 0 then .nan else .inf (n ^^ n')
  | .fin n m, .fin n' m' => F64.round (n ^^ n') (m * m') F64.unit

/-- `a / b`. -/
def F64.div : F64 → F64 → F64
  | .nan, _ => .nan
  | _, .nan => .nan
  | .inf _, .inf _ => .nan
  | .inf n, .fin n' _ => .inf (n ^^ n')
  | .fin n _, .inf n' => .fin (n ^^ n') 0
  | .fin n m, .fin n' m' =>
    if m' = 0 then (if m = 0 then .nan else .inf (n ^^ n'))
    else F64.round (n ^^ n') (m * F64.unit) m'

/-! ## `roundInt` -/

/-- Whether the fraction `r` of a unit above the integer `n` rounds up in magnitude (00_scope.md R11); `tie` counts
only exactly halfway. -/
def roundsUp (tie : RoundTie) (neg : Bool) (n r : Nat) : Bool :=
  if 2 * r < F64.unit then false
  else if F64.unit < 2 * r then true
  else
    match tie with
    | .away => true
    | .even => n % 2 == 1
    | .up => !neg

/-- `roundInt(v)` under `ROUND_TIE` (00_scope.md R11): the sign of `v` is kept, infinities are kept. R11 gives no result
for a NaN, and no run asks for one (40_datapath_stages.md R130); the model answers a NaN (DESIGN CHOICE, log entry 22). -/
def F64.roundInt (tie : RoundTie) : F64 → F64
  | .nan => .nan
  | .inf neg => .inf neg
  | .fin neg mag =>
    let n := mag / F64.unit
    let r := mag % F64.unit
    .fin neg ((if roundsUp tie neg n r then n + 1 else n) * F64.unit)

end Sys2Proof.Machine
end

