-- ==== Sys2Proof/Machine/Stages.lean ====
section
/-! DEFINITION. The stage functions of 40_datapath_stages.md: each reads only its arguments. Every arithmetic
operation rounds once, in the order the rule writes. -/

namespace Sys2Proof.Machine

/-- `NORM_F64(s)` (R111). -/
def normF64 (s : F64) : F64 := s

/-- `NORM_I16(n) = n / 32768.0` (R112). -/
def normI16 (n : Int) : F64 := (F64.ofInt n).div (F64.ofInt 32768)

/-- The hold update of one channel (R113, R114): the new value at an update instant, else the held one. -/
def holdUpdate (phase : Word) (held new : F64) : F64 := if phase = 0 then new else held

/-- `FOLD(sL, sR) = (sL + sR) / 2.0` (R115). -/
def fold (sL sR : F64) : F64 := (sL.add sR).div (F64.ofInt 2)

/-- `2^BITDEPTH - 1`, an exact integer (R116, R132). -/
def stepsOf (bitdepth : Word) : Word := BitVec.ofNat 64 (2 ^ bitdepth.toNat - 1)

/-- `QUANT(h) = roundInt(h * STEPS) / STEPS` (R116). -/
def quant (tie : RoundTie) (steps : Word) (h : F64) : F64 :=
  ((h.mul (F64.ofNat steps.toNat)).roundInt tie).div (F64.ofNat steps.toNat)

/-- `HCLIP(q)` with threshold `t` (R119). -/
def hclip (t q : F64) : F64 := if q.lt t.neg then t.neg else if t.lt q then t else q

/-- The clip stage: `HCLIP` where `CLIP_EN = 1`, else the identity (R119, R120). -/
def clipStage (clipEn : Word) (t q : F64) : F64 := if clipEn = 1 then hclip t q else q

/-- `2.0 * PI`, the first line of `ALPHA_OF` (R121). -/
def twoPi : F64 := (F64.ofInt 2).mul (F64.ofBits Config.piWord)

/-- `ALPHA_OF(f, sr)` (R121), one rounding per line. -/
def alphaOf (f sr : F64) : F64 :=
  let t2 := twoPi.mul f
  let rc := F64.one.div t2
  let dt := F64.one.div sr
  let u := rc.add dt
  dt.div u

/-- `LPF(st, x)` with coefficient `a` (R122), one rounding per line. -/
def lpf (a st x : F64) : F64 :=
  let d := x.sub st
  let e := a.mul d
  st.add e

/-- `MIX(p, d)` with blend `m` (R124), one rounding per line. -/
def mixStage (m p d : F64) : F64 :=
  let a1 := p.mul m
  let b1 := F64.one.sub m
  let c1 := d.mul b1
  a1.add c1

/-- `CLAMP1(v)` (R126). -/
def clamp1 (v : F64) : F64 := if v.lt F64.one.neg then F64.one.neg else if F64.one.lt v then F64.one else v

/-- The `PHASE` advance (R128): `(PHASE + 1 == SRR_FACTOR) ? 0 : PHASE + 1`, the comparison on exact integers
(00_scope.md R9; log entry 13). -/
def phaseNext (factor phase : Word) : Word := if phase.toNat + 1 = factor.toNat then 0#64 else phase + 1#64

end Sys2Proof.Machine
end

