-- ==== Sys2Proof/Machine/Operands.lean ====
section
/-! DEFINITION. How each operand word is read (30_encoding.md R90; `IN` of 41_sample_commands.md R150). The raw
operand of `CFG_WR` is the word itself; the rate of `BEGIN` is `F64.ofBits` of the word. -/

namespace Sys2Proof.Machine

/-- `sint16(w[15:0])` (00_scope.md R9). -/
def sint16 (w : Word) : Int := (w.field 0 16).toInt

/-- `sext_64(v)` (00_scope.md R9): the 64-bit two's-complement encoding. -/
def sext64 (v : Int) : Word := BitVec.ofInt 64 v

/-- `IN(w)` (41_sample_commands.md R150): a sample operand word, normalized, or the fault it raises. -/
def inSample (fmt : SampleFormat) (w : Word) : Except FaultCode F64 :=
  match fmt with
  | .int16 => if w = sext64 (sint16 w) then .ok (normI16 (sint16 w)) else .error .operandInvalid
  | .binary64 => if (F64.ofBits w).isFinite then .ok (normF64 (F64.ofBits w)) else .error .inputNonfinite

end Sys2Proof.Machine
end

