-- ==== Sys2Proof/Machine/Ops.lean ====
section
/-! DEFINITION. The shared operations over the state: registers by selector, emitting a result word, taking a fault
and leaving it by reset, the configuration check and one lane of the datapath. -/

namespace Sys2Proof.Machine

/-! ## Registers by selector -/

/-- The configuration registers (10_state.md R24). -/
inductive CfgReg where
  | bitdepth
  | srrFactor
  | mix
  | lpfEn
  | lpfCutoff
  | clipEn
  | clipThresh
  | downmixEn
deriving DecidableEq, Repr

/-- The registers of the read-only window (10_state.md R50). -/
inductive WinReg where
  | sr
  | steps
  | alpha
  | phase
  | filtL
  | filtR
  | holdL
  | holdR
deriving DecidableEq, Repr

/-- The configuration register of a selector (10_state.md R24); none where the selector names none. -/
def cfgRegOf (sel : Byte) : Option CfgReg :=
  match sel.toNat with
  | 0x00 => some .bitdepth
  | 0x01 => some .srrFactor
  | 0x02 => some .mix
  | 0x03 => some .lpfEn
  | 0x04 => some .lpfCutoff
  | 0x05 => some .clipEn
  | 0x06 => some .clipThresh
  | 0x07 => some .downmixEn
  | _ => none

/-- The window register of a selector (10_state.md R50); none where the selector names none. -/
def winRegOf (sel : Byte) : Option WinReg :=
  match sel.toNat with
  | 0x10 => some .sr
  | 0x11 => some .steps
  | 0x12 => some .alpha
  | 0x13 => some .phase
  | 0x14 => some .filtL
  | 0x15 => some .filtR
  | 0x16 => some .holdL
  | 0x17 => some .holdR
  | _ => none

/-- The 64 bits of a configuration register (10_state.md R24, R33). -/
def State.cfg (s : State) : CfgReg → Word
  | .bitdepth => s.bitdepth
  | .srrFactor => s.srrFactor
  | .mix => s.mix
  | .lpfEn => s.lpfEn
  | .lpfCutoff => s.lpfCutoff
  | .clipEn => s.clipEn
  | .clipThresh => s.clipThresh
  | .downmixEn => s.downmixEn

/-- `CFGREG[SEL] <- v` (42_call_and_config.md R170): the 64 bits as they are (10_state.md R33). -/
def State.setCfg (s : State) (r : CfgReg) (v : Word) : State :=
  match r with
  | .bitdepth => { s with bitdepth := v }
  | .srrFactor => { s with srrFactor := v }
  | .mix => { s with mix := v }
  | .lpfEn => { s with lpfEn := v }
  | .lpfCutoff => { s with lpfCutoff := v }
  | .clipEn => { s with clipEn := v }
  | .clipThresh => { s with clipThresh := v }
  | .downmixEn => { s with downmixEn := v }

/-- The 64 bits of a window register (10_state.md R50). -/
def State.win (s : State) : WinReg → Word
  | .sr => s.sr
  | .steps => s.steps
  | .alpha => s.alpha
  | .phase => s.phase
  | .filtL => s.filtL
  | .filtR => s.filtR
  | .holdL => s.holdL
  | .holdR => s.holdR

/-- `READ(SEL)` (42_call_and_config.md R171): none where the selector is unassigned. -/
def State.read (s : State) (sel : Byte) : Option Word :=
  match cfgRegOf sel with
  | some r => some (s.cfg r)
  | none =>
    match winRegOf sel with
    | some r => some (s.win r)
    | none => none

/-! ## Result port -/

/-- `emit(w)` (00_scope.md R12): append one word to the result port. -/
def State.emit (s : State) (w : Word) : State := { s with results := s.results ++ [w] }

/-- The host takes the oldest result word (20_memory.md R62). On an empty port the take has no effect and is over: the
spec does not say what it does there (DESIGN CHOICE, log entry 24). -/
def State.takeResult (s : State) : State :=
  match s.results with
  | [] => s
  | w :: rest => { s with results := rest, taken := s.taken ++ [w] }

/-- Whether the result port has room for `n` more words (20_memory.md R62; log entry 4). -/
def State.hasRoom (s : State) (n : Nat) : Bool := decide (s.results.length + n ≤ Config.resDepth)

/-! ## Taking a fault, and leaving it -/

/-- Fault entry (60_exceptions.md R205): record the code and the `OPC` and `ARG` of the faulting command word, enter
`FAULTED`, change nothing else. In `FAULTED` no second fault is raised and the first record is kept (R207, R209). -/
def State.takeFault (s : State) (c : FaultCode) (opc arg : Byte) : State :=
  if s.mode = .faulted then s
  else { s with faultCode := some c, faultOpc := opc, faultArg := arg, mode := .faulted }

/-- `raise Fault(CODE)` in command `i` (00_scope.md R12, R13): no effect of the command but fault entry. -/
def raiseFault (c : FaultCode) (i : Instr) (s : State) : Host.Outcome State Fault Refusal :=
  .next (s.takeFault c i.opc i.arg)

/-- `RESET` (70_reset_and_hazards.md R240, R241), the only way out of `FAULTED` (60_exceptions.md R208): every piece
of state takes its reset value, undelivered result words are discarded; `rest` is what the host does after it, and the
words the host already took stay with it. -/
def State.resetBlock (s : State) (rest : List HostEvent) : State :=
  { State.reset with hostInput := rest, taken := s.taken }

/-! ## The configuration check -/

/-- A flag register holds 0 or 1 (42_call_and_config.md R173). -/
def flagOk (w : Word) : Bool := w == 0#64 || w == 1#64

/-- `CFG_OK(sr)` (42_call_and_config.md R173), clause by clause. -/
def State.cfgOk (s : State) (sr : F64) : Bool :=
  (decide (1 ≤ s.bitdepth.toNat) && decide (s.bitdepth.toNat ≤ 16))
  && decide (1 ≤ s.srrFactor.toNat)
  && (flagOk s.lpfEn && flagOk s.clipEn && flagOk s.downmixEn)
  && (F64.zero.le (F64.ofBits s.mix) && (F64.ofBits s.mix).le F64.one)
  && (sr.isFinite && F64.zero.lt sr)
  && (s.lpfEn == 0#64
      || ((F64.ofBits s.lpfCutoff).isFinite && F64.zero.lt (F64.ofBits s.lpfCutoff)
          && !(alphaOf (F64.ofBits s.lpfCutoff) sr).isNaN))
  && (s.clipEn == 0#64
      || (F64.zero.lt (F64.ofBits s.clipThresh) && (F64.ofBits s.clipThresh).le F64.one))

/-! ## The datapath over the state -/

/-- `p` of `CHAN` (41_sample_commands.md R150): the value after the filter stage, from held value `h` and filter state
`st`. -/
def State.processed (s : State) (tie : RoundTie) (h st : F64) : F64 :=
  let c := clipStage s.clipEn (F64.ofBits s.clipThresh) (quant tie s.steps h)
  if s.lpfEn = 1 then lpf (F64.ofBits s.alpha) st c else c

/-- `v` of `CHAN(h, d, st)` (41_sample_commands.md R150): the mixed value. -/
def State.mixed (s : State) (tie : RoundTie) (h d st : F64) : F64 :=
  mixStage (F64.ofBits s.mix) (s.processed tie h st) d

/-- `st'` of `CHAN`, as the filter register's new word: written where `LPF_EN = 1`, untouched otherwise
(40_datapath_stages.md R122, R123). -/
def State.filtNext (s : State) (tie : RoundTie) (h : F64) (st : Word) : Word :=
  if s.lpfEn = 1 then (s.processed tie h (F64.ofBits st)).toBits else st

/-- A hold register's new word: written at an update instant, untouched otherwise (40_datapath_stages.md R113, R114). -/
def State.holdNext (s : State) (new : F64) (held : Word) : Word := if s.phase = 0 then new.toBits else held

end Sys2Proof.Machine
end

