-- ==== Sys2Proof/Machine/Call.lean ====
section
/-! DEFINITION. The configuration and call commands `CFG_WR`, `CFG_RD`, `BEGIN`, `END` (42_call_and_config.md). A
selector that names no register raises `ILLEGAL_SELECTOR`, ahead of `SEQUENCE` (60_exceptions.md R204); the decoder
raises it first, so a decoded command never takes that branch. -/

namespace Sys2Proof.Machine

/-- `CFG_WR` (42_call_and_config.md R170). -/
def execCfgWr (sel : Byte) (op0 : Word) (s : State) : Host.Outcome State Fault Refusal :=
  match cfgRegOf sel with
  | none => raiseFault .illegalSelector (.cfgWr sel op0) s
  | some r => if s.mode ≠ .idle then raiseFault .sequence (.cfgWr sel op0) s else .next (s.setCfg r op0)

/-- `CFG_RD` (42_call_and_config.md R171): accepted in every mode but `FAULTED`, where it is discarded
(60_exceptions.md R207). -/
def execCfgRd (sel : Byte) (s : State) : Host.Outcome State Fault Refusal :=
  match s.read sel with
  | none => raiseFault .illegalSelector (.cfgRd sel) s
  | some w => if s.mode = .faulted then .next s else .next (s.emit w)

/-- The state a `BEGIN` with these flags and this rate word leaves (42_call_and_config.md R172). -/
def State.begun (s : State) (stereo i16 : Bool) (rate : Word) : State :=
  { s with
    sr := rate
    steps := stepsOf s.bitdepth
    alpha := if s.lpfEn = 1 then (alphaOf (F64.ofBits s.lpfCutoff) (F64.ofBits rate)).toBits else 0#64
    fmt := if i16 then .int16 else .binary64
    mode := if stereo then .stereo else .mono
    phase := 0#64
    filtL := 0#64
    filtR := 0#64
    holdL := 0#64
    holdR := 0#64 }

/-- `BEGIN` (42_call_and_config.md R172). -/
def execBegin (stereo i16 : Bool) (op0 : Word) (s : State) : Host.Outcome State Fault Refusal :=
  if s.mode ≠ .idle then raiseFault .sequence (.beginCall stereo i16 op0) s
  else if s.cfgOk (F64.ofBits op0) then .next (s.begun stereo i16 op0)
  else raiseFault .configInvalid (.beginCall stereo i16 op0) s

/-- `END` (42_call_and_config.md R174). -/
def execEnd (s : State) : Host.Outcome State Fault Refusal :=
  if s.mode = .mono ∨ s.mode = .stereo then .next { s with mode := .idle } else raiseFault .sequence .endCall s

end Sys2Proof.Machine
end

