-- ==== Sys2Proof/Machine/Sample.lean ====
section
/-! DEFINITION. The sample commands `PUSH` and `PUSH2` (41_sample_commands.md). -/

namespace Sys2Proof.Machine

/-- `PUSH` under a tie rule (41_sample_commands.md R151). -/
def pushUnder (tie : RoundTie) (op0 : Word) (s : State) : Host.Outcome State Fault Refusal :=
  if s.mode ≠ .mono then raiseFault .sequence (.push op0) s
  else
    match inSample s.fmt op0 with
    | .error c => raiseFault c (.push op0) s
    | .ok d =>
      let h := holdUpdate s.phase (F64.ofBits s.holdL) d
      let v := s.mixed tie h d (F64.ofBits s.filtL)
      if v.isNaN then raiseFault .numericNan (.push op0) s
      else
        .next <| State.emit
          { s with
            holdL := s.holdNext d s.holdL
            filtL := s.filtNext tie h s.filtL
            phase := phaseNext s.srrFactor s.phase }
          (clamp1 v).toBits

/-- `PUSH` (41_sample_commands.md R151). -/
def execPush (op0 : Word) (s : State) : Host.Outcome State Fault Refusal := pushUnder Config.roundTie op0 s

/-- What a frame loads into a channel's hold register at an update instant: the fold-down of both samples where
`DOWNMIX_EN = 1`, else the channel's own sample (40_datapath_stages.md R114, R115). -/
def State.frameLoad (s : State) (dL dR own : F64) : F64 := if s.downmixEn = 1 then fold dL dR else own

/-- `PUSH2` under a tie rule (41_sample_commands.md R152). -/
def push2Under (tie : RoundTie) (op0 op1 : Word) (s : State) : Host.Outcome State Fault Refusal :=
  if s.mode ≠ .stereo then raiseFault .sequence (.push2 op0 op1) s
  else
    match inSample s.fmt op0 with
    | .error c => raiseFault c (.push2 op0 op1) s
    | .ok dL =>
      match inSample s.fmt op1 with
      | .error c => raiseFault c (.push2 op0 op1) s
      | .ok dR =>
        let nL := s.frameLoad dL dR dL
        let nR := s.frameLoad dL dR dR
        let hL := holdUpdate s.phase (F64.ofBits s.holdL) nL
        let hR := holdUpdate s.phase (F64.ofBits s.holdR) nR
        let vL := s.mixed tie hL dL (F64.ofBits s.filtL)
        let vR := s.mixed tie hR dR (F64.ofBits s.filtR)
        if vL.isNaN || vR.isNaN then raiseFault .numericNan (.push2 op0 op1) s
        else
          .next <| State.emit (State.emit
            { s with
              holdL := s.holdNext nL s.holdL
              holdR := s.holdNext nR s.holdR
              filtL := s.filtNext tie hL s.filtL
              filtR := s.filtNext tie hR s.filtR
              phase := phaseNext s.srrFactor s.phase }
            (clamp1 vL).toBits) (clamp1 vR).toBits

/-- `PUSH2` (41_sample_commands.md R152). -/
def execPush2 (op0 op1 : Word) (s : State) : Host.Outcome State Fault Refusal :=
  push2Under Config.roundTie op0 op1 s

end Sys2Proof.Machine
end

