-- ==== Sys2Proof/Machine/Dispatch.lean ====
section
/-! DEFINITION. One arm per command. -/

namespace Sys2Proof.Machine

/-- The meaning of a command. -/
def exec (i : Instr) (s : State) : Host.Outcome State Fault Refusal :=
  match i with
  | .cfgWr sel op0 => Sys2Proof.Machine.execCfgWr sel op0 s
  | .cfgRd sel => Sys2Proof.Machine.execCfgRd sel s
  | .beginCall stereo i16 op0 => Sys2Proof.Machine.execBegin stereo i16 op0 s
  | .push op0 => Sys2Proof.Machine.execPush op0 s
  | .push2 op0 op1 => Sys2Proof.Machine.execPush2 op0 op1 s
  | .endCall => Sys2Proof.Machine.execEnd s

end Sys2Proof.Machine
end

