-- ==== Sys2Proof/Machine/Sequencer.lean ====
section
/-! DEFINITION. How the block takes commands from its port (20_memory.md R61, R62, R69; 60_exceptions.md R207;
70_reset_and_hazards.md R240): one step runs one whole command, discards one word in `FAULTED`, or lets one signal of
the host act. Log entries 1 to 4, 21. -/

namespace Sys2Proof.Machine

/-- The words that have arrived before the host's next signal. -/
def arrivedWords : List HostEvent → List Word
  | .word w :: es => w :: arrivedWords es
  | _ => []

/-- The host's next signal (a take or a reset), if there is one. -/
def nextSignal : List HostEvent → Option HostEvent
  | [] => none
  | .word _ :: es => nextSignal es
  | e :: _ => some e

/-- The events without the next signal: the words before it stay. -/
def withoutSignal : List HostEvent → List HostEvent
  | [] => []
  | .word w :: es => .word w :: withoutSignal es
  | _ :: es => es

/-- The events after the next signal: the words before it are gone. -/
def afterSignal : List HostEvent → List HostEvent
  | [] => []
  | .word _ :: es => afterSignal es
  | _ :: es => es

/-- What the block does while no command can run: the host's next signal acts. A take makes room (20_memory.md R62), a
reset abandons the words before it (70_reset_and_hazards.md R240); with no signal the block waits with all state kept
(60_exceptions.md R216). -/
def State.waitForHost (s : State) : State :=
  match nextSignal s.hostInput with
  | some .take => { s.takeResult with hostInput := withoutSignal s.hostInput }
  | some .reset => s.resetBlock (afterSignal s.hostInput)
  | _ => s

/-- The state once `n` events have been consumed. -/
def State.consume (s : State) (n : Nat) : State := { s with hostInput := s.hostInput.drop n }

/-- One step in a mode other than `FAULTED`: the next command runs if all its words have arrived (20_memory.md R61)
and there is room for what it emits (R62). An illegal command word, once the operand words its opcode takes have arrived
(log entry 21), "is executed as `raise Fault(code)`" (30_encoding.md R98): it emits nothing and does not wait for room
on the result port (DESIGN CHOICE, log entry 4). -/
def runNext (s : State) : Host.Outcome State Fault Refusal :=
  match decode (arrivedWords s.hostInput) with
  | .incomplete => .next s.waitForHost
  | .illegal c w => .next ((s.consume (1 + nops (opcOf w))).takeFault c (opcOf w) (argOf w))
  | .command i _ =>
    if s.hasRoom i.nres then exec i (s.consume (1 + i.operands.length)) else .next s.waitForHost

/-- One step in `FAULTED`: the next word is read and discarded, without decoding it (60_exceptions.md R207); a signal
of the host acts. -/
def discardNext (s : State) : State :=
  match s.hostInput with
  | .word _ :: _ => s.consume 1
  | _ => s.waitForHost

/-- One step of the block. -/
def sequencer (s : State) : Host.Outcome State Fault Refusal :=
  if s.mode = .faulted then .next (discardNext s) else runNext s

end Sys2Proof.Machine
end

