-- ==== Sys2Proof/Machine/Step.lean ====
section
/-! DEFINITION. The step, and the delivery of one command to it. -/

namespace Sys2Proof.Machine

/-- One step of the block. -/
def step (s : State) : Host.Outcome State Fault Refusal := sequencer s

/-- `s` with the words of the instruction whose bits are `w` (numbered as opcode_table.json numbers them, the bits
above `nbits` zero) delivered on the command port ahead of everything else, so that the next step runs it. -/
def State.withFetchWord (s : State) (nbits w : Nat) : State :=
  { s with hostInput := (fetchWords nbits w).map .word ++ s.hostInput }

end Sys2Proof.Machine
end

