-- ==== Sys2Proof/Machine/Assembler.lean ====
section
/-! DEFINITION. The assembler forms of 30_encoding.md R96, as data: one command per line, operands written as values.
The text itself is not read (log entry 16). -/

namespace Sys2Proof.Machine

/-- A value of an assembler line (30_encoding.md R96). -/
inductive AsmValue where
  /-- an integer -/
  | int (n : Int)
  /-- a decimal binary64 literal, `digits * 10^exp10` -/
  | decimal (neg : Bool) (digits : Nat) (exp10 : Int)
  /-- a hex binary64 literal, `digits * 2^exp2` -/
  | hex (neg : Bool) (digits : Nat) (exp2 : Int)
  /-- a raw word: `0x` and 16 hex digits -/
  | raw (w : Word)
deriving DecidableEq, Repr

/-- An assembler line (30_encoding.md R96). -/
inductive AsmLine where
  | cfgWr (reg : CfgReg) (v : AsmValue)
  | cfgRd (reg : CfgReg)
  | winRd (reg : WinReg)
  | beginCall (stereo i16 : Bool) (rate : AsmValue)
  | push (s : AsmValue)
  | push2 (l r : AsmValue)
  | endCall
deriving DecidableEq, Repr

/-- The selector of a configuration register (10_state.md R24). -/
def CfgReg.sel : CfgReg → Byte
  | .bitdepth => 0x00#8
  | .srrFactor => 0x01#8
  | .mix => 0x02#8
  | .lpfEn => 0x03#8
  | .lpfCutoff => 0x04#8
  | .clipEn => 0x05#8
  | .clipThresh => 0x06#8
  | .downmixEn => 0x07#8

/-- The selector of a window register (10_state.md R50). -/
def WinReg.sel : WinReg → Byte
  | .sr => 0x10#8
  | .steps => 0x11#8
  | .alpha => 0x12#8
  | .phase => 0x13#8
  | .filtL => 0x14#8
  | .filtR => 0x15#8
  | .holdL => 0x16#8
  | .holdR => 0x17#8

/-- Whether a configuration register holds a binary64 (10_state.md R24). -/
def CfgReg.isBinary64 : CfgReg → Bool
  | .mix => true
  | .lpfCutoff => true
  | .clipThresh => true
  | _ => false

/-- The word of a binary64 literal: for a decimal one, the value nearest it, ties to even (30_encoding.md R96;
92_eei_decisions.md D39). R96 gives no rounding for a hex literal that is no binary64 value; the model rounds it the same
way (DESIGN CHOICE, log entry 26). -/
def AsmValue.binary64Word : AsmValue → Option Word
  | .decimal neg digits exp10 => some (F64.ofDecimal neg digits exp10).toBits
  | .hex neg digits exp2 =>
    if 0 ≤ exp2 then some (F64.round neg (digits * 2 ^ exp2.toNat * F64.unit) 1).toBits
    else some (F64.round neg (digits * F64.unit) (2 ^ (-exp2).toNat)).toBits
  | _ => none

/-- The word of an integer literal of a `uint64` register. -/
def AsmValue.uintWord : AsmValue → Option Word
  | .int n => if 0 ≤ n ∧ n < 2 ^ 64 then some (BitVec.ofInt 64 n) else none
  | _ => none

/-- The word of a sample: a binary64 literal, or an integer in -32768..32767 for an int16 call (30_encoding.md R90). -/
def AsmValue.sampleWord : AsmValue → Option Word
  | .int n => if -32768 ≤ n ∧ n ≤ 32767 then some (sext64 n) else none
  | v => v.binary64Word

/-- The word a line writes to a configuration register: a raw word for any register, else the literal its kind takes. -/
def AsmValue.cfgWord (reg : CfgReg) : AsmValue → Option Word
  | .raw w => some w
  | v => if reg.isBinary64 then v.binary64Word else v.uintWord

/-- The command of an assembler line; none where a value is not of the form the line takes. -/
def AsmLine.command : AsmLine → Option Instr
  | .cfgWr reg v => (v.cfgWord reg).map (.cfgWr reg.sel ·)
  | .cfgRd reg => some (.cfgRd reg.sel)
  | .winRd reg => some (.cfgRd reg.sel)
  | .beginCall stereo i16 rate => rate.binary64Word.map (.beginCall stereo i16 ·)
  | .push v => v.sampleWord.map (.push ·)
  | .push2 l r =>
    match l.sampleWord, r.sampleWord with
    | some wl, some wr => some (.push2 wl wr)
    | _, _ => none
  | .endCall => some .endCall

end Sys2Proof.Machine
end

