-- ==== Sys2Proof/Machine/Platform.lean ====
section
/-! DEFINITION. A platform of independent instances (60_exceptions.md R214). -/

namespace Sys2Proof.Machine

/-- The instances of a platform after power-on: `N_INST` of them, each with its own state and ports. -/
def platformReset : List State := List.replicate Config.nInst State.reset

/-- One step of instance `k`; no other instance takes part. -/
def platformStep (p : List State) (k : Nat) : List State :=
  match p[k]? with
  | none => p
  | some s =>
    match step s with
    | .next s' => p.set k s'
    | .fault _ => p
    | .refused _ => p

end Sys2Proof.Machine
end

