-- ==== Sys2Proof/Machine/HostOps.lean ====
section
/-! DEFINITION. The host's operations as command sequences (43_host_operations.md), a run of the block, and what an
operation returns. -/

namespace Sys2Proof.Machine

/-- A sample of the host's buffer (43_host_operations.md R190): a binary64 word or a signed 16-bit integer. -/
inductive Sample where
  | binary64 (w : Word)
  | int16 (v : BitVec 16)
deriving DecidableEq, Repr

/-- `ENC(x)` (43_host_operations.md R190; 30_encoding.md R90). -/
def Sample.enc : Sample → Word
  | .binary64 w => w
  | .int16 v => sext64 v.toInt

/-- Whether a sample is an int16 one. -/
def Sample.isInt16 : Sample → Bool
  | .binary64 _ => false
  | .int16 _ => true

/-- The `I16` flag for a buffer (43_host_operations.md R190): 1 where it holds int16 samples; none where it mixes
formats, which is refused (R195). A buffer without a sample carries no format here and gets 0, "`buf` holds int16
samples" being false of it (DESIGN CHOICE, log entry 23). -/
def i16Flag (buf : List Sample) : Option Bool :=
  if buf.all (fun x => !x.isInt16) then some false
  else if buf.all Sample.isInt16 then some true
  else none

/-- The frames of an interleaved buffer, left then right; none for an odd length (43_host_operations.md R191, R194). -/
def frames : List Sample → Option (List (Sample × Sample))
  | [] => some []
  | [_] => none
  | l :: r :: rest => (frames rest).map ((l, r) :: ·)

/-- The expansion of `process(buf, sr)` (43_host_operations.md R190). -/
def process (buf : List Sample) (sr : Word) : Option (List Instr) :=
  (i16Flag buf).map fun i16 => .beginCall false i16 sr :: buf.map (fun x => .push x.enc) ++ [.endCall]

/-- The expansion of `processStereo(buf, sr)` (43_host_operations.md R191). -/
def processStereo (buf : List Sample) (sr : Word) : Option (List Instr) :=
  match i16Flag buf, frames buf with
  | some i16, some fs => some (.beginCall true i16 sr :: fs.map (fun f => .push2 f.1.enc f.2.enc) ++ [.endCall])
  | _, _ => none

/-- An EngineConfig (10_state.md R24 to R32): the cutoff is absent where the filter is disabled (R28). -/
structure EngineConfig where
  bitDepth : Word
  sampleRateReductionFactor : Word
  wetDryMix : Word
  lowpassCutoffHz : Option Word
  hardClipEnabled : Bool
  clipThreshold : Word
  monoDownmixEnabled : Bool
deriving DecidableEq, Repr

/-- 0 or 1 in a flag register (10_state.md R24). -/
def flagWord (b : Bool) : Word := if b then 1#64 else 0#64

/-- The selector and the value of each register an EngineConfig sets (43_host_operations.md R192). -/
def EngineConfig.registers (c : EngineConfig) : List (Byte × Word) :=
  [(0x00#8, c.bitDepth), (0x01#8, c.sampleRateReductionFactor), (0x02#8, c.wetDryMix)]
  ++ (match c.lowpassCutoffHz with
      | none => [(0x03#8, 0#64)]
      | some f => [(0x03#8, 1#64), (0x04#8, f)])
  ++ [(0x05#8, flagWord c.hardClipEnabled), (0x06#8, c.clipThreshold), (0x07#8, flagWord c.monoDownmixEnabled)]

/-- `CONFIGURE(C)` (43_host_operations.md R192): one `CFG_WR` per register. -/
def configure (c : EngineConfig) : List Instr := c.registers.map fun r => .cfgWr r.1 r.2

/-- `CONFIGURE(C)` with the writes that change nothing left out (42_call_and_config.md R175). -/
def configureFrom (s : State) (c : EngineConfig) : List Instr :=
  (c.registers.filter fun r => s.read r.1 != some r.2).map fun r => .cfgWr r.1 r.2

/-- What a host does to send commands and take every result word: the words of each command, then one take for each
word it emits (log entry 15). -/
def hostEvents (cmds : List Instr) : List HostEvent :=
  cmds.flatMap fun i => (encode i).map .word ++ List.replicate i.nres .take

/-- `n` steps of the block. -/
def runSteps : Nat → State → State
  | 0, s => s
  | n + 1, s =>
    match step s with
    | .next s' => runSteps n s'
    | .fault _ => s
    | .refused _ => s

/-- The block once it has come to rest on what its host had done before: each step uses an event up, or nothing is left
to do until the host acts (20_memory.md R61, R62; 60_exceptions.md R216). -/
def State.settled (s : State) : State := runSteps s.hostInput.length s

/-- `s` with these events of the host behind those at the port. -/
def State.deliver (s : State) (es : List HostEvent) : State := { s with hostInput := s.hostInput ++ es }

/-- The block at rest after these further events of its host. What the host had done before acts first, in order
(20_memory.md R61, R69). -/
def runEvents (es : List HostEvent) (s : State) : State := (s.settled.deliver es).settled

/-- The block after the host has sent `cmds` and taken their results. -/
def perform (cmds : List Instr) (s : State) : State := runEvents (hostEvents cmds) s

/-- Whether words at the port, the first a command word, are whole commands, so that the next word of the host is a
command word. (Behind an illegal word everything is discarded: 60_exceptions.md R207.) The number bounds the commands. -/
def wholeCommands : Nat → List Word → Bool
  | 0, ws => ws.isEmpty
  | n + 1, ws =>
    match decode ws with
    | .incomplete => ws.isEmpty
    | .illegal _ _ => true
    | .command _ rest => wholeCommands n rest

/-- Whether the block, at rest, reads the host's next word as a command word (20_memory.md R61). -/
def State.atCommandWord (s : State) : Bool := wholeCommands s.hostInput.length (arrivedWords s.hostInput)

/-- The result words the host has taken in a run of these events: what its buffer holds (70_reset_and_hazards.md R241).
Words that stand on the result port when the run begins are the oldest and are taken first; the spec does not say what an
operation makes of them, and here they count among its words (DESIGN CHOICE, log entry 25). -/
def received (es : List HostEvent) (s : State) : List Word := (runEvents es s).taken.drop s.settled.taken.length

/-- What a host operation returns that no RESET cuts short: the words it took, in order, where the block has executed
all its commands, the `END` included; no buffer where it faulted (43_host_operations.md R190, R191) or still waits for
room (70_reset_and_hazards.md R248). An operation that the host begins in the middle of a command it has sent in part is
none of the spec's, and returns no buffer (DESIGN CHOICE, log entry 27). R190 speaks of a fault of the operation's own
commands only; where the block is in `FAULTED` already as the operation begins, the block discards all its words, and it
returns no buffer, the empty buffer's operation included (DESIGN CHOICE, log entry 28). -/
def returned (cmds : List Instr) (s : State) : Option (List Word) :=
  let t := perform cmds s
  if s.settled.atCommandWord ∧ t.mode ≠ .faulted ∧ t.hostInput = [] then some (received (hostEvents cmds) s) else none

/-- The events of a host operation in which RESET is asserted after `k` of its events (70_reset_and_hazards.md R241):
the host then sends and takes no more for it (log entry 15). -/
def cutShort (cmds : List Instr) (k : Nat) : List HostEvent := (hostEvents cmds).take k ++ [.reset]

/-- What the operation of `cmds` returns when its host does `es`: where `es` begins with all events of the operation, the
operation is over before anything that follows, a RESET after its `END` included, and returns as R190 says (DEDUCED, log
entry 15); where a RESET comes before that, no buffer (70_reset_and_hazards.md R241). -/
def returnedBy (cmds : List Instr) (es : List HostEvent) (s : State) : Option (List Word) :=
  if (hostEvents cmds).isPrefixOf es then returned cmds s else none

end Sys2Proof.Machine
end

