-- ==== Sys2Proof/Safety.lean ====
section
/-! DEFINITION. The terms claims use: what holds of every state a run can reach, what a call over samples in [-1, 1]
keeps, and which states are reachable. -/

namespace Sys2Proof.Machine

/-- A call is in progress: `MONO` and `STEREO` "are together called active" (10_state.md R40). -/
abbrev State.active (s : State) : Prop := s.mode = .mono ∨ s.mode = .stereo

/-- A safe run keeps the block out of `FAULTED` (60_exceptions.md R205). -/
abbrev State.safe (s : State) : Prop := s.mode ≠ .faulted

/-- The value a register word encodes is not a NaN. -/
abbrev notNaN (w : Word) : Prop := (F64.ofBits w).isNaN = false

/-- What every step keeps. -/
structure State.Inv (s : State) : Prop where
  /-- a fault is recorded exactly in `FAULTED` (10_state.md R48; 60_exceptions.md R205) -/
  faultRecorded : s.mode = .faulted ↔ s.faultCode ≠ none
  /-- with no fault recorded the record reads zero (10_state.md R48) -/
  noRecord : s.faultCode = none → s.faultOpc = 0#8 ∧ s.faultArg = 0#8
  /-- the call and datapath registers never hold a NaN (40_datapath_stages.md R127, R130; 42_call_and_config.md R173) -/
  srFinite : (F64.ofBits s.sr).isFinite = true
  alphaNum : notNaN s.alpha
  filtLNum : notNaN s.filtL
  filtRNum : notNaN s.filtR
  holdLNum : notNaN s.holdL
  holdRNum : notNaN s.holdR
  /-- a call runs on a configuration `BEGIN` accepted (10_state.md R34; 42_call_and_config.md R173) -/
  legal : s.active → s.cfgOk (F64.ofBits s.sr) = true
  /-- `STEPS` is `2^BITDEPTH - 1` (10_state.md R36) -/
  stepsValue : s.active → s.steps = stepsOf s.bitdepth
  /-- `PHASE` is "bounded by `SRR_FACTOR - 1`" (10_state.md R41) -/
  phaseBound : s.active → s.phase.toNat < s.srrFactor.toNat
  /-- a call without the filter leaves the filter state and `ALPHA` at +0.0 (10_state.md R37, R42) -/
  filterOff : s.active → s.lpfEn = 0#64 → s.alpha = 0#64 ∧ s.filtL = 0#64 ∧ s.filtR = 0#64
  /-- a mono call uses the left channel only (10_state.md R42, R43) -/
  monoRight : s.mode = .mono → s.filtR = 0#64 ∧ s.holdR = 0#64
  /-- with fold-down both channels hold and filter the same (40_datapath_stages.md R115; 41_sample_commands.md R152) -/
  foldEqual : s.mode = .stereo → s.downmixEn = 1#64 → s.holdL = s.holdR ∧ s.filtL = s.filtR
  /-- the result port holds at most `RES_DEPTH` words (20_memory.md R62) -/
  portBound : s.results.length ≤ Config.resDepth

/-- A value in [-1, 1] (40_datapath_stages.md R129); no NaN is. -/
def F64.inUnit (v : F64) : Bool := F64.one.neg.le v && v.le F64.one

/-- What a call over samples in [-1, 1] keeps (43_host_operations.md R193; 40_datapath_stages.md R130). -/
structure State.InRange (s : State) : Prop where
  filtL : (F64.ofBits s.filtL).inUnit = true
  filtR : (F64.ofBits s.filtR).inUnit = true
  holdL : (F64.ofBits s.holdL).inUnit = true
  holdR : (F64.ofBits s.holdR).inUnit = true
  /-- `ALPHA` lies in [0, 1] (40_datapath_stages.md R121) -/
  alphaLow : F64.zero.le (F64.ofBits s.alpha) = true
  alphaHigh : (F64.ofBits s.alpha).le F64.one = true

/-- A sample operand word that is legal for the call's format and encodes a value in [-1, 1]
(10_state.md R38; 43_host_operations.md R190). -/
def sampleInRange (fmt : SampleFormat) (w : Word) : Bool :=
  match inSample fmt w with
  | .ok v => v.inUnit
  | .error _ => false

/-- The states a block can come to, whatever its host does: it starts at reset, the host adds events, the block steps. -/
inductive Reachable : State → Prop where
  | start : Reachable State.reset
  | deliver {s : State} (es : List HostEvent) : Reachable s → Reachable { s with hostInput := s.hostInput ++ es }
  | step {s t : State} : Reachable s → step s = .next t → Reachable t

end Sys2Proof.Machine
end

