-- ==== Sys2Proof/Certificates/Slice0/Obligations.lean ====
section
/-! DEFINITION. The statements about the model, each from the rules of spec/ it names. -/

open Sys2Proof Sys2Proof.Machine

/-! ## The rules' own formulas, as the statements use them -/

/-- `s` after fault entry with this code, opcode and argument (60_exceptions.md R205), in full. -/
def Rule.faulted (s : State) (c : FaultCode) (opc arg : Byte) : State :=
  { s with faultCode := some c, faultOpc := opc, faultArg := arg, mode := .faulted }

/-- Every piece of state at its reset value (10_state.md R51; 70_reset_and_hazards.md R240), `es` still to come from
the host and `taken` with the host. -/
def Rule.afterReset (es : List HostEvent) (taken : List Word) : State where
  bitdepth := 8#64
  srrFactor := 4#64
  mix := 0x3FF0000000000000#64
  lpfEn := 0#64
  lpfCutoff := 0#64
  clipEn := 0#64
  clipThresh := 0x3FE999999999999A#64
  downmixEn := 0#64
  sr := 0#64
  steps := 0#64
  alpha := 0#64
  fmt := .binary64
  mode := .idle
  phase := 0#64
  filtL := 0#64
  filtR := 0#64
  holdL := 0#64
  holdR := 0#64
  faultCode := none
  faultOpc := 0#8
  faultArg := 0#8
  hostInput := es
  results := []
  taken := taken

/-- The operand words of an opcode (`NOPS` of the table of 30_encoding.md R86; none for an opcode with no entry, R85). -/
def Rule.operandCount (opc : Nat) : Nat :=
  if opc = 0x05 then 2 else if opc = 0x01 ∨ opc = 0x03 ∨ opc = 0x04 then 1 else 0

/-- `d` is the normalized sample of operand word `w` (30_encoding.md R90; 41_sample_commands.md R150;
40_datapath_stages.md R111, R112). -/
def Rule.input (fmt : SampleFormat) (w : Word) (d : F64) : Prop :=
  (fmt = .binary64 ∧ (F64.ofBits w).isFinite = true ∧ d = F64.ofBits w) ∨
  (fmt = .int16 ∧ ∃ n : Int, -32768 ≤ n ∧ n ≤ 32767 ∧ w = BitVec.ofInt 64 n ∧ d = (F64.ofInt n).div (F64.ofInt 32768))

/-- Operand word `w` is refused with code `c` (41_sample_commands.md R150). -/
def Rule.badInput (fmt : SampleFormat) (w : Word) (c : FaultCode) : Prop :=
  (fmt = .binary64 ∧ (F64.ofBits w).isFinite = false ∧ c = .inputNonfinite) ∨
  (fmt = .int16 ∧ (∀ n : Int, -32768 ≤ n → n ≤ 32767 → w ≠ BitVec.ofInt 64 n) ∧ c = .operandInvalid)

/-- The processed value of a lane (41_sample_commands.md R150): quantize, clip where enabled, filter where enabled. -/
def Rule.processed (s : State) (h st : F64) : F64 :=
  let n := F64.ofNat s.steps.toNat
  let q := ((h.mul n).roundInt Config.roundTie).div n
  let t := F64.ofBits s.clipThresh
  let c := if s.clipEn = 1 then (if q.lt t.neg then t.neg else if t.lt q then t else q) else q
  if s.lpfEn = 1 then st.add ((F64.ofBits s.alpha).mul (c.sub st)) else c

/-- The mixed value of a lane (40_datapath_stages.md R124): `p * m + d * (1 - m)`. -/
def Rule.mixed (s : State) (p d : F64) : F64 :=
  (p.mul (F64.ofBits s.mix)).add (d.mul (F64.one.sub (F64.ofBits s.mix)))

/-- The output word of a mixed value (40_datapath_stages.md R126; 30_encoding.md R91). -/
def Rule.output (v : F64) : Word :=
  (if v.lt F64.one.neg then F64.one.neg else if F64.one.lt v then F64.one else v).toBits

/-- The next phase (40_datapath_stages.md R128). -/
def Rule.phase (s : State) : Word := if s.phase.toNat + 1 = s.srrFactor.toNat then 0#64 else s.phase + 1#64

/-- `ALPHA_OF(f, sr)` (40_datapath_stages.md R121), with `2.0 * PI` as the word the rule gives for it. -/
def Rule.alpha (f sr : F64) : F64 :=
  let rc := F64.one.div ((F64.ofBits 0x401921FB54442D18#64).mul f)
  let dt := F64.one.div sr
  dt.div (rc.add dt)

/-- `CFG_OK(sr)` (42_call_and_config.md R173). -/
def Rule.cfgOk (s : State) (sr : F64) : Prop :=
  (1 ≤ s.bitdepth.toNat ∧ s.bitdepth.toNat ≤ 16) ∧ 1 ≤ s.srrFactor.toNat ∧
  (s.lpfEn = 0 ∨ s.lpfEn = 1) ∧ (s.clipEn = 0 ∨ s.clipEn = 1) ∧ (s.downmixEn = 0 ∨ s.downmixEn = 1) ∧
  (F64.zero.le (F64.ofBits s.mix) = true ∧ (F64.ofBits s.mix).le F64.one = true) ∧
  (sr.isFinite = true ∧ F64.zero.lt sr = true) ∧
  (s.lpfEn = 0 ∨ ((F64.ofBits s.lpfCutoff).isFinite = true ∧ F64.zero.lt (F64.ofBits s.lpfCutoff) = true ∧
    (Rule.alpha (F64.ofBits s.lpfCutoff) sr).isNaN = false)) ∧
  (s.clipEn = 0 ∨ (F64.zero.lt (F64.ofBits s.clipThresh) = true ∧ (F64.ofBits s.clipThresh).le F64.one = true))

/-! ## Encoding -/

/-- Every well-formed command is what the decoder reads from its words, whatever words follow. -/
def Obligations.DecodeOfEncodeIsTheCommand : Prop :=
  ∀ (i : Instr) (rest : List Word), i.wellFormed = true → decode (encode i ++ rest) = .command i rest

/-- What the decoder reads is well formed, and its encoding is the words read: each word has one meaning. -/
def Obligations.DecodedWordsAreTheEncoding : Prop :=
  ∀ (ws rest : List Word) (i : Instr), decode ws = .command i rest → i.wellFormed = true ∧ encode i ++ rest = ws

/-- 30_encoding.md R98: the decode function, test by test in its order, on the fields of the command word as numbers.
`illegal w` is what `decode(w)` refuses; `decode` reads the command word with its operand words. -/
def Obligations.DecodeFollowsTheOrderOfTests : Prop :=
  ∀ (w : Word) (ops : List Word) (opc arg rsv : Nat),
    opc = w.toNat % 256 → arg = w.toNat / 256 % 256 → rsv = w.toNat / 65536 →
    (opc < 1 ∨ 6 < opc → illegal w = some .illegalOpcode) ∧
    (1 ≤ opc → opc ≤ 6 → rsv ≠ 0 → illegal w = some .reservedBits) ∧
    (opc = 1 → rsv = 0 → 0x07 < arg → illegal w = some .illegalSelector) ∧
    (opc = 2 → rsv = 0 → ¬ (arg ≤ 0x07 ∨ 0x10 ≤ arg ∧ arg ≤ 0x17) → illegal w = some .illegalSelector) ∧
    (opc = 3 → rsv = 0 → arg / 4 ≠ 0 → illegal w = some .reservedBits) ∧
    (4 ≤ opc → opc ≤ 6 → rsv = 0 → arg ≠ 0 → illegal w = some .reservedBits) ∧
    (∀ c : FaultCode, illegal w = some c → Rule.operandCount opc ≤ ops.length →
      decode (w :: ops) = .illegal c w) ∧
    (opc = 1 → rsv = 0 → arg ≤ 0x07 →
      decode (w :: ops) =
        match ops with
        | o :: rest => .command (.cfgWr (BitVec.ofNat 8 arg) o) rest
        | [] => .incomplete) ∧
    (opc = 2 → rsv = 0 → arg ≤ 0x07 ∨ 0x10 ≤ arg ∧ arg ≤ 0x17 →
      decode (w :: ops) = .command (.cfgRd (BitVec.ofNat 8 arg)) ops) ∧
    (opc = 3 → rsv = 0 → arg / 4 = 0 →
      decode (w :: ops) =
        match ops with
        | o :: rest => .command (.beginCall (arg % 2 == 1) (arg / 2 % 2 == 1) o) rest
        | [] => .incomplete) ∧
    (opc = 4 → rsv = 0 → arg = 0 →
      decode (w :: ops) =
        match ops with
        | o :: rest => .command (.push o) rest
        | [] => .incomplete) ∧
    (opc = 5 → rsv = 0 → arg = 0 →
      decode (w :: ops) =
        match ops with
        | o :: o' :: rest => .command (.push2 o o') rest
        | _ => .incomplete) ∧
    (opc = 6 → rsv = 0 → arg = 0 → decode (w :: ops) = .command .endCall ops)

/-- Words the spec writes out (30_encoding.md R86, R88; 95_test_vectors.md 2.13) decode to what it says they are. -/
def Obligations.WordsOfTheSpecDecode : Prop :=
  decode [0x0000000000000001#64, 4#64] = .command (.cfgWr 0x00#8 4#64) [] ∧
  decode [0x0000000000000701#64, 1#64] = .command (.cfgWr 0x07#8 1#64) [] ∧
  decode [0x0000000000001602#64] = .command (.cfgRd 0x16#8) [] ∧
  decode [0x0000000000000003#64, 0x40E5888000000000#64] = .command (.beginCall false false 0x40E5888000000000#64) [] ∧
  decode [0x0000000000000303#64, 0x40E7700000000000#64] = .command (.beginCall true true 0x40E7700000000000#64) [] ∧
  decode [0x0000000000000004#64, 0x3FE0000000000000#64] = .command (.push 0x3FE0000000000000#64) [] ∧
  decode [0x0000000000000005#64, 1#64, 2#64] = .command (.push2 1#64 2#64) [] ∧
  decode [0x0000000000000006#64] = .command .endCall [] ∧
  decode [0x0000000000000000#64] = .illegal .illegalOpcode 0x0000000000000000#64 ∧
  decode [0x0000000000010004#64, 0x3FE0000000000000#64] = .illegal .reservedBits 0x0000000000010004#64

/-- 20_memory.md R65, R66: words sent over a byte-wide link, byte `k` being bits `[8k+7:8k]`, arrive as they were, and
a partial word at the end delivers nothing. -/
def Obligations.LinkBytesCarryWholeWords : Prop :=
  (∀ w : Word, (bytesOfWord w).length = 8 ∧
    ∀ k : Nat, k < 8 → (bytesOfWord w)[k]? = some (BitVec.ofNat 8 (w.toNat / 256 ^ k))) ∧
  ∀ (ws : List Word) (part : List Byte), part.length < 8 → wordsOfBytes (ws.flatMap bytesOfWord ++ part) = ws

/-- 30_encoding.md R96, as data (log entry 16): a register's name stands for its selector, a line for a command the
encoding admits, a raw word for itself, an int16 sample for its sign-extended word. -/
def Obligations.AssemblerLinesNameTheirCommands : Prop :=
  (∀ (l : AsmLine) (i : Instr), l.command = some i → i.wellFormed = true) ∧
  (∀ reg : CfgReg, cfgRegOf reg.sel = some reg) ∧ (∀ reg : WinReg, winRegOf reg.sel = some reg) ∧
  (∀ (reg : CfgReg) (w : Word), AsmLine.command (.cfgWr reg (.raw w)) = some (.cfgWr reg.sel w)) ∧
  (∀ n : Int, -32768 ≤ n → n ≤ 32767 → AsmLine.command (.push (.int n)) = some (.push (BitVec.ofInt 64 n)))

/-! ## Steps -/

/-- When the words at the port are those of a well-formed command and the result port has room for what it emits, the
step is that command's meaning, its words consumed (20_memory.md R61, R62, R69). -/
def Obligations.StepRunsTheDecodedCommand : Prop :=
  ∀ (s : State) (i : Instr) (es : List HostEvent), s.mode ≠ .faulted → i.wellFormed = true →
    s.hostInput = (encode i).map .word ++ es → s.results.length + i.nres ≤ Config.resDepth →
    step s = exec i { s with hostInput := es }

/-- An illegal command word with the operand words its opcode takes raises its fault, whatever room the result port has,
and nothing else happens; before they have arrived the block waits (20_memory.md R61; 30_encoding.md R85, R92 to R94, R98;
60_exceptions.md R205). That an illegal word waits for its operand words is DEDUCED (log entry 21), that it does not
wait for room is the model's choice (log entry 4). -/
def Obligations.IllegalWordRaisesItsFault : Prop :=
  ∀ (s : State) (w : Word) (ops : List Word) (es : List HostEvent) (c : FaultCode), s.mode ≠ .faulted →
    illegal w = some c →
    (ops.length = Rule.operandCount (w.toNat % 256) → s.hostInput = (w :: ops).map .word ++ es →
      step s = .next (Rule.faulted { s with hostInput := es } c (w.field 0 8) (w.field 8 8))) ∧
    (ops.length < Rule.operandCount (w.toNat % 256) → s.hostInput = (w :: ops).map .word → step s = .next s)

/-- 60_exceptions.md R207: in `FAULTED` a word is read and discarded, nothing else happens, no second fault is raised,
the status word keeps answering and `ERR` stays 1. -/
def Obligations.FaultedModeDiscardsEveryWord : Prop :=
  ∀ (s : State) (w : Word) (es : List HostEvent), s.mode = .faulted → s.hostInput = .word w :: es →
    step s = .next { s with hostInput := es } ∧
    ({ s with hostInput := es } : State).statusWord = s.statusWord ∧
    ({ s with hostInput := es } : State).err = true

/-- The model's choice (log entry 8): the meaning of a command, taken in `FAULTED`, changes nothing, as the sequencer
that discards its words does (60_exceptions.md R207, R209). -/
def Obligations.NoCommandHasAnEffectInFaulted : Prop :=
  ∀ (i : Instr) (s : State), s.mode = .faulted → exec i s = .next s

/-- A command whose words have not all arrived, or whose results have no room, waits: while the host sends no signal
nothing changes (20_memory.md R61, R62; 60_exceptions.md R216). -/
def Obligations.WaitingKeepsAllState : Prop :=
  ∀ (s : State) (ws : List Word), s.mode ≠ .faulted → s.hostInput = ws.map .word →
    (decode ws = .incomplete ∨
      ∃ i rest, decode ws = .command i rest ∧ Config.resDepth < s.results.length + i.nres) →
    step s = .next s

/-- 20_memory.md R62: where the result port has no room, the host's next take moves the oldest word to the host and
leaves the waiting words and everything else as they are. -/
def Obligations.TakeMakesRoomForTheWaitingCommand : Prop :=
  ∀ (s : State) (ws : List Word) (es : List HostEvent) (i : Instr) (rest : List Word) (w : Word) (rs : List Word),
    s.mode ≠ .faulted → s.hostInput = ws.map .word ++ .take :: es → decode ws = .command i rest →
    Config.resDepth < s.results.length + i.nres → s.results = w :: rs →
    step s = .next { s with hostInput := ws.map .word ++ es, results := rs, taken := s.taken ++ [w] }

/-- 70_reset_and_hazards.md R240, R241: RESET sets every piece of state to its reset value in every mode, discards the
result words not taken, and abandons a command whose words have only partly arrived: after it the next word is a command
word. That it acts when the block comes to it, and that a whole command that waits for room ahead of it is discarded, is
the model's choice (log entry 3). -/
def Obligations.ResetRestoresEveryPieceOfState : Prop :=
  ∀ (s : State) (ws : List Word) (es : List HostEvent), s.hostInput = ws.map .word ++ .reset :: es →
    (ws = [] ∨ s.mode ≠ .faulted ∧
      (decode ws = .incomplete ∨
        ∃ i rest, decode ws = .command i rest ∧ Config.resDepth < s.results.length + i.nres)) →
    step s = .next (Rule.afterReset es s.taken)

/-- 20_memory.md R62: result words are never dropped, duplicated or reordered by a step; only a RESET discards those
not taken (70_reset_and_hazards.md R240). -/
def Obligations.ResultWordsKeepTheirOrder : Prop :=
  ∀ (s t : State), step s = .next t →
    (∃ ws : List Word, ws.length ≤ 2 ∧ t.taken ++ t.results = s.taken ++ s.results ++ ws) ∨
    (nextSignal s.hostInput = some .reset ∧ t.taken = s.taken ∧ t.results = [])

/-! ## The commands -/

/-- 42_call_and_config.md R170: `CFG_WR`. -/
def Obligations.CfgWrStoresItsOperand : Prop :=
  ∀ (s : State) (sel : Byte) (v : Word),
    encode (.cfgWr sel v) = [BitVec.ofNat 64 (sel.toNat * 256 + 0x01), v] ∧
    (sel.toNat ≤ 0x07 → s.mode = .idle →
      exec (.cfgWr sel v) s = .next
        { s with
          bitdepth := if sel = 0x00#8 then v else s.bitdepth
          srrFactor := if sel = 0x01#8 then v else s.srrFactor
          mix := if sel = 0x02#8 then v else s.mix
          lpfEn := if sel = 0x03#8 then v else s.lpfEn
          lpfCutoff := if sel = 0x04#8 then v else s.lpfCutoff
          clipEn := if sel = 0x05#8 then v else s.clipEn
          clipThresh := if sel = 0x06#8 then v else s.clipThresh
          downmixEn := if sel = 0x07#8 then v else s.downmixEn }) ∧
    (sel.toNat ≤ 0x07 → s.active → exec (.cfgWr sel v) s = .next (Rule.faulted s .sequence 0x01#8 sel)) ∧
    (∀ w : Word, opcOf w = 0x01#8 →
      (rsvOf w ≠ 0 → illegal w = some .reservedBits) ∧
      (rsvOf w = 0 → 0x07 < (argOf w).toNat → illegal w = some .illegalSelector))

/-- 42_call_and_config.md R171: `CFG_RD`, for every register of 10_state.md R24 and R50. -/
def Obligations.CfgRdEmitsTheRegister : Prop :=
  ∀ s : State, s.mode ≠ .faulted →
    (∀ p ∈ [(0x00#8, s.bitdepth), (0x01#8, s.srrFactor), (0x02#8, s.mix), (0x03#8, s.lpfEn), (0x04#8, s.lpfCutoff),
            (0x05#8, s.clipEn), (0x06#8, s.clipThresh), (0x07#8, s.downmixEn), (0x10#8, s.sr), (0x11#8, s.steps),
            (0x12#8, s.alpha), (0x13#8, s.phase), (0x14#8, s.filtL), (0x15#8, s.filtR), (0x16#8, s.holdL),
            (0x17#8, s.holdR)],
      encode (.cfgRd p.1) = [BitVec.ofNat 64 (p.1.toNat * 256 + 0x02)] ∧
      exec (.cfgRd p.1) s = .next { s with results := s.results ++ [p.2] }) ∧
    (∀ w : Word, opcOf w = 0x02#8 →
      (rsvOf w ≠ 0 → illegal w = some .reservedBits) ∧
      (rsvOf w = 0 → 0x07 < (argOf w).toNat → ¬ (0x10 ≤ (argOf w).toNat ∧ (argOf w).toNat ≤ 0x17) →
        illegal w = some .illegalSelector))

/-- 42_call_and_config.md R172, R173: `BEGIN`. -/
def Obligations.BeginStartsACallOrRefusesIt : Prop :=
  ∀ (s : State) (stereo i16 : Bool) (rate : Word) (arg : Byte),
    arg = BitVec.ofNat 8 (stereo.toNat + 2 * i16.toNat) →
    encode (.beginCall stereo i16 rate) = [BitVec.ofNat 64 (arg.toNat * 256 + 0x03), rate] ∧
    (s.mode = .idle → Rule.cfgOk s (F64.ofBits rate) →
      exec (.beginCall stereo i16 rate) s = .next
        { s with
          sr := rate
          steps := BitVec.ofNat 64 (2 ^ s.bitdepth.toNat - 1)
          alpha := if s.lpfEn = 1 then (Rule.alpha (F64.ofBits s.lpfCutoff) (F64.ofBits rate)).toBits else 0#64
          fmt := if i16 then .int16 else .binary64
          mode := if stereo then .stereo else .mono
          phase := 0#64
          filtL := 0#64
          filtR := 0#64
          holdL := 0#64
          holdR := 0#64 }) ∧
    (s.mode = .idle → ¬ Rule.cfgOk s (F64.ofBits rate) →
      exec (.beginCall stereo i16 rate) s = .next (Rule.faulted s .configInvalid 0x03#8 arg)) ∧
    (s.active → exec (.beginCall stereo i16 rate) s = .next (Rule.faulted s .sequence 0x03#8 arg)) ∧
    (∀ w : Word, opcOf w = 0x03#8 → rsvOf w ≠ 0 ∨ (argOf w).toNat / 4 ≠ 0 → illegal w = some .reservedBits)

/-- 41_sample_commands.md R151: `PUSH`. -/
def Obligations.PushRunsOneMonoTimeStep : Prop :=
  ∀ (s : State) (op : Word),
    encode (.push op) = [0x0000000000000004#64, op] ∧
    (s.mode = .mono → ∀ d h p v : F64, Rule.input s.fmt op d →
      h = (if s.phase = 0 then d else F64.ofBits s.holdL) → p = Rule.processed s h (F64.ofBits s.filtL) →
      v = Rule.mixed s p d →
      (v.isNaN = false →
        exec (.push op) s = .next
          { s with
            holdL := if s.phase = 0 then d.toBits else s.holdL
            filtL := if s.lpfEn = 1 then p.toBits else s.filtL
            phase := Rule.phase s
            results := s.results ++ [Rule.output v] }) ∧
      (v.isNaN = true → exec (.push op) s = .next (Rule.faulted s .numericNan 0x04#8 0x00#8))) ∧
    (s.mode = .mono → ∀ c : FaultCode, Rule.badInput s.fmt op c →
      exec (.push op) s = .next (Rule.faulted s c 0x04#8 0x00#8)) ∧
    (s.mode = .idle ∨ s.mode = .stereo → exec (.push op) s = .next (Rule.faulted s .sequence 0x04#8 0x00#8)) ∧
    (∀ w : Word, opcOf w = 0x04#8 → argOf w ≠ 0 ∨ rsvOf w ≠ 0 → illegal w = some .reservedBits)

/-- 41_sample_commands.md R152: `PUSH2`. -/
def Obligations.Push2RunsOneStereoTimeStep : Prop :=
  ∀ (s : State) (op0 op1 : Word),
    encode (.push2 op0 op1) = [0x0000000000000005#64, op0, op1] ∧
    (s.mode = .stereo → ∀ dL dR a nL nR hL hR pL pR vL vR : F64, Rule.input s.fmt op0 dL → Rule.input s.fmt op1 dR →
      a = (dL.add dR).div (F64.ofInt 2) →
      nL = (if s.downmixEn = 1 then a else dL) → nR = (if s.downmixEn = 1 then a else dR) →
      hL = (if s.phase = 0 then nL else F64.ofBits s.holdL) →
      hR = (if s.phase = 0 then nR else F64.ofBits s.holdR) →
      pL = Rule.processed s hL (F64.ofBits s.filtL) → pR = Rule.processed s hR (F64.ofBits s.filtR) →
      vL = Rule.mixed s pL dL → vR = Rule.mixed s pR dR →
      (vL.isNaN = false → vR.isNaN = false →
        exec (.push2 op0 op1) s = .next
          { s with
            holdL := if s.phase = 0 then nL.toBits else s.holdL
            holdR := if s.phase = 0 then nR.toBits else s.holdR
            filtL := if s.lpfEn = 1 then pL.toBits else s.filtL
            filtR := if s.lpfEn = 1 then pR.toBits else s.filtR
            phase := Rule.phase s
            results := s.results ++ [Rule.output vL, Rule.output vR] }) ∧
      (vL.isNaN = true ∨ vR.isNaN = true →
        exec (.push2 op0 op1) s = .next (Rule.faulted s .numericNan 0x05#8 0x00#8))) ∧
    (s.mode = .stereo → ∀ c : FaultCode, Rule.badInput s.fmt op0 c →
      exec (.push2 op0 op1) s = .next (Rule.faulted s c 0x05#8 0x00#8)) ∧
    (s.mode = .stereo → ∀ (d : F64) (c : FaultCode), Rule.input s.fmt op0 d → Rule.badInput s.fmt op1 c →
      exec (.push2 op0 op1) s = .next (Rule.faulted s c 0x05#8 0x00#8)) ∧
    (s.mode = .idle ∨ s.mode = .mono →
      exec (.push2 op0 op1) s = .next (Rule.faulted s .sequence 0x05#8 0x00#8)) ∧
    (∀ w : Word, opcOf w = 0x05#8 → argOf w ≠ 0 ∨ rsvOf w ≠ 0 → illegal w = some .reservedBits)

/-- 42_call_and_config.md R174: `END`. -/
def Obligations.EndClosesTheCall : Prop :=
  ∀ s : State,
    encode .endCall = [0x0000000000000006#64] ∧
    (s.active → exec .endCall s = .next { s with mode := .idle }) ∧
    (s.mode = .idle → exec .endCall s = .next (Rule.faulted s .sequence 0x06#8 0x00#8)) ∧
    (∀ w : Word, opcOf w = 0x06#8 → argOf w ≠ 0 ∨ rsvOf w ≠ 0 → illegal w = some .reservedBits)

/-- The frame of each command: what its meaning leaves as it was, whatever it does. -/
def Obligations.CommandsLeaveTheRestUnchanged : Prop :=
  ∀ (i : Instr) (s t : State), exec i s = .next t →
    t.hostInput = s.hostInput ∧ t.taken = s.taken ∧
    ((∀ sel v, i ≠ .cfgWr sel v) → ∀ r : CfgReg, t.cfg r = s.cfg r) ∧
    (∀ sel v, i = .cfgWr sel v → ∀ sel' : Byte, sel' ≠ sel → t.read sel' = s.read sel') ∧
    ((∀ st f r, i ≠ .beginCall st f r) → t.sr = s.sr ∧ t.steps = s.steps ∧ t.alpha = s.alpha ∧ t.fmt = s.fmt) ∧
    ((∀ st f r, i ≠ .beginCall st f r) → (∀ o, i ≠ .push o) → (∀ o o', i ≠ .push2 o o') →
      t.phase = s.phase ∧ t.filtL = s.filtL ∧ t.filtR = s.filtR ∧ t.holdL = s.holdL ∧ t.holdR = s.holdR) ∧
    (∀ o, i = .push o → t.filtR = s.filtR ∧ t.holdR = s.holdR) ∧
    (∀ o, i = .push o → s.lpfEn ≠ 1 → t.filtL = s.filtL) ∧
    (∀ o o', i = .push2 o o' → s.lpfEn ≠ 1 → t.filtL = s.filtL ∧ t.filtR = s.filtR) ∧
    ((∀ sel, i ≠ .cfgRd sel) → (∀ o, i ≠ .push o) → (∀ o o', i ≠ .push2 o o') → t.results = s.results) ∧
    (t.mode ≠ .faulted → t.faultCode = s.faultCode ∧ t.faultOpc = s.faultOpc ∧ t.faultArg = s.faultArg)

/-! ## Faults, modes and the whole machine -/

/-- 60_exceptions.md R205, R206: a step that enters `FAULTED` records the fault with the fields of the command word at
the port and changes nothing else but the port, where it consumes the command word and the operand words its opcode takes
(20_memory.md R61; log entries 1 and 2, and 21 for an illegal word). -/
def Obligations.FaultsArePrecise : Prop :=
  ∀ (s t : State), step s = .next t → s.mode ≠ .faulted → t.mode = .faulted →
    ∃ (w : Word) (ws : List Word) (n : Nat) (c : FaultCode), arrivedWords s.hostInput = w :: ws ∧
      n = Rule.operandCount (w.toNat % 256) ∧ n ≤ ws.length ∧
      t = Rule.faulted { s with hostInput := s.hostInput.drop (1 + n) } c (w.field 0 8) (w.field 8 8)

/-- 60_exceptions.md R202: the faults each command's meaning can raise; a word the decoder refuses raises one of the
first three columns. -/
def Obligations.EachCommandRaisesOnlyItsFaults : Prop :=
  (∀ (w : Word) (c : FaultCode), illegal w = some c →
    (c = .illegalOpcode ∧ ¬ (1 ≤ (opcOf w).toNat ∧ (opcOf w).toNat ≤ 6)) ∨
    (c = .reservedBits ∧ 1 ≤ (opcOf w).toNat ∧ (opcOf w).toNat ≤ 6) ∨
    (c = .illegalSelector ∧ ((opcOf w).toNat = 1 ∨ (opcOf w).toNat = 2))) ∧
  (∀ (i : Instr) (s t : State) (c : FaultCode), i.wellFormed = true → s.mode ≠ .faulted → exec i s = .next t →
    t.mode = .faulted → t.faultCode = some c →
    match i with
    | .cfgWr _ _ => c = .sequence
    | .cfgRd _ => False
    | .beginCall _ _ _ => c = .sequence ∨ c = .configInvalid
    | .push _ => c = .sequence ∨ c = .inputNonfinite ∨ c = .operandInvalid ∨ c = .numericNan
    | .push2 _ _ => c = .sequence ∨ c = .inputNonfinite ∨ c = .operandInvalid ∨ c = .numericNan
    | .endCall => c = .sequence)

/-- 60_exceptions.md R208: the only way out of `FAULTED` is RESET; until then the first fault's record stays. -/
def Obligations.OnlyResetLeavesFaulted : Prop :=
  ∀ (s t : State), step s = .next t → s.mode = .faulted →
    (t.mode = .faulted ∧ t.faultCode = s.faultCode ∧ t.faultOpc = s.faultOpc ∧ t.faultArg = s.faultArg) ∨
    (∃ es, nextSignal s.hostInput = some .reset ∧ t = Rule.afterReset es s.taken)

/-- 10_state.md R40: the transitions of `MODE`, and no other. -/
def Obligations.ModeChangesOnlyAsListed : Prop :=
  ∀ (s t : State), step s = .next t → t.mode ≠ s.mode →
    (s.mode = .idle ∧ ∃ st f r rest, decode (arrivedWords s.hostInput) = .command (.beginCall st f r) rest ∧
      t.mode = if st then .stereo else .mono) ∨
    (s.active ∧ t.mode = .idle ∧ ∃ rest, decode (arrivedWords s.hostInput) = .command .endCall rest) ∨
    (t.mode = .faulted ∧ t.faultCode ≠ none) ∨
    (t.mode = .idle ∧ nextSignal s.hostInput = some .reset)

/-- 10_state.md R34: the configuration registers do not change during a call, and a `CFG_WR` in a call raises
`SEQUENCE`. (A step that is a RESET ends the call: 70_reset_and_hazards.md R240.) -/
def Obligations.ConfigurationIsFixedDuringACall : Prop :=
  ∀ s : State, s.active →
    (∀ t : State, step s = .next t →
      (∀ r : CfgReg, t.cfg r = s.cfg r) ∨
      ∃ (ws : List Word) (es : List HostEvent), s.hostInput = ws.map .word ++ .reset :: es ∧
        t = Rule.afterReset es s.taken) ∧
    (∀ (sel : Byte) (v : Word), sel.toNat ≤ 0x07 →
      exec (.cfgWr sel v) s = .next (Rule.faulted s .sequence 0x01#8 sel))

/-- 10_state.md R48, R49: where each field of the status word stands, and `ERR`. -/
def Obligations.StatusWordShowsTheFields : Prop :=
  ∀ s : State,
    s.statusWord.field 0 2 = (match s.mode with | .idle => 0#2 | .mono => 1#2 | .stereo => 2#2 | .faulted => 3#2) ∧
    s.statusWord.field 2 1 = (match s.fmt with | .binary64 => 0#1 | .int16 => 1#1) ∧
    s.statusWord.field 3 5 = 0#5 ∧
    s.statusWord.field 8 8 =
      (match s.faultCode with
        | none => 0x00#8
        | some .illegalOpcode => 0x01#8
        | some .reservedBits => 0x02#8
        | some .illegalSelector => 0x03#8
        | some .sequence => 0x04#8
        | some .configInvalid => 0x05#8
        | some .inputNonfinite => 0x06#8
        | some .operandInvalid => 0x07#8
        | some .numericNan => 0x08#8) ∧
    s.statusWord.field 16 8 = s.faultOpc ∧
    s.statusWord.field 24 8 = s.faultArg ∧
    s.statusWord.field 32 32 = 0#32 ∧
    (s.err = true ↔ s.mode = .faulted)

/-- 10_state.md R51: the reset value of every piece of state. -/
def Obligations.ResetValuesAreTheTable : Prop :=
  State.reset = Rule.afterReset State.reset.hostInput State.reset.taken ∧ State.reset.statusWord = 0#64 ∧
  State.reset.err = false

/-- 60_exceptions.md R214: a step of one instance leaves every other instance as it was, and is the step of that
instance's own state, whatever the others hold. That the instances are a list of which one steps at a time is the
model's choice (log entry 14). -/
def Obligations.InstancesAreIndependent : Prop :=
  ∀ (p : List State) (k : Nat),
    (∀ j : Nat, j ≠ k → (platformStep p k)[j]? = p[j]?) ∧
    (∀ s : State, p[k]? = some s → ∃ t : State, step s = .next t ∧ (platformStep p k)[k]? = some t) ∧
    (p[k]? = none → platformStep p k = p)

/-! ## Arithmetic and the stage functions -/

/-- 00_scope.md R6, R10: every sum, difference, product and quotient of finite values is the exact result rounded once:
to the nearest binary64 magnitude, to the even significand where two are as near, to an infinity from 2^1024 - 2^970,
that is (2^54 - 1) * 2^970, on. (The IEEE 754 meanings, the sign of a zero among them, are log entry 7.) -/
def Obligations.EveryOperationRoundsToNearestEven : Prop :=
  (∀ (n n' : Bool) (m m' : Nat),
    ((F64.fin n m).mul (.fin n' m') = F64.round (n ^^ n') (m * m') F64.unit) ∧
    (m' ≠ 0 → (F64.fin n m).div (.fin n' m') = F64.round (n ^^ n') (m * F64.unit) m') ∧
    (∀ i : Int, i = signedMag n m + signedMag n' m' →
      (i ≠ 0 → (F64.fin n m).add (.fin n' m') = F64.round (decide (i < 0)) i.natAbs 1) ∧
      (i = 0 → (F64.fin n m).add (.fin n' m') = .fin (n && n') 0)) ∧
    (∀ i : Int, i = signedMag n m - signedMag n' m' →
      (i ≠ 0 → (F64.fin n m).sub (.fin n' m') = F64.round (decide (i < 0)) i.natAbs 1) ∧
      (i = 0 → (F64.fin n m).sub (.fin n' m') = .fin (n && !n') 0))) ∧
  (∀ (n : Bool) (num den : Nat), 0 < den →
    (F64.round n num den = .inf n ↔ (2 ^ 54 - 1) * 2 ^ (970 + F64.unitExp) * den ≤ num) ∧
    (∀ (n' : Bool) (r : Nat), F64.round n num den = .fin n' r →
      n' = n ∧ F64.magOk r = true ∧
      ∀ x : Nat, F64.magOk x = true →
        ((num : Int) - r * den).natAbs ≤ ((num : Int) - x * den).natAbs ∧
        (((num : Int) - r * den).natAbs = ((num : Int) - x * den).natAbs → x ≠ r →
          r / 2 ^ F64.ulpExp r % 2 = 0)))

/-- 00_scope.md R11: `roundInt` picks the nearest integer, keeps the sign, and breaks ties by `ROUND_TIE`. -/
def Obligations.RoundIntPicksTheNearestInteger : Prop :=
  ∀ (tie : RoundTie) (neg : Bool),
    (F64.inf neg).roundInt tie = .inf neg ∧
    ∀ mag : Nat, ∃ n : Nat, (F64.fin neg mag).roundInt tie = .fin neg (n * F64.unit) ∧
      2 * ((mag : Int) - n * F64.unit).natAbs ≤ F64.unit ∧
      (F64.magOk mag = true → F64.magOk (n * F64.unit) = true) ∧
      ∀ k : Nat, 2 * mag = (2 * k + 1) * F64.unit →
        match tie with
        | .away => n = k + 1
        | .even => n % 2 = 0
        | .up => n = if neg then k else k + 1

/-- 40_datapath_stages.md R112: an int16 sample divides by 32768 exactly: `n` units of 2^-15, its sign kept. -/
def Obligations.Int16SamplesNormalizeExactly : Prop :=
  ∀ n : Int, -32768 ≤ n → n ≤ 32767 →
    (normI16 n).isFinite = true ∧ normI16 n = .fin (decide (n < 0)) (n.natAbs * 2 ^ (F64.unitExp - 15)) ∧
    (F64.one.neg.le (normI16 n) = true ∧ (normI16 n).le (F64.ofBits 0x3FEFFFC000000000#64) = true)

/-- 40_datapath_stages.md R117: for `h` in [-1, 1] and legal `BITDEPTH` the quantizer's value is the binary64 nearest
`k / STEPS` for an integer `k` in `-STEPS..STEPS`. -/
def Obligations.QuantizerYieldsALevel : Prop :=
  ∀ (tie : RoundTie) (b h : Word), 1 ≤ b.toNat → b.toNat ≤ 16 → (F64.ofBits h).inUnit = true →
    ∃ k : Int, -(2 ^ b.toNat - 1) ≤ k ∧ k ≤ 2 ^ b.toNat - 1 ∧
      (quant tie (stepsOf b) (F64.ofBits h)).numEq ((F64.ofInt k).div (F64.ofInt (2 ^ b.toNat - 1))) = true

/-- 40_datapath_stages.md R116 corner cases: ±1.0 quantizes to ±1.0 at every legal `BITDEPTH`. -/
def Obligations.QuantizerKeepsFullScale : Prop :=
  ∀ (tie : RoundTie) (b : Word), 1 ≤ b.toNat → b.toNat ≤ 16 →
    quant tie (stepsOf b) F64.one = F64.one ∧ quant tie (stepsOf b) F64.one.neg = F64.one.neg

/-- 40_datapath_stages.md R119: the hard clipper keeps a value within the threshold and passes what lies within. -/
def Obligations.HardClipKeepsWithinTheThreshold : Prop :=
  ∀ t q : F64, F64.zero.lt t = true → q.isNaN = false →
    t.neg.le (hclip t q) = true ∧ (hclip t q).le t = true ∧
    (q.lt t.neg = true → hclip t q = t.neg) ∧ (t.lt q = true → hclip t q = t) ∧
    (t.neg.le q = true → q.le t = true → hclip t q = q)

/-- 40_datapath_stages.md R121: a coefficient that is not a NaN lies in [0, 1]. -/
def Obligations.AlphaLiesInTheUnitRange : Prop :=
  ∀ f sr : Word, (F64.ofBits f).isFinite = true → F64.zero.lt (F64.ofBits f) = true →
    (F64.ofBits sr).isFinite = true → F64.zero.lt (F64.ofBits sr) = true →
    (alphaOf (F64.ofBits f) (F64.ofBits sr)).isNaN = false →
    F64.zero.le (alphaOf (F64.ofBits f) (F64.ofBits sr)) = true ∧
    (alphaOf (F64.ofBits f) (F64.ofBits sr)).le F64.one = true

/-- 40_datapath_stages.md R122: an input equal to the filter state leaves it where it is. -/
def Obligations.FilterRestsAtItsInput : Prop :=
  ∀ (a : F64) (st x : Word), a.isFinite = true → (F64.ofBits st).isFinite = true →
    (F64.ofBits x).numEq (F64.ofBits st) = true →
    (lpf a (F64.ofBits st) (F64.ofBits x)).numEq (F64.ofBits st) = true

/-- 40_datapath_stages.md R124: blend 1.0 gives the processed value, blend 0.0 (of either sign) the dry one, as
numbers. -/
def Obligations.MixEndpointsGiveOneInput : Prop :=
  ∀ p d : Word, (F64.ofBits p).isFinite = true → (F64.ofBits d).isFinite = true →
    (mixStage F64.one (F64.ofBits p) (F64.ofBits d)).numEq (F64.ofBits p) = true ∧
    ∀ m : F64, m.numEq F64.zero = true → (mixStage m (F64.ofBits p) (F64.ofBits d)).numEq (F64.ofBits d) = true

/-- 40_datapath_stages.md R128: after `n` time steps from 0 the phase is `n mod SRR_FACTOR`. -/
def Obligations.PhaseIsTheStepIndexModTheFactor : Prop :=
  ∀ (factor : Word) (n : Nat), 1 ≤ factor.toNat → (((phaseNext factor)^[n]) 0#64).toNat = n % factor.toNat

/-- 40_datapath_stages.md R129: every sample word a `PUSH` or `PUSH2` emits encodes a value in [-1.0, 1.0], and so no
NaN. -/
def Obligations.EveryOutputLiesInUnitRange : Prop :=
  (∀ v : F64, v.isNaN = false → (clamp1 v).inUnit = true) ∧
  ∀ (s t : State), t.mode ≠ .faulted →
    (∀ op, exec (.push op) s = .next t → ∃ y, t.results = s.results ++ [y] ∧ (F64.ofBits y).inUnit = true) ∧
    (∀ op0 op1, exec (.push2 op0 op1) s = .next t →
      ∃ yL yR, t.results = s.results ++ [yL, yR] ∧ (F64.ofBits yL).inUnit = true ∧ (F64.ofBits yR).inUnit = true)

/-- 40_datapath_stages.md R111, R113: at an update instant of a binary64 mono call the hold register takes the input
word, bit for bit; between update instants it stays. -/
def Obligations.HoldTakesTheInputWordAtUpdates : Prop :=
  ∀ (s t : State) (op : Word), exec (.push op) s = .next t → t.mode = .mono →
    (s.phase = 0 → s.fmt = .binary64 → t.holdL = op) ∧ (s.phase ≠ 0 → t.holdL = s.holdL)

/-- 41_sample_commands.md R153: with fold-down off, each lane of a frame is the mono computation on its own sample,
`HOLD` and `FILT`, the left result word first. -/
def Obligations.LanesAreTheMonoComputation : Prop :=
  ∀ (s t : State) (op0 op1 : Word), s.mode = .stereo → s.downmixEn ≠ 1 → exec (.push2 op0 op1) s = .next t →
    t.mode = .stereo →
    ∃ (tL tR : State) (yL yR : Word),
      exec (.push op0) { s with mode := .mono } = .next tL ∧ tL.mode = .mono ∧ tL.results = s.results ++ [yL] ∧
      exec (.push op1) { s with mode := .mono, holdL := s.holdR, filtL := s.filtR } = .next tR ∧ tR.mode = .mono ∧
      tR.results = s.results ++ [yR] ∧
      t.holdL = tL.holdL ∧ t.filtL = tL.filtL ∧ t.holdR = tR.holdL ∧ t.filtR = tR.filtL ∧ t.phase = tL.phase ∧
      t.results = s.results ++ [yL, yR]

/-! ## Invariants -/

/-- The invariant holds at reset. -/
def Obligations.ResetMeetsTheInvariant : Prop := State.reset.Inv

/-- Every step keeps the invariant, from every state that meets it. -/
def Obligations.StepKeepsTheInvariant : Prop := ∀ s t : State, s.Inv → step s = .next t → t.Inv

/-- Whatever the host does, every state the block comes to meets the invariant. -/
def Obligations.ReachableStatesMeetTheInvariant : Prop := ∀ s : State, Reachable s → s.Inv

/-- A call that `BEGIN` starts begins with its registers in range: the filter and hold state zero, `ALPHA` in [0, 1]
(42_call_and_config.md R172, R173; 40_datapath_stages.md R121). -/
def Obligations.BeginPutsTheCallInRange : Prop :=
  ∀ (s : State) (st f : Bool) (rate : Word), s.mode = .idle → s.cfgOk (F64.ofBits rate) = true →
    ∃ t, exec (.beginCall st f rate) s = .next t ∧ t.active ∧ t.InRange

/-- 43_host_operations.md R193, 40_datapath_stages.md R130: in a call on an accepted configuration, samples in [-1, 1]
never fault, and keep the registers in range for the next one. -/
def Obligations.SamplesInRangeNeverFault : Prop :=
  ∀ s : State, s.Inv → s.InRange →
    (∀ op, s.mode = .mono → sampleInRange s.fmt op = true →
      ∃ t, exec (.push op) s = .next t ∧ t.mode = .mono ∧ t.InRange) ∧
    (∀ op0 op1, s.mode = .stereo → sampleInRange s.fmt op0 = true → sampleInRange s.fmt op1 = true →
      ∃ t, exec (.push2 op0 op1) s = .next t ∧ t.mode = .stereo ∧ t.InRange)

/-! ## Host operations -/

/-- 10_state.md R47, 70_reset_and_hazards.md R246: what a call returns depends on nothing before its `BEGIN` but the
configuration registers. -/
def Obligations.EachCallIsSelfContained : Prop :=
  ∀ (s₁ s₂ : State) (st f : Bool) (rate : Word) (cmds : List Instr),
    s₁.mode = .idle → s₂.mode = .idle → s₁.hostInput = [] → s₂.hostInput = [] → s₁.results = [] → s₂.results = [] →
    (∀ r : CfgReg, s₁.cfg r = s₂.cfg r) →
    returned (.beginCall st f rate :: cmds) s₁ = returned (.beginCall st f rate :: cmds) s₂

/-- 43_host_operations.md R190, R191, R193: a host operation that returns a buffer returns exactly one word per input
sample. -/
def Obligations.OperationsReturnOneWordPerSample : Prop :=
  ∀ (s : State) (buf : List Sample) (sr : Word) (cmds : List Instr) (out : List Word),
    s.mode = .idle → s.hostInput = [] → s.results = [] →
    process buf sr = some cmds ∨ processStereo buf sr = some cmds → returned cmds s = some out →
    out.length = buf.length

/-- 42_call_and_config.md R174: the empty buffer returns the empty buffer, in both operations. -/
def Obligations.EmptyBufferReturnsEmpty : Prop :=
  ∀ (s : State) (sr : Word) (cmds : List Instr), s.mode = .idle → s.hostInput = [] → s.results = [] →
    s.cfgOk (F64.ofBits sr) = true → process [] sr = some cmds ∨ processStereo [] sr = some cmds →
    returned cmds s = some []

/-- 43_host_operations.md R194, R195: an odd-length stereo buffer and a buffer that mixes formats have no expansion;
every other buffer has one. -/
def Obligations.OperationsRefuseOddAndMixedBuffers : Prop :=
  ∀ (buf : List Sample) (sr : Word),
    (process buf sr = none ↔ (∃ w, Sample.binary64 w ∈ buf) ∧ ∃ v, Sample.int16 v ∈ buf) ∧
    (processStereo buf sr = none ↔
      buf.length % 2 = 1 ∨ (∃ w, Sample.binary64 w ∈ buf) ∧ ∃ v, Sample.int16 v ∈ buf)

/-- 43_host_operations.md R192: `CONFIGURE` in idle mode leaves each register with its field's value and the block
idle. -/
def Obligations.ConfigureWritesEveryField : Prop :=
  ∀ (s t : State) (c : EngineConfig), s.mode = .idle → s.hostInput = [] → s.results = [] →
    t = perform (configure c) s →
    t.mode = .idle ∧ t.hostInput = [] ∧ t.bitdepth = c.bitDepth ∧ t.srrFactor = c.sampleRateReductionFactor ∧
    t.mix = c.wetDryMix ∧ t.lpfEn = (if c.lowpassCutoffHz = none then 0#64 else 1#64) ∧
    t.lpfCutoff = c.lowpassCutoffHz.getD s.lpfCutoff ∧ t.clipEn = (if c.hardClipEnabled then 1#64 else 0#64) ∧
    t.clipThresh = c.clipThreshold ∧ t.downmixEn = (if c.monoDownmixEnabled then 1#64 else 0#64)

/-- 70_reset_and_hazards.md R241: a host operation that RESET cuts short before the last of its events returns no
buffer; after the last it is over and returns what 43_host_operations.md R190 says. Either way the block is in its reset
state, with nothing left at its ports, and the host keeps exactly the result words it had taken until then. That the host
then sends and takes no more, and that an operation is over with its last event, is the model's (log entry 15), the order
of events is log entry 3. -/
def Obligations.ResetCutsAnOperationShort : Prop :=
  ∀ (s : State) (cmds : List Instr) (k : Nat), s.hostInput = [] →
    (k < (hostEvents cmds).length → returnedBy cmds (cutShort cmds k) s = none) ∧
    ((hostEvents cmds).length ≤ k → returnedBy cmds (cutShort cmds k) s = returned cmds s) ∧
    runEvents (cutShort cmds k) s = Rule.afterReset [] (runEvents ((hostEvents cmds).take k) s).taken ∧
    received (cutShort cmds k) s = received ((hostEvents cmds).take k) s

/-- 20_memory.md R61, R69; 70_reset_and_hazards.md R251: from every state the block comes to rest within as many steps as
its host has done, waiting for the host and changing nothing more; and a host operation returns what it returns from
there, so what was pending runs first. When events act is log entries 1 and 3. -/
def Obligations.OperationsBeginWhereTheBlockRests : Prop :=
  ∀ (s : State) (cmds : List Instr),
    step s.settled = .next s.settled ∧
    (∀ n : Nat, s.hostInput.length ≤ n → runSteps n s = s.settled) ∧
    returned cmds s = returned cmds s.settled

/-- 43_host_operations.md R190, R191: an operation that returns a buffer has run to its end: every event of it, and every
one before it, has acted, and the block has not faulted; `process` and `processStereo` on a block at rest that waits for a
command word then leave it idle, their `END` executed (42_call_and_config.md R174). When an operation returns no buffer is
log entries 27 and 28. -/
def Obligations.OperationsReturnAfterTheirEnd : Prop :=
  ∀ (s : State) (buf : List Sample) (sr : Word) (cmds : List Instr) (out : List Word),
    returned cmds s = some out →
    ((perform cmds s).mode ≠ .faulted ∧ (perform cmds s).hostInput = []) ∧
    (process buf sr = some cmds ∨ processStereo buf sr = some cmds → s.settled.hostInput = [] →
      (perform cmds s).mode = .idle ∧ (perform cmds s).sr = sr)
end

