-- ==== Sys2Proof/Laws/Rounding.lean ====
section
/-! SUPPORT. What rounding does: the one rounding function of the model against the numbers binary64 has. -/

namespace Sys2Proof.Machine

/-- A magnitude with at most 53 significant bits. -/
def Rep (r : Nat) : Prop := ∃ m e, m < 2 ^ 53 ∧ r = m * 2 ^ e

/-! ## Rounding to an integer -/

/-- The result is within half of the denominator, and on a tie it is even. -/
theorem roundHalfEven_spec (num : Nat) {den : Nat} (hd : 0 < den) :
    2 * (roundHalfEven num den * den) ≤ 2 * num + den ∧
    2 * num ≤ 2 * (roundHalfEven num den * den) + den ∧
    (2 * num = 2 * (roundHalfEven num den * den) + den → roundHalfEven num den % 2 = 0) ∧
    (2 * (roundHalfEven num den * den) = 2 * num + den → roundHalfEven num den % 2 = 0) := by
  have hqr : num / den * den + num % den = num := by
    rw [Nat.mul_comm]; exact Nat.div_add_mod num den
  have hr : num % den < den := Nat.mod_lt num hd
  have hs : (num / den + 1) * den = num / den * den + den := Nat.succ_mul _ _
  unfold roundHalfEven
  dsimp only
  split_ifs with h1 h2 h3
  · refine ⟨by omega, by omega, fun h => by omega, fun h => by omega⟩
  · rw [hs]; refine ⟨by omega, by omega, fun h => by omega, fun h => by omega⟩
  · exact ⟨by omega, by omega, fun _ => h3, fun _ => h3⟩
  · rw [hs]; exact ⟨by omega, by omega, fun h => by omega, fun _ => by omega⟩

/-- A bound that is an integer multiple of the denominator is a bound of the result. -/
theorem roundHalfEven_le {num den n : Nat} (hd : 0 < den) (h : num ≤ n * den) : roundHalfEven num den ≤ n := by
  have hs := (roundHalfEven_spec num hd).1
  by_contra hc
  have h1 : (n + 1) * den ≤ roundHalfEven num den * den := Nat.mul_le_mul_right den (by omega)
  rw [Nat.succ_mul] at h1
  omega

theorem le_roundHalfEven {num den n : Nat} (hd : 0 < den) (h : n * den ≤ num) : n ≤ roundHalfEven num den := by
  have hs := (roundHalfEven_spec num hd).2.1
  by_contra hc
  have h1 : (roundHalfEven num den + 1) * den ≤ n * den := Nat.mul_le_mul_right den (by omega)
  rw [Nat.succ_mul] at h1
  omega

/-- Equal ratios round alike. -/
theorem roundHalfEven_mul_right (num den : Nat) {k : Nat} (hk : 0 < k) :
    roundHalfEven (num * k) (den * k) = roundHalfEven num den := by
  unfold roundHalfEven
  dsimp only
  rw [Nat.mul_div_mul_right _ _ hk, Nat.mul_mod_mul_right, ← Nat.mul_assoc]
  simp only [Nat.mul_lt_mul_right hk]

/-! ## Rounding to 53 significant bits -/

theorem two_pow_le_of_ulpExp {k : Nat} (h : 0 < F64.ulpExp k) : 2 ^ (52 + F64.ulpExp k) ≤ k := by
  unfold F64.ulpExp at *
  have hk : k ≠ 0 := by rintro rfl; simp [Nat.log2_zero] at h
  have : 52 + (k.log2 - 52) = k.log2 := by omega
  rw [this]
  exact Nat.log2_self_le hk

theorem lt_two_pow_ulpExp (k : Nat) : k < 2 ^ (53 + F64.ulpExp k) := by
  have h := @Nat.lt_log2_self k
  exact h.trans_le (Nat.pow_le_pow_right (by omega) (by unfold F64.ulpExp; omega))

/-- A representable number that is no multiple of the unit in the last place of `k` lies below `k`'s binade. -/
theorem Rep.dvd_or_lt {r : Nat} (hr : Rep r) (e : Nat) : (∃ n, r = n * 2 ^ e) ∨ (0 < e ∧ r < 2 ^ (52 + e)) := by
  obtain ⟨m, e', hm, rfl⟩ := hr
  rcases Nat.lt_or_ge e' e with h | h
  · right
    refine ⟨by omega, ?_⟩
    calc m * 2 ^ e' < 2 ^ 53 * 2 ^ e' := Nat.mul_lt_mul_of_pos_right hm (Nat.two_pow_pos e')
      _ = 2 ^ (53 + e') := (Nat.pow_add ..).symm
      _ ≤ 2 ^ (52 + e) := Nat.pow_le_pow_right (by omega) (by omega)
  · left
    refine ⟨m * 2 ^ (e' - e), ?_⟩
    rw [Nat.mul_assoc, ← Nat.pow_add, Nat.sub_add_cancel h]

/-- Rounding does not pass a representable number above. -/
theorem F64.roundMag_le {num den r : Nat} (hd : 0 < den) (hr : Rep r) (h : num ≤ r * den) :
    F64.roundMag num den ≤ r := by
  unfold F64.roundMag
  dsimp only
  have hpos : 0 < den * 2 ^ F64.ulpExp (num / den) := Nat.mul_pos hd (Nat.two_pow_pos _)
  rcases hr.dvd_or_lt (F64.ulpExp (num / den)) with ⟨n, rfl⟩ | ⟨he, hlt⟩
  · refine Nat.mul_le_mul_right _ (roundHalfEven_le hpos ?_)
    calc num ≤ n * 2 ^ F64.ulpExp (num / den) * den := h
      _ = _ := by rw [Nat.mul_assoc, Nat.mul_comm (2 ^ _) den]
  · have h1 := two_pow_le_of_ulpExp he
    have h2 : num / den ≤ r := Nat.div_le_of_le_mul (by rwa [Nat.mul_comm])
    omega

/-- Rounding does not pass a representable number below. -/
theorem F64.le_roundMag {num den r : Nat} (hd : 0 < den) (hr : Rep r) (h : r * den ≤ num) :
    r ≤ F64.roundMag num den := by
  unfold F64.roundMag
  dsimp only
  have hpos : 0 < den * 2 ^ F64.ulpExp (num / den) := Nat.mul_pos hd (Nat.two_pow_pos _)
  rcases hr.dvd_or_lt (F64.ulpExp (num / den)) with ⟨n, rfl⟩ | ⟨he, hlt⟩
  · refine Nat.mul_le_mul_right _ (le_roundHalfEven hpos ?_)
    calc n * (den * 2 ^ F64.ulpExp (num / den)) = n * 2 ^ F64.ulpExp (num / den) * den := by
          rw [Nat.mul_assoc, Nat.mul_comm (2 ^ _) den]
      _ ≤ num := h
  · have h1 := two_pow_le_of_ulpExp he
    have h2 : 2 ^ 52 ≤ roundHalfEven num (den * 2 ^ F64.ulpExp (num / den)) := by
      refine le_roundHalfEven hpos ?_
      calc 2 ^ 52 * (den * 2 ^ F64.ulpExp (num / den)) = 2 ^ (52 + F64.ulpExp (num / den)) * den := by
            rw [Nat.pow_add, Nat.mul_assoc, Nat.mul_comm (2 ^ F64.ulpExp _) den]
        _ ≤ num / den * den := Nat.mul_le_mul_right _ h1
        _ ≤ num := Nat.div_mul_le_self ..
    calc r ≤ 2 ^ (52 + F64.ulpExp (num / den)) := hlt.le
      _ = 2 ^ 52 * 2 ^ F64.ulpExp (num / den) := Nat.pow_add ..
      _ ≤ _ := Nat.mul_le_mul_right _ h2

/-- What rounding yields has at most 53 significant bits. -/
theorem F64.roundMag_rep (num : Nat) {den : Nat} (hd : 0 < den) : Rep (F64.roundMag num den) := by
  have hpos : 0 < den * 2 ^ F64.ulpExp (num / den) := Nat.mul_pos hd (Nat.two_pow_pos _)
  have hle : roundHalfEven num (den * 2 ^ F64.ulpExp (num / den)) ≤ 2 ^ 53 := by
    refine roundHalfEven_le hpos ?_
    have h1 := lt_two_pow_ulpExp (num / den)
    have h2 : num < 2 ^ (53 + F64.ulpExp (num / den)) * den := (Nat.div_lt_iff_lt_mul hd).mp h1
    calc num ≤ 2 ^ (53 + F64.ulpExp (num / den)) * den := h2.le
      _ = _ := by rw [Nat.pow_add, Nat.mul_assoc, Nat.mul_comm (2 ^ F64.ulpExp _) den]
  unfold F64.roundMag
  dsimp only
  rcases Nat.lt_or_ge (roundHalfEven num (den * 2 ^ F64.ulpExp (num / den))) (2 ^ 53) with h | h
  · exact ⟨_, _, h, rfl⟩
  · have : roundHalfEven num (den * 2 ^ F64.ulpExp (num / den)) = 2 ^ 53 := le_antisymm hle h
    exact ⟨1, 53 + F64.ulpExp (num / den), by norm_num, by rw [this, Nat.one_mul, Nat.pow_add]⟩

/-- A representable ratio is not changed by rounding. -/
theorem F64.roundMag_eq {num den r : Nat} (hd : 0 < den) (hr : Rep r) (h : num = r * den) :
    F64.roundMag num den = r :=
  le_antisymm (F64.roundMag_le hd hr h.le) (F64.le_roundMag hd hr h.ge)

/-- Rounding keeps the order of two ratios. -/
theorem F64.roundMag_mono {num den num' den' : Nat} (hd : 0 < den) (hd' : 0 < den') (h : num * den' ≤ num' * den) :
    F64.roundMag num den ≤ F64.roundMag num' den' := by
  by_contra hc
  push Not at hc
  have hle := F64.roundMag_rep num' hd'
  have hb : ¬ num ≤ F64.roundMag num' den' * den := fun hn => absurd (F64.roundMag_le hd hle hn) (by omega)
  have ht : ¬ F64.roundMag num den * den' ≤ num' :=
    fun hn => absurd (F64.le_roundMag hd' (F64.roundMag_rep num hd) hn) (by omega)
  push Not at hb ht
  -- the two ratios lie strictly between the two results, so their exponents and their roundings agree
  have he : num / den ≤ num' / den' := by
    rw [Nat.le_div_iff_mul_le hd']
    have h1 : num / den * den' * den ≤ num' * den := by
      calc num / den * den' * den = num / den * den * den' := Nat.mul_right_comm ..
        _ ≤ num * den' := Nat.mul_le_mul_right _ (Nat.div_mul_le_self ..)
        _ ≤ num' * den := h
    exact Nat.le_of_mul_le_mul_right h1 hd
  have hee : F64.ulpExp (num / den) ≤ F64.ulpExp (num' / den') := by
    unfold F64.ulpExp
    rcases Nat.eq_zero_or_pos (num / den) with h0 | h0
    · simp [h0, Nat.log2_zero]
    · have : (num / den).log2 ≤ (num' / den').log2 := by
        rw [Nat.le_log2 (by omega)]
        exact (Nat.log2_self_le (by omega)).trans he
      omega
  rcases Nat.lt_or_eq_of_le hee with hlt | heq
  · -- a smaller exponent puts a power of two between the ratios
    have h1 := two_pow_le_of_ulpExp (k := num' / den') (by omega)
    have hrep : Rep (2 ^ (52 + F64.ulpExp (num' / den'))) := ⟨1, _, by norm_num, by rw [Nat.one_mul]⟩
    have h2 : 2 ^ (52 + F64.ulpExp (num' / den')) ≤ F64.roundMag num' den' := by
      refine F64.le_roundMag hd' hrep ?_
      exact (Nat.mul_le_mul_right _ h1).trans (Nat.div_mul_le_self ..)
    have h3 : F64.roundMag num den ≤ 2 ^ (52 + F64.ulpExp (num' / den')) := by
      refine F64.roundMag_le hd hrep ?_
      have h4 := lt_two_pow_ulpExp (num / den)
      have h5 : num < 2 ^ (53 + F64.ulpExp (num / den)) * den := (Nat.div_lt_iff_lt_mul hd).mp h4
      refine h5.le.trans (Nat.mul_le_mul_right _ (Nat.pow_le_pow_right (by omega) (by omega)))
    omega
  · -- the same exponent: rounding to an integer keeps the order
    unfold F64.roundMag at hc
    dsimp only at hc
    rw [heq] at hc
    set e := F64.ulpExp (num' / den') with hedef
    have hE : 0 < 2 ^ e := Nat.two_pow_pos e
    have hc' : roundHalfEven num' (den' * 2 ^ e) < roundHalfEven num (den * 2 ^ e) := by
      by_contra hn
      exact absurd (Nat.mul_le_mul_right (2 ^ e) (Nat.le_of_not_lt hn)) (by omega)
    have s1 := roundHalfEven_spec num (Nat.mul_pos hd hE)
    have s2 := roundHalfEven_spec num' (Nat.mul_pos hd' hE)
    set R := roundHalfEven num (den * 2 ^ e)
    set R' := roundHalfEven num' (den' * 2 ^ e)
    obtain ⟨a1, a2, a3, a4⟩ := s1
    obtain ⟨b1, b2, b3, b4⟩ := s2
    -- cross-multiplied bounds
    have c1 : (2 * R - 1) * (den * 2 ^ e * den') ≤ 2 * num * den' := by
      have : (2 * R - 1) * (den * 2 ^ e) ≤ 2 * num := by
        rw [Nat.sub_mul, Nat.one_mul, Nat.mul_assoc]; omega
      calc (2 * R - 1) * (den * 2 ^ e * den') = (2 * R - 1) * (den * 2 ^ e) * den' := by ring
        _ ≤ _ := Nat.mul_le_mul_right _ this
    have c2 : 2 * num' * den ≤ (2 * R' + 1) * (den * 2 ^ e * den') := by
      have : 2 * num' ≤ (2 * R' + 1) * (den' * 2 ^ e) := by
        rw [Nat.add_mul, Nat.one_mul, Nat.mul_assoc]; omega
      calc 2 * num' * den ≤ (2 * R' + 1) * (den' * 2 ^ e) * den := Nat.mul_le_mul_right _ this
        _ = _ := by ring
    have hP : 0 < den * 2 ^ e * den' := Nat.mul_pos (Nat.mul_pos hd hE) hd'
    have c3 : (2 * R - 1) * (den * 2 ^ e * den') ≤ (2 * R' + 1) * (den * 2 ^ e * den') := by
      refine c1.trans (le_trans ?_ c2)
      calc 2 * num * den' = 2 * (num * den') := by ring
        _ ≤ 2 * (num' * den) := by omega
        _ = _ := by ring
    have c4 : 2 * R - 1 ≤ 2 * R' + 1 := Nat.le_of_mul_le_mul_right c3 hP
    have hR : R = R' + 1 := by omega
    -- so both are ties, and both results even
    have c5 : (2 * R - 1) * (den * 2 ^ e * den') = 2 * num * den' := by
      have hx : 2 * R - 1 = 2 * R' + 1 := by omega
      have : 2 * num * den' ≤ (2 * R - 1) * (den * 2 ^ e * den') := by
        rw [hx]
        refine le_trans ?_ c2
        calc 2 * num * den' = 2 * (num * den') := by ring
          _ ≤ 2 * (num' * den) := by omega
          _ = _ := by ring
      omega
    have t1 : 2 * (R * (den * 2 ^ e)) = 2 * num + den * 2 ^ e := by
      have : (2 * R - 1) * (den * 2 ^ e) * den' = 2 * num * den' := by rw [← c5]; ring
      have h6 := Nat.eq_of_mul_eq_mul_right hd' this
      rw [Nat.sub_mul, Nat.one_mul, Nat.mul_assoc] at h6
      have : den * 2 ^ e ≤ 2 * (R * (den * 2 ^ e)) := by
        have : 1 * (den * 2 ^ e) ≤ R * (den * 2 ^ e) := Nat.mul_le_mul_right _ (by omega)
        omega
      omega
    have c6 : 2 * num' * den = (2 * R' + 1) * (den * 2 ^ e * den') := by
      have hx : 2 * R - 1 = 2 * R' + 1 := by omega
      have : (2 * R' + 1) * (den * 2 ^ e * den') ≤ 2 * num' * den := by
        rw [← hx, c5]
        calc 2 * num * den' = 2 * (num * den') := by ring
          _ ≤ 2 * (num' * den) := by omega
          _ = _ := by ring
      omega
    have t2 : 2 * num' = 2 * (R' * (den' * 2 ^ e)) + den' * 2 ^ e := by
      have : 2 * num' * den = (2 * R' + 1) * (den' * 2 ^ e) * den := by rw [c6]; ring
      have h6 := Nat.eq_of_mul_eq_mul_right hd this
      rw [h6, Nat.add_mul, Nat.one_mul, Nat.mul_assoc]
    have e1 := a4 t1
    have e2 := b3 t2
    omega

/-- Scaling both parts of a ratio does not change what it rounds to. -/
theorem F64.roundMag_mul_right (num den : Nat) {k : Nat} (hk : 0 < k) :
    F64.roundMag (num * k) (den * k) = F64.roundMag num den := by
  unfold F64.roundMag
  dsimp only
  rw [Nat.mul_div_mul_right _ _ hk, Nat.mul_right_comm den k, roundHalfEven_mul_right _ _ hk]

@[simp] theorem F64.roundMag_zero (den : Nat) : F64.roundMag 0 den = 0 := by
  simp [F64.roundMag, roundHalfEven, F64.ulpExp, Nat.log2_zero]

/-! ## The magnitudes binary64 has -/

theorem F64.magOk_iff {r : Nat} : F64.magOk r = true ↔ Rep r ∧ r < F64.beyond := by
  unfold F64.magOk
  rw [Bool.and_eq_true, beq_iff_eq, decide_eq_true_iff]
  refine and_congr_left fun _ => ⟨fun h => ?_, ?_⟩
  · refine ⟨r / 2 ^ F64.ulpExp r, F64.ulpExp r, ?_, ?_⟩
    · rw [Nat.div_lt_iff_lt_mul (Nat.two_pow_pos _), ← Nat.pow_add]
      exact lt_two_pow_ulpExp r
    · exact (Nat.div_mul_cancel (Nat.dvd_of_mod_eq_zero h)).symm
  · rintro hr
    rcases hr.dvd_or_lt (F64.ulpExp r) with ⟨n, hn⟩ | ⟨he, hlt⟩
    · exact Nat.mod_eq_zero_of_dvd ⟨n, by rw [Nat.mul_comm]; exact hn⟩
    · have := two_pow_le_of_ulpExp he
      omega

theorem Rep.of_lt {r : Nat} (h : r < 2 ^ 53) : Rep r := ⟨r, 0, h, by simp⟩

theorem Rep.mul_pow {r : Nat} (h : Rep r) (k : Nat) : Rep (r * 2 ^ k) := by
  obtain ⟨m, e, hm, rfl⟩ := h
  exact ⟨m, e + k, hm, by rw [Nat.pow_add, Nat.mul_assoc]⟩

theorem F64.unitExp_eq : F64.unitExp = 1074 := by rw [F64.unitExp]

theorem F64.unit_eq : F64.unit = 2 ^ F64.unitExp := rfl

theorem F64.beyond_eq : F64.beyond = 2 ^ (1024 + F64.unitExp) := rfl

theorem F64.unit_pos : 0 < F64.unit := Nat.two_pow_pos _

theorem F64.beyond_pos : 0 < F64.beyond := Nat.two_pow_pos _

theorem Rep.mul_unit {n : Nat} (h : n < 2 ^ 53) : Rep (n * F64.unit) := (Rep.of_lt h).mul_pow _

theorem F64.rep_unit : Rep F64.unit := ⟨1, F64.unitExp, by omega, (Nat.one_mul _).symm⟩

/-- An integer below 2^k is finite, for any `k` up to 1024. -/
theorem F64.mul_unit_lt_beyond {n k : Nat} (h : n < 2 ^ k) (hk : k ≤ 1024) : n * F64.unit < F64.beyond := by
  refine (Nat.mul_lt_mul_of_pos_right h F64.unit_pos).trans_le ?_
  rw [F64.unit_eq, ← Nat.pow_add]
  exact Nat.pow_le_pow_right (by omega) (by omega)

theorem F64.unit_lt_beyond : F64.unit < F64.beyond := by
  have := F64.mul_unit_lt_beyond (n := 1) (k := 1) (by omega) (by omega)
  omega

theorem F64.two_pow_le_beyond {k : Nat} (h : k ≤ 2098) : 2 ^ k ≤ F64.beyond :=
  Nat.pow_le_pow_right (by omega) (by rw [F64.unitExp_eq]; omega)

end Sys2Proof.Machine
end

