-- ==== Sys2Proof/Laws/Binary64.lean ====
section
/-! SUPPORT. Encoding and decoding binary64 words, and that every operation yields a binary64 value. -/

namespace Sys2Proof.Machine

/-! ## The fields of a word -/

@[simp] theorem F64.pack_sign (n : Bool) (e : BitVec 11) (f : BitVec 52) : (F64.pack n e f).msb = n := by
  simp only [F64.pack, BitVec.msb_append]
  simp

@[simp] theorem F64.pack_exp (n : Bool) (e : BitVec 11) (f : BitVec 52) : (F64.pack n e f).field 52 11 = e := by
  apply BitVec.eq_of_getLsbD_eq
  intro i hi
  simp only [F64.pack, Word.field, BitVec.getLsbD_extractLsb', BitVec.getLsbD_append, hi, decide_true, Bool.true_and]
  have h1 : ¬ 52 + i < 52 := by omega
  have h2 : 52 + i - 52 = i := by omega
  simp [h1, h2, hi]

@[simp] theorem F64.pack_frac (n : Bool) (e : BitVec 11) (f : BitVec 52) : (F64.pack n e f).field 0 52 = f := by
  apply BitVec.eq_of_getLsbD_eq
  intro i hi
  simp only [F64.pack, Word.field, BitVec.getLsbD_extractLsb', BitVec.getLsbD_append, Nat.zero_add, hi, decide_true,
    Bool.true_and, if_true]

theorem F64.pack_fields (w : Word) : F64.pack w.msb (w.field 52 11) (w.field 0 52) = w := by
  apply BitVec.eq_of_getLsbD_eq
  intro i hi
  simp only [F64.pack, Word.field, BitVec.getLsbD_append, BitVec.getLsbD_extractLsb', BitVec.getLsbD_ofBool]
  by_cases h : i < 52
  · simp [h]
  · by_cases h' : i < 63
    · have h1 : i - 52 < 11 := by omega
      have h2 : 52 + (i - 52) = i := by omega
      simp [h, h1, h2]
    · have : i = 63 := by omega
      subst this
      simp [BitVec.msb_eq_getLsbD_last]

/-! ## Decoding then encoding, encoding then decoding -/

theorem F64.ofBits_pack (n : Bool) (e : BitVec 11) (f : BitVec 52) :
    F64.ofBits (F64.pack n e f) =
      if e.toNat = 2047 then (if f.toNat = 0 then .inf n else .nan)
      else if e.toNat = 0 then .fin n f.toNat
      else .fin n ((2 ^ 52 + f.toNat) * 2 ^ (e.toNat - 1)) := by
  simp [F64.ofBits]

theorem F64.isNaN_nanWord : F64.ofBits F64.nanWord = .nan := by
  unfold F64.nanWord
  rw [F64.ofBits_pack]
  have h : (if Config.nanFraction = 0 then 1#52 else Config.nanFraction).toNat ≠ 0 := by
    split_ifs with h
    · decide
    · exact fun h' => h (BitVec.eq_of_toNat_eq (by simpa using h'))
  rw [if_pos (by decide), if_neg h]

theorem F64.ulpExp_normal {m e : Nat} (h1 : 2 ^ 52 ≤ m) (h2 : m < 2 ^ 53) : F64.ulpExp (m * 2 ^ e) = e := by
  unfold F64.ulpExp
  have h : (m * 2 ^ e).log2 = 52 + e := by
    rw [Nat.log2_eq_iff (by positivity)]
    constructor
    · rw [Nat.pow_add]; exact Nat.mul_le_mul_right _ h1
    · rw [show 52 + e + 1 = 53 + e by omega, Nat.pow_add]; exact Nat.mul_lt_mul_of_pos_right h2 (Nat.two_pow_pos _)
  omega

theorem F64.ofBits_ok (w : Word) : (F64.ofBits w).ok = true := by
  rw [← F64.pack_fields w, F64.ofBits_pack]
  have hf := (w.field 0 52).isLt
  have he := (w.field 52 11).isLt
  split_ifs with h1 h2 h3
  · rfl
  · rfl
  · refine F64.magOk_iff.mpr ⟨Rep.of_lt (by omega), ?_⟩
    calc (w.field 0 52).toNat < 2 ^ 52 := hf
      _ ≤ F64.beyond := F64.two_pow_le_beyond (by omega)
  · refine F64.magOk_iff.mpr ⟨⟨_, _, by omega, rfl⟩, ?_⟩
    calc (2 ^ 52 + (w.field 0 52).toNat) * 2 ^ ((w.field 52 11).toNat - 1)
        < 2 ^ 53 * 2 ^ ((w.field 52 11).toNat - 1) := Nat.mul_lt_mul_of_pos_right (by omega) (Nat.two_pow_pos _)
      _ = 2 ^ (53 + ((w.field 52 11).toNat - 1)) := (Nat.pow_add ..).symm
      _ ≤ F64.beyond := F64.two_pow_le_beyond (by omega)

/-- A word that does not encode a NaN comes back from its value. -/
theorem F64.toBits_ofBits {w : Word} (h : (F64.ofBits w).isNaN = false) : (F64.ofBits w).toBits = w := by
  conv_rhs => rw [← F64.pack_fields w]
  rw [← F64.pack_fields w, F64.ofBits_pack] at h
  conv_lhs => rw [← F64.pack_fields w, F64.ofBits_pack]
  have hf := (w.field 0 52).isLt
  have he := (w.field 52 11).isLt
  split_ifs at h ⊢ with h1 h2 h3
  · have e1 : w.field 52 11 = 2047#11 := BitVec.eq_of_toNat_eq (by simpa using h1)
    have e2 : w.field 0 52 = 0#52 := BitVec.eq_of_toNat_eq (by simpa using h2)
    simp [F64.toBits, e1, e2]
  · simp [F64.isNaN] at h
  · have e1 : w.field 52 11 = 0#11 := BitVec.eq_of_toNat_eq (by simpa using h3)
    simp [F64.toBits, hf, e1]
  · set e := (w.field 52 11).toNat - 1
    have hu : F64.ulpExp ((2 ^ 52 + (w.field 0 52).toNat) * 2 ^ e) = e := F64.ulpExp_normal (by omega) (by omega)
    have hge : ¬ (2 ^ 52 + (w.field 0 52).toNat) * 2 ^ e < 2 ^ 52 := by
      have : 1 * 2 ^ 52 ≤ 2 ^ e * (2 ^ 52 + (w.field 0 52).toNat) :=
        Nat.mul_le_mul (Nat.one_le_two_pow) (by omega)
      rw [Nat.mul_comm]; omega
    have hee : e + 1 = (w.field 52 11).toNat := by omega
    simp only [F64.toBits]
    rw [if_neg hge, hu, Nat.mul_div_cancel _ (Nat.two_pow_pos e), hee, Nat.add_sub_cancel_left]
    simp

/-- A binary64 value that is not a NaN comes back from its word. -/
theorem F64.ofBits_toBits {v : F64} (hok : v.ok = true) (hn : v.isNaN = false) : F64.ofBits v.toBits = v := by
  cases v with
  | nan => simp [F64.isNaN] at hn
  | inf n => simp [F64.toBits, F64.ofBits_pack]
  | fin n m =>
    obtain ⟨hrep, hlt⟩ := F64.magOk_iff.mp hok
    simp only [F64.toBits]
    split_ifs with h
    · rw [F64.ofBits_pack]
      simpa using h
    · have hm0 : m ≠ 0 := by rintro rfl; exact h (by norm_num)
      have hlog : m.log2 < 1024 + F64.unitExp := (Nat.log2_lt hm0).mpr hlt
      rw [F64.unitExp_eq] at hlog
      have hlog' : 52 ≤ m.log2 := (Nat.le_log2 hm0).mpr (by omega)
      have hu : F64.ulpExp m ≤ 2045 := by unfold F64.ulpExp; omega
      have hdvd : m / 2 ^ F64.ulpExp m * 2 ^ F64.ulpExp m = m := by
        refine Nat.div_mul_cancel (Nat.dvd_of_mod_eq_zero ?_)
        unfold F64.ok F64.magOk at hok
        rw [Bool.and_eq_true, beq_iff_eq] at hok
        exact hok.1
      have h1 : 2 ^ 52 ≤ m / 2 ^ F64.ulpExp m := by
        rw [Nat.le_div_iff_mul_le (Nat.two_pow_pos _), ← Nat.pow_add]
        have : 52 + F64.ulpExp m = m.log2 := by unfold F64.ulpExp; omega
        rw [this]; exact Nat.log2_self_le hm0
      have h2 : m / 2 ^ F64.ulpExp m < 2 ^ 53 := by
        rw [Nat.div_lt_iff_lt_mul (Nat.two_pow_pos _), ← Nat.pow_add]
        exact lt_two_pow_ulpExp m
      have e1 : (BitVec.ofNat 11 (F64.ulpExp m + 1)).toNat = F64.ulpExp m + 1 := by
        rw [BitVec.toNat_ofNat]; exact Nat.mod_eq_of_lt (by omega)
      have e2 : (BitVec.ofNat 52 (m / 2 ^ F64.ulpExp m - 2 ^ 52)).toNat = m / 2 ^ F64.ulpExp m - 2 ^ 52 := by
        rw [BitVec.toNat_ofNat]; exact Nat.mod_eq_of_lt (by omega)
      rw [F64.ofBits_pack, e1, e2, if_neg (by omega), if_neg (by omega), Nat.add_sub_cancel,
        Nat.add_sub_cancel' h1, hdvd]

/-! ## Rounding is to nearest -/

/-- Of the integer multiples of the denominator, the one rounding picks is nearest. -/
theorem roundHalfEven_nearest (num : Nat) {den : Nat} (hd : 0 < den) (k : Nat) :
    ((num : Int) - roundHalfEven num den * den).natAbs ≤ ((num : Int) - k * den).natAbs ∧
    (((num : Int) - roundHalfEven num den * den).natAbs = ((num : Int) - k * den).natAbs →
      k ≠ roundHalfEven num den → roundHalfEven num den % 2 = 0) := by
  obtain ⟨h1, h2, h3, h4⟩ := roundHalfEven_spec num hd
  generalize roundHalfEven num den = n at *
  zify at h1 h2 h3 h4
  have ht : 2 * ((num : Int) - n * den).natAbs ≤ den := by omega
  rcases lt_trichotomy k n with h | rfl | h
  · have h5 : (k * den : Int) + den ≤ n * den := by
      have : ((k + 1) * den : Int) ≤ n * den := by
        apply mul_le_mul_of_nonneg_right <;> omega
      linarith
    refine ⟨by omega, fun he _ => ?_⟩
    have : (n : Int) % 2 = 0 := h4 (by omega)
    omega
  · exact ⟨le_rfl, fun _ h => absurd rfl h⟩
  · have h5 : (n * den : Int) + den ≤ k * den := by
      have : ((n + 1) * den : Int) ≤ k * den := by
        apply mul_le_mul_of_nonneg_right <;> omega
      linarith
    refine ⟨by omega, fun he _ => ?_⟩
    have : (n : Int) % 2 = 0 := h3 (by omega)
    omega

/-- Rounding picks a nearest number of 53 significant bits; where another is as near, its own significand is even. -/
theorem F64.roundMag_nearest {num den x : Nat} (hd : 0 < den) (hx : Rep x) :
    ((num : Int) - F64.roundMag num den * den).natAbs ≤ ((num : Int) - x * den).natAbs ∧
    (((num : Int) - F64.roundMag num den * den).natAbs = ((num : Int) - x * den).natAbs →
      x ≠ F64.roundMag num den →
      F64.roundMag num den / 2 ^ F64.ulpExp (F64.roundMag num den) % 2 = 0) := by
  have hw := lt_two_pow_ulpExp (num / den)
  have hlow := @two_pow_le_of_ulpExp (num / den)
  unfold F64.roundMag
  dsimp only
  generalize F64.ulpExp (num / den) = e at *
  have hE : 0 < 2 ^ e := Nat.two_pow_pos e
  have hD : 0 < den * 2 ^ e := Nat.mul_pos hd hE
  have hcast : ∀ k : Nat, ((k * 2 ^ e : Nat) : Int) * den = k * ((den * 2 ^ e : Nat) : Int) := by
    intro k; push_cast; ring
  have hnum : num < 2 ^ (53 + e) * den := (Nat.div_lt_iff_lt_mul hd).mp hw
  have hhi : roundHalfEven num (den * 2 ^ e) ≤ 2 ^ 53 := by
    refine roundHalfEven_le hD (hnum.le.trans (le_of_eq ?_))
    rw [Nat.pow_add]; ring
  have hlo : 0 < e → 2 ^ 52 ≤ roundHalfEven num (den * 2 ^ e) := by
    intro he
    refine le_roundHalfEven hD ?_
    calc 2 ^ 52 * (den * 2 ^ e) = 2 ^ (52 + e) * den := by rw [Nat.pow_add]; ring
      _ ≤ num / den * den := Nat.mul_le_mul_right _ (hlow he)
      _ ≤ num := Nat.div_mul_le_self ..
  have heven : roundHalfEven num (den * 2 ^ e) % 2 = 0 →
      roundHalfEven num (den * 2 ^ e) * 2 ^ e / 2 ^ F64.ulpExp (roundHalfEven num (den * 2 ^ e) * 2 ^ e) % 2 = 0 := by
    intro h
    generalize roundHalfEven num (den * 2 ^ e) = n at *
    rcases Nat.lt_or_eq_of_le hhi with h53 | rfl
    · have hu : F64.ulpExp (n * 2 ^ e) = e := by
        rcases Nat.lt_or_ge n (2 ^ 52) with h52 | h52
        · have : e = 0 := by by_contra hc; have := hlo (by omega); omega
          subst this
          have : n.log2 < 52 ∨ n = 0 := by
            rcases Nat.eq_zero_or_pos n with h0 | h0
            · exact .inr h0
            · exact .inl ((Nat.log2_lt (by omega)).mpr h52)
          unfold F64.ulpExp
          rcases this with h0 | rfl
          · simp only [pow_zero, mul_one]; omega
          · simp [Nat.log2_zero]
        · exact F64.ulpExp_normal h52 h53
      rw [hu, Nat.mul_div_cancel _ hE]
      exact h
    · have h2 : 2 ^ 53 * 2 ^ e = 2 ^ 52 * 2 ^ (e + 1) := by rw [Nat.pow_succ]; ring
      rw [h2, F64.ulpExp_normal le_rfl (by norm_num), Nat.mul_div_cancel _ (Nat.two_pow_pos _)]
      norm_num
  have hgrid := fun k => roundHalfEven_nearest num hD k
  rcases hx.dvd_or_lt e with ⟨k, rfl⟩ | ⟨he, hlt⟩
  · rw [hcast, hcast]
    refine ⟨(hgrid k).1, fun h1 h2 => heven ((hgrid k).2 h1 fun hk => h2 (by rw [hk]))⟩
  · have hg := (hgrid (2 ^ 52)).1
    have h1 : 2 ^ (52 + e) * den ≤ num :=
      (Nat.mul_le_mul_right _ (hlow he)).trans (Nat.div_mul_le_self ..)
    have h2 : x * den < 2 ^ (52 + e) * den := Nat.mul_lt_mul_of_pos_right hlt hd
    have h3 : ((2 ^ 52 : Nat) : Int) * ((den * 2 ^ e : Nat) : Int) = ((2 ^ (52 + e) * den : Nat) : Int) := by
      rw [Nat.pow_add]; push_cast; ring
    rw [h3] at hg
    rw [hcast]
    have h4 : (x : Int) * den = ((x * den : Nat) : Int) := by push_cast; rfl
    rw [h4]
    generalize 2 ^ (52 + e) * den = g at *
    generalize x * den = y at *
    constructor
    · omega
    · intro h5; omega

/-- Where rounding reaches a power of two: from half a unit in the last place below it on. -/
theorem F64.roundMag_lt_two_pow {num den : Nat} (hd : 0 < den) (k : Nat) :
    F64.roundMag num den < 2 ^ (k + 54) ↔ num < (2 ^ 54 - 1) * 2 ^ k * den := by
  have hp : 0 < 2 ^ k := Nat.two_pow_pos _
  have hB : 2 ^ (k + 54) = 2 ^ 53 * 2 ^ (k + 1) := by rw [← Nat.pow_add, show 53 + (k + 1) = k + 54 by omega]
  have hM : 2 ^ (k + 53) = 2 ^ 52 * 2 ^ (k + 1) := by rw [← Nat.pow_add, show 52 + (k + 1) = k + 53 by omega]
  have hP : 2 ^ (k + 1) = 2 * 2 ^ k := by rw [Nat.pow_succ, Nat.mul_comm]
  have hrep : ∀ j, Rep (2 ^ j) := fun j => ⟨1, j, by norm_num, (Nat.one_mul _).symm⟩
  rcases Nat.lt_or_ge num (2 ^ (k + 53) * den) with hsm | hbig
  · have h1 := F64.roundMag_le hd (hrep _) hsm.le
    have h2 : 2 ^ (k + 53) < 2 ^ (k + 54) := Nat.pow_lt_pow_right (by omega) (by omega)
    refine ⟨fun _ => hsm.trans_le (Nat.mul_le_mul_right _ ?_), fun _ => h1.trans_lt h2⟩
    rw [hM, hP]
    generalize 2 ^ k = P
    omega
  · rcases Nat.lt_or_ge num (2 ^ (k + 54) * den) with hlt | hge
    · have he : F64.ulpExp (num / den) = k + 1 := by
        have h1 : 2 ^ (k + 53) ≤ num / den := (Nat.le_div_iff_mul_le hd).mpr hbig
        have h2 : num / den < 2 ^ (k + 54) := (Nat.div_lt_iff_lt_mul hd).mpr hlt
        have h3 : 0 < 2 ^ (k + 53) := Nat.two_pow_pos _
        have : (num / den).log2 = k + 53 := (Nat.log2_eq_iff (by omega)).mpr ⟨h1, h2⟩
        unfold F64.ulpExp
        omega
      have hD : 0 < den * 2 ^ (k + 1) := Nat.mul_pos hd (Nat.two_pow_pos _)
      obtain ⟨-, -, s3, s4⟩ := roundHalfEven_spec num hD
      obtain ⟨s1, s2, -, -⟩ := roundHalfEven_spec num hD
      unfold F64.roundMag
      dsimp only
      rw [he, hB, Nat.mul_lt_mul_right (Nat.two_pow_pos _)]
      have hX : (2 ^ 54 - 1) * 2 ^ k * den * 2 = 18014398509481983 * (den * 2 ^ (k + 1)) := by
        rw [hP, show 2 ^ 54 - 1 = 18014398509481983 by norm_num]; ring
      rw [show 2 ^ 53 = 9007199254740992 by norm_num]
      clear hB hM hP hrep hbig hlt he
      generalize roundHalfEven num (den * 2 ^ (k + 1)) = n at *
      generalize den * 2 ^ (k + 1) = D at *
      generalize (2 ^ 54 - 1) * 2 ^ k * den = X at *
      constructor
      · intro hn
        have h1 : n * D ≤ 9007199254740991 * D := Nat.mul_le_mul_right D (Nat.le_of_lt_succ hn)
        by_contra hc
        have h6 := s3 (by linarith)
        have h7 : n ≤ 9007199254740990 := by clear hX h1 s2 s1 s3 s4; omega
        have h8 : n * D ≤ 9007199254740990 * D := Nat.mul_le_mul_right D h7
        linarith
      · intro hn
        by_contra hc
        have h1 : 9007199254740992 * D ≤ n * D := Nat.mul_le_mul_right D (Nat.le_of_not_lt hc)
        linarith
    · have h1 := F64.le_roundMag hd (hrep _) hge
      refine ⟨fun h => absurd h (by omega), fun h => absurd (h.trans_le ?_) (Nat.not_lt.mpr hge)⟩
      refine Nat.mul_le_mul_right _ ?_
      rw [hB, hP]
      generalize 2 ^ k = P
      omega

/-- Where rounding leaves the finite magnitudes: from half a unit in the last place below 2^1024 on. -/
theorem F64.roundMag_lt_beyond {num den : Nat} (hd : 0 < den) :
    F64.roundMag num den < F64.beyond ↔ num < (2 ^ 54 - 1) * 2 ^ (970 + F64.unitExp) * den := by
  rw [← F64.roundMag_lt_two_pow hd, F64.beyond_eq, Nat.add_right_comm]

/-! ## Every operation yields a binary64 value -/

theorem F64.ofMag_ok {n : Bool} {m : Nat} (h : Rep m) : (F64.ofMag n m).ok = true := by
  unfold F64.ofMag
  split_ifs with hb
  · exact F64.magOk_iff.mpr ⟨h, hb⟩
  · rfl

theorem F64.round_ok (n : Bool) (num : Nat) {den : Nat} (hd : 0 < den) : (F64.round n num den).ok = true :=
  F64.ofMag_ok (F64.roundMag_rep num hd)

@[simp] theorem F64.round_isNaN (n : Bool) (num den : Nat) : (F64.round n num den).isNaN = false := by
  unfold F64.round F64.ofMag; split_ifs <;> rfl

@[simp] theorem F64.zero_ok (n : Bool) : (F64.fin n 0).ok = true := by
  exact F64.magOk_iff.mpr ⟨Rep.of_lt (by norm_num), F64.beyond_pos⟩

@[simp] theorem F64.one_ok : F64.one.ok = true := F64.magOk_iff.mpr ⟨F64.rep_unit, F64.unit_lt_beyond⟩

@[simp] theorem F64.neg_ok (v : F64) : v.neg.ok = v.ok := by cases v <;> rfl

theorem F64.add_ok (a b : F64) : (a.add b).ok = true := by
  cases a <;> cases b <;> simp only [F64.add] <;> first | rfl | skip
  · split_ifs <;> rfl
  · split_ifs
    · exact F64.zero_ok _
    · exact F64.round_ok _ _ (by omega)

theorem F64.sub_ok (a b : F64) : (a.sub b).ok = true := F64.add_ok _ _

theorem F64.mul_ok (a b : F64) : (a.mul b).ok = true := by
  cases a <;> cases b <;> simp only [F64.mul] <;> first | rfl | skip
  · split_ifs <;> rfl
  · split_ifs <;> rfl
  · exact F64.round_ok _ _ F64.unit_pos

theorem F64.div_ok (a b : F64) : (a.div b).ok = true := by
  cases a <;> cases b <;> simp only [F64.div] <;> first | rfl | exact F64.zero_ok _ | skip
  split_ifs with h
  · rfl
  · rfl
  · exact F64.round_ok _ _ (Nat.pos_of_ne_zero h)

theorem F64.ofInt_ok (i : Int) : (F64.ofInt i).ok = true := F64.round_ok _ _ (by omega)

/-- An integer below 2^53 has an exact value (00_scope.md R10). -/
theorem F64.ofInt_eq {i : Int} (h : i.natAbs < 2 ^ 53) :
    F64.ofInt i = .fin (decide (i < 0)) (i.natAbs * F64.unit) := by
  unfold F64.ofInt F64.round F64.ofMag
  rw [F64.roundMag_eq (by omega) (Rep.mul_unit h) (Nat.mul_one _).symm, if_pos]
  exact F64.mul_unit_lt_beyond h (by omega)

theorem F64.ofNat_eq {n : Nat} (h : n < 2 ^ 53) : F64.ofNat n = .fin false (n * F64.unit) := by
  unfold F64.ofNat
  rw [F64.ofInt_eq (by simpa using h)]
  simp

theorem F64.roundInt_ok (tie : RoundTie) {v : F64} (h : v.ok = true) : (v.roundInt tie).ok = true := by
  cases v with
  | nan => rfl
  | inf n => rfl
  | fin n m =>
    obtain ⟨hrep, hlt⟩ := F64.magOk_iff.mp h
    simp only [F64.roundInt]
    rcases hrep.dvd_or_lt F64.unitExp with ⟨k, hk⟩ | ⟨_, hs⟩
    · have hk' : m = k * F64.unit := hk
      have hr : m % F64.unit = 0 := by rw [hk']; exact Nat.mul_mod_left ..
      have hup : roundsUp tie n (m / F64.unit) (m % F64.unit) = false := by
        rw [hr]; unfold roundsUp; rw [if_pos (by simpa using F64.unit_pos)]
      rw [hup, if_neg (by simp), hk', Nat.mul_div_cancel _ F64.unit_pos, ← hk']
      exact F64.magOk_iff.mpr ⟨hrep, hlt⟩
    · have hq : m / F64.unit < 2 ^ 52 := by
        rw [Nat.div_lt_iff_lt_mul F64.unit_pos, F64.unit_eq, ← Nat.pow_add]; exact hs
      refine F64.magOk_iff.mpr ⟨Rep.mul_unit ?_, F64.mul_unit_lt_beyond (k := 53) ?_ (by omega)⟩ <;> split_ifs <;> omega

end Sys2Proof.Machine
end

