-- ==== Sys2Proof/Laws/Decode.lean ====
section
/-! SUPPORT. The fields of the command word an encoding starts with. -/

namespace Sys2Proof

@[simp] theorem opcOf_cmdWord (o a : Byte) : opcOf (cmdWord o a) = o := by
  apply BitVec.eq_of_getLsbD_eq
  intro i hi
  simp only [opcOf, cmdWord, Word.field, BitVec.getLsbD_extractLsb', BitVec.getLsbD_append, Nat.zero_add, hi,
    decide_true, Bool.true_and, if_true]

@[simp] theorem argOf_cmdWord (o a : Byte) : argOf (cmdWord o a) = a := by
  apply BitVec.eq_of_getLsbD_eq
  intro i hi
  have h1 : ¬ 8 + i < 8 := by omega
  have h2 : 8 + i - 8 = i := by omega
  simp only [argOf, cmdWord, Word.field, BitVec.getLsbD_extractLsb', BitVec.getLsbD_append, hi, h1, h2, decide_true,
    Bool.true_and, if_true, if_false]

@[simp] theorem rsvOf_cmdWord (o a : Byte) : rsvOf (cmdWord o a) = 0 := by
  apply BitVec.eq_of_getLsbD_eq
  intro i hi
  have h1 : ¬ 16 + i < 8 := by omega
  have h2 : ¬ 16 + i - 8 < 8 := by omega
  simp only [rsvOf, cmdWord, Word.field, BitVec.getLsbD_extractLsb', BitVec.getLsbD_append, h1, h2, if_false]
  simp

/-- A word with `RSV` zero is the command word of its own fields. -/
theorem cmdWord_fields {w : Word} (h : rsvOf w = 0) : cmdWord (opcOf w) (argOf w) = w := by
  apply BitVec.eq_of_getLsbD_eq
  intro i hi
  have hz : ∀ j, j < 48 → w.getLsbD (16 + j) = false := by
    intro j hj
    have := congrArg (fun v => v.getLsbD j) h
    simpa [rsvOf, Word.field, BitVec.getLsbD_extractLsb', hj] using this
  simp only [cmdWord, opcOf, argOf, Word.field, BitVec.getLsbD_append, BitVec.getLsbD_extractLsb']
  by_cases h8 : i < 8
  · simp [h8]
  · by_cases h16 : i - 8 < 8
    · have : 8 + (i - 8) = i := by omega
      simp [h8, h16, this]
    · have h1 := hz (i - 16) (by omega)
      rw [show 16 + (i - 16) = i by omega] at h1
      simp [h8, h16, h1]

theorem encode_length (i : Instr) : (encode i).length = 1 + i.operands.length := by
  simp [encode, Nat.add_comm]

/-- A command word waits for its operand words, legal or not (20_memory.md R61). -/
theorem decode_short {w : Word} {ops : List Word} (h : ops.length < nops (opcOf w)) :
    decode (w :: ops) = .incomplete := by simp [decode, h]

/-- What an illegal command word is, once its operand words are there. -/
theorem decode_of_illegal {w : Word} {ops : List Word} {c : Machine.FaultCode} (hi : illegal w = some c)
    (h : nops (opcOf w) ≤ ops.length) : decode (w :: ops) = .illegal c w := by
  simp [decode, hi, Nat.not_lt.2 h]

/-- The fault of an illegal command is that of its first word, its operand words following. -/
theorem decode_illegal {ws : List Word} {c : Machine.FaultCode} {w : Word} (h : decode ws = .illegal c w) :
    ∃ r, ws = w :: r ∧ illegal w = some c ∧ nops (opcOf w) ≤ r.length := by
  cases ws with
  | nil => simp [decode] at h
  | cons w ops =>
    simp only [decode] at h
    split_ifs at h with hl
    split at h
    · next hi => cases h; exact ⟨ops, rfl, hi, Nat.not_lt.1 hl⟩
    · split at h <;> cases h

/-- A command is read from its command word and its operand words. -/
theorem decode_command_length {ws rest : List Word} {i : Instr} (h : decode ws = .command i rest) :
    1 + i.operands.length ≤ ws.length := by
  cases ws with
  | nil => simp [decode] at h
  | cons w ops =>
    simp only [decode] at h
    split_ifs at h
    split at h
    · cases h
    · split at h
      · next j hj =>
        cases h
        unfold assemble at hj
        split at hj <;> cases hj <;> simp [Instr.operands]
      · cases h

/-- The words after a command are those that follow its words. -/
theorem decode_command_rest {ws rest : List Word} {i : Instr} (h : decode ws = .command i rest) :
    rest = ws.drop (1 + i.operands.length) := by
  cases ws with
  | nil => simp [decode] at h
  | cons w ops =>
    simp only [decode] at h
    split_ifs at h
    split at h
    · cases h
    · split at h
      · next j hj =>
        cases h
        unfold assemble at hj
        split at hj <;> cases hj <;> simp_all [Instr.operands, nops, Nat.add_comm]
      · cases h

/-- The command word of a command is legal. -/
theorem decode_command_legal {w : Word} {ws rest : List Word} {i : Instr} (h : decode (w :: ws) = .command i rest) :
    illegal w = none := by
  simp only [decode] at h
  split_ifs at h
  split at h
  · cases h
  · assumption

end Sys2Proof
end

