-- ==== Sys2Proof/Laws/State.lean ====
section
/-! SUPPORT. One lemma per field per update of the state, so that no proof unfolds an update. -/

namespace Sys2Proof.Machine

/-! ## `emit` -/

@[simp] theorem State.emit_bitdepth (s : State) (w : Word) : (s.emit w).bitdepth = s.bitdepth := rfl
@[simp] theorem State.emit_srrFactor (s : State) (w : Word) : (s.emit w).srrFactor = s.srrFactor := rfl
@[simp] theorem State.emit_mix (s : State) (w : Word) : (s.emit w).mix = s.mix := rfl
@[simp] theorem State.emit_lpfEn (s : State) (w : Word) : (s.emit w).lpfEn = s.lpfEn := rfl
@[simp] theorem State.emit_lpfCutoff (s : State) (w : Word) : (s.emit w).lpfCutoff = s.lpfCutoff := rfl
@[simp] theorem State.emit_clipEn (s : State) (w : Word) : (s.emit w).clipEn = s.clipEn := rfl
@[simp] theorem State.emit_clipThresh (s : State) (w : Word) : (s.emit w).clipThresh = s.clipThresh := rfl
@[simp] theorem State.emit_downmixEn (s : State) (w : Word) : (s.emit w).downmixEn = s.downmixEn := rfl
@[simp] theorem State.emit_sr (s : State) (w : Word) : (s.emit w).sr = s.sr := rfl
@[simp] theorem State.emit_steps (s : State) (w : Word) : (s.emit w).steps = s.steps := rfl
@[simp] theorem State.emit_alpha (s : State) (w : Word) : (s.emit w).alpha = s.alpha := rfl
@[simp] theorem State.emit_fmt (s : State) (w : Word) : (s.emit w).fmt = s.fmt := rfl
@[simp] theorem State.emit_mode (s : State) (w : Word) : (s.emit w).mode = s.mode := rfl
@[simp] theorem State.emit_phase (s : State) (w : Word) : (s.emit w).phase = s.phase := rfl
@[simp] theorem State.emit_filtL (s : State) (w : Word) : (s.emit w).filtL = s.filtL := rfl
@[simp] theorem State.emit_filtR (s : State) (w : Word) : (s.emit w).filtR = s.filtR := rfl
@[simp] theorem State.emit_holdL (s : State) (w : Word) : (s.emit w).holdL = s.holdL := rfl
@[simp] theorem State.emit_holdR (s : State) (w : Word) : (s.emit w).holdR = s.holdR := rfl
@[simp] theorem State.emit_faultCode (s : State) (w : Word) : (s.emit w).faultCode = s.faultCode := rfl
@[simp] theorem State.emit_faultOpc (s : State) (w : Word) : (s.emit w).faultOpc = s.faultOpc := rfl
@[simp] theorem State.emit_faultArg (s : State) (w : Word) : (s.emit w).faultArg = s.faultArg := rfl
@[simp] theorem State.emit_hostInput (s : State) (w : Word) : (s.emit w).hostInput = s.hostInput := rfl
@[simp] theorem State.emit_results (s : State) (w : Word) : (s.emit w).results = s.results ++ [w] := rfl
@[simp] theorem State.emit_taken (s : State) (w : Word) : (s.emit w).taken = s.taken := rfl

/-! ## `consume` -/

@[simp] theorem State.consume_bitdepth (s : State) (n : Nat) : (s.consume n).bitdepth = s.bitdepth := rfl
@[simp] theorem State.consume_srrFactor (s : State) (n : Nat) : (s.consume n).srrFactor = s.srrFactor := rfl
@[simp] theorem State.consume_mix (s : State) (n : Nat) : (s.consume n).mix = s.mix := rfl
@[simp] theorem State.consume_lpfEn (s : State) (n : Nat) : (s.consume n).lpfEn = s.lpfEn := rfl
@[simp] theorem State.consume_lpfCutoff (s : State) (n : Nat) : (s.consume n).lpfCutoff = s.lpfCutoff := rfl
@[simp] theorem State.consume_clipEn (s : State) (n : Nat) : (s.consume n).clipEn = s.clipEn := rfl
@[simp] theorem State.consume_clipThresh (s : State) (n : Nat) : (s.consume n).clipThresh = s.clipThresh := rfl
@[simp] theorem State.consume_downmixEn (s : State) (n : Nat) : (s.consume n).downmixEn = s.downmixEn := rfl
@[simp] theorem State.consume_sr (s : State) (n : Nat) : (s.consume n).sr = s.sr := rfl
@[simp] theorem State.consume_steps (s : State) (n : Nat) : (s.consume n).steps = s.steps := rfl
@[simp] theorem State.consume_alpha (s : State) (n : Nat) : (s.consume n).alpha = s.alpha := rfl
@[simp] theorem State.consume_fmt (s : State) (n : Nat) : (s.consume n).fmt = s.fmt := rfl
@[simp] theorem State.consume_mode (s : State) (n : Nat) : (s.consume n).mode = s.mode := rfl
@[simp] theorem State.consume_phase (s : State) (n : Nat) : (s.consume n).phase = s.phase := rfl
@[simp] theorem State.consume_filtL (s : State) (n : Nat) : (s.consume n).filtL = s.filtL := rfl
@[simp] theorem State.consume_filtR (s : State) (n : Nat) : (s.consume n).filtR = s.filtR := rfl
@[simp] theorem State.consume_holdL (s : State) (n : Nat) : (s.consume n).holdL = s.holdL := rfl
@[simp] theorem State.consume_holdR (s : State) (n : Nat) : (s.consume n).holdR = s.holdR := rfl
@[simp] theorem State.consume_faultCode (s : State) (n : Nat) : (s.consume n).faultCode = s.faultCode := rfl
@[simp] theorem State.consume_faultOpc (s : State) (n : Nat) : (s.consume n).faultOpc = s.faultOpc := rfl
@[simp] theorem State.consume_faultArg (s : State) (n : Nat) : (s.consume n).faultArg = s.faultArg := rfl
@[simp] theorem State.consume_hostInput (s : State) (n : Nat) : (s.consume n).hostInput = s.hostInput.drop n := rfl
@[simp] theorem State.consume_results (s : State) (n : Nat) : (s.consume n).results = s.results := rfl
@[simp] theorem State.consume_taken (s : State) (n : Nat) : (s.consume n).taken = s.taken := rfl

/-! ## `takeResult`: only `results` and `taken` change -/

@[simp] theorem State.takeResult_bitdepth (s : State) : (s.takeResult).bitdepth = s.bitdepth :=
  by
  unfold State.takeResult; split <;> rfl
@[simp] theorem State.takeResult_srrFactor (s : State) : (s.takeResult).srrFactor = s.srrFactor :=
  by
  unfold State.takeResult; split <;> rfl
@[simp] theorem State.takeResult_mix (s : State) : (s.takeResult).mix = s.mix :=
  by
  unfold State.takeResult; split <;> rfl
@[simp] theorem State.takeResult_lpfEn (s : State) : (s.takeResult).lpfEn = s.lpfEn :=
  by
  unfold State.takeResult; split <;> rfl
@[simp] theorem State.takeResult_lpfCutoff (s : State) : (s.takeResult).lpfCutoff = s.lpfCutoff :=
  by
  unfold State.takeResult; split <;> rfl
@[simp] theorem State.takeResult_clipEn (s : State) : (s.takeResult).clipEn = s.clipEn :=
  by
  unfold State.takeResult; split <;> rfl
@[simp] theorem State.takeResult_clipThresh (s : State) : (s.takeResult).clipThresh = s.clipThresh :=
  by
  unfold State.takeResult; split <;> rfl
@[simp] theorem State.takeResult_downmixEn (s : State) : (s.takeResult).downmixEn = s.downmixEn :=
  by
  unfold State.takeResult; split <;> rfl
@[simp] theorem State.takeResult_sr (s : State) : (s.takeResult).sr = s.sr :=
  by
  unfold State.takeResult; split <;> rfl
@[simp] theorem State.takeResult_steps (s : State) : (s.takeResult).steps = s.steps :=
  by
  unfold State.takeResult; split <;> rfl
@[simp] theorem State.takeResult_alpha (s : State) : (s.takeResult).alpha = s.alpha :=
  by
  unfold State.takeResult; split <;> rfl
@[simp] theorem State.takeResult_fmt (s : State) : (s.takeResult).fmt = s.fmt :=
  by
  unfold State.takeResult; split <;> rfl
@[simp] theorem State.takeResult_mode (s : State) : (s.takeResult).mode = s.mode :=
  by
  unfold State.takeResult; split <;> rfl
@[simp] theorem State.takeResult_phase (s : State) : (s.takeResult).phase = s.phase :=
  by
  unfold State.takeResult; split <;> rfl
@[simp] theorem State.takeResult_filtL (s : State) : (s.takeResult).filtL = s.filtL :=
  by
  unfold State.takeResult; split <;> rfl
@[simp] theorem State.takeResult_filtR (s : State) : (s.takeResult).filtR = s.filtR :=
  by
  unfold State.takeResult; split <;> rfl
@[simp] theorem State.takeResult_holdL (s : State) : (s.takeResult).holdL = s.holdL :=
  by
  unfold State.takeResult; split <;> rfl
@[simp] theorem State.takeResult_holdR (s : State) : (s.takeResult).holdR = s.holdR :=
  by
  unfold State.takeResult; split <;> rfl
@[simp] theorem State.takeResult_faultCode (s : State) : (s.takeResult).faultCode = s.faultCode :=
  by
  unfold State.takeResult; split <;> rfl
@[simp] theorem State.takeResult_faultOpc (s : State) : (s.takeResult).faultOpc = s.faultOpc :=
  by
  unfold State.takeResult; split <;> rfl
@[simp] theorem State.takeResult_faultArg (s : State) : (s.takeResult).faultArg = s.faultArg :=
  by
  unfold State.takeResult; split <;> rfl
@[simp] theorem State.takeResult_hostInput (s : State) : (s.takeResult).hostInput = s.hostInput :=
  by
  unfold State.takeResult; split <;> rfl
@[simp] theorem State.takeResult_delivered (s : State) :
    s.takeResult.taken ++ s.takeResult.results = s.taken ++ s.results := by
  unfold State.takeResult; split <;> simp [*]

/-! ## `takeFault`: only the fault record and `MODE` change -/

@[simp] theorem State.takeFault_bitdepth (s : State) (c : FaultCode) (o a : Byte) : (s.takeFault c o a).bitdepth = s.bitdepth :=
  by
  unfold State.takeFault; split <;> rfl
@[simp] theorem State.takeFault_srrFactor (s : State) (c : FaultCode) (o a : Byte) : (s.takeFault c o a).srrFactor = s.srrFactor :=
  by
  unfold State.takeFault; split <;> rfl
@[simp] theorem State.takeFault_mix (s : State) (c : FaultCode) (o a : Byte) : (s.takeFault c o a).mix = s.mix :=
  by
  unfold State.takeFault; split <;> rfl
@[simp] theorem State.takeFault_lpfEn (s : State) (c : FaultCode) (o a : Byte) : (s.takeFault c o a).lpfEn = s.lpfEn :=
  by
  unfold State.takeFault; split <;> rfl
@[simp] theorem State.takeFault_lpfCutoff (s : State) (c : FaultCode) (o a : Byte) : (s.takeFault c o a).lpfCutoff = s.lpfCutoff :=
  by
  unfold State.takeFault; split <;> rfl
@[simp] theorem State.takeFault_clipEn (s : State) (c : FaultCode) (o a : Byte) : (s.takeFault c o a).clipEn = s.clipEn :=
  by
  unfold State.takeFault; split <;> rfl
@[simp] theorem State.takeFault_clipThresh (s : State) (c : FaultCode) (o a : Byte) : (s.takeFault c o a).clipThresh = s.clipThresh :=
  by
  unfold State.takeFault; split <;> rfl
@[simp] theorem State.takeFault_downmixEn (s : State) (c : FaultCode) (o a : Byte) : (s.takeFault c o a).downmixEn = s.downmixEn :=
  by
  unfold State.takeFault; split <;> rfl
@[simp] theorem State.takeFault_sr (s : State) (c : FaultCode) (o a : Byte) : (s.takeFault c o a).sr = s.sr :=
  by
  unfold State.takeFault; split <;> rfl
@[simp] theorem State.takeFault_steps (s : State) (c : FaultCode) (o a : Byte) : (s.takeFault c o a).steps = s.steps :=
  by
  unfold State.takeFault; split <;> rfl
@[simp] theorem State.takeFault_alpha (s : State) (c : FaultCode) (o a : Byte) : (s.takeFault c o a).alpha = s.alpha :=
  by
  unfold State.takeFault; split <;> rfl
@[simp] theorem State.takeFault_fmt (s : State) (c : FaultCode) (o a : Byte) : (s.takeFault c o a).fmt = s.fmt :=
  by
  unfold State.takeFault; split <;> rfl
@[simp] theorem State.takeFault_phase (s : State) (c : FaultCode) (o a : Byte) : (s.takeFault c o a).phase = s.phase :=
  by
  unfold State.takeFault; split <;> rfl
@[simp] theorem State.takeFault_filtL (s : State) (c : FaultCode) (o a : Byte) : (s.takeFault c o a).filtL = s.filtL :=
  by
  unfold State.takeFault; split <;> rfl
@[simp] theorem State.takeFault_filtR (s : State) (c : FaultCode) (o a : Byte) : (s.takeFault c o a).filtR = s.filtR :=
  by
  unfold State.takeFault; split <;> rfl
@[simp] theorem State.takeFault_holdL (s : State) (c : FaultCode) (o a : Byte) : (s.takeFault c o a).holdL = s.holdL :=
  by
  unfold State.takeFault; split <;> rfl
@[simp] theorem State.takeFault_holdR (s : State) (c : FaultCode) (o a : Byte) : (s.takeFault c o a).holdR = s.holdR :=
  by
  unfold State.takeFault; split <;> rfl
@[simp] theorem State.takeFault_hostInput (s : State) (c : FaultCode) (o a : Byte) : (s.takeFault c o a).hostInput = s.hostInput :=
  by
  unfold State.takeFault; split <;> rfl
@[simp] theorem State.takeFault_results (s : State) (c : FaultCode) (o a : Byte) : (s.takeFault c o a).results = s.results :=
  by
  unfold State.takeFault; split <;> rfl
@[simp] theorem State.takeFault_taken (s : State) (c : FaultCode) (o a : Byte) : (s.takeFault c o a).taken = s.taken :=
  by
  unfold State.takeFault; split <;> rfl
@[simp] theorem State.takeFault_mode (s : State) (c : FaultCode) (o a : Byte) : (s.takeFault c o a).mode = .faulted := by
  unfold State.takeFault; split <;> simp_all
theorem State.takeFault_of_faulted {s : State} (h : s.mode = .faulted) (c : FaultCode) (o a : Byte) :
    s.takeFault c o a = s := by simp [State.takeFault, h]
theorem State.takeFault_of_not_faulted {s : State} (h : s.mode ≠ .faulted) (c : FaultCode) (o a : Byte) :
    s.takeFault c o a = { s with faultCode := some c, faultOpc := o, faultArg := a, mode := .faulted } := by
  simp [State.takeFault, h]

/-! ## `setCfg`: only configuration registers change -/

@[simp] theorem State.setCfg_sr (s : State) (r : CfgReg) (v : Word) : (s.setCfg r v).sr = s.sr := by cases r <;> rfl
@[simp] theorem State.setCfg_steps (s : State) (r : CfgReg) (v : Word) : (s.setCfg r v).steps = s.steps :=
  by cases r <;> rfl
@[simp] theorem State.setCfg_alpha (s : State) (r : CfgReg) (v : Word) : (s.setCfg r v).alpha = s.alpha :=
  by cases r <;> rfl
@[simp] theorem State.setCfg_fmt (s : State) (r : CfgReg) (v : Word) : (s.setCfg r v).fmt = s.fmt :=
  by cases r <;> rfl
@[simp] theorem State.setCfg_mode (s : State) (r : CfgReg) (v : Word) : (s.setCfg r v).mode = s.mode :=
  by cases r <;> rfl
@[simp] theorem State.setCfg_phase (s : State) (r : CfgReg) (v : Word) : (s.setCfg r v).phase = s.phase :=
  by cases r <;> rfl
@[simp] theorem State.setCfg_filtL (s : State) (r : CfgReg) (v : Word) : (s.setCfg r v).filtL = s.filtL :=
  by cases r <;> rfl
@[simp] theorem State.setCfg_filtR (s : State) (r : CfgReg) (v : Word) : (s.setCfg r v).filtR = s.filtR :=
  by cases r <;> rfl
@[simp] theorem State.setCfg_holdL (s : State) (r : CfgReg) (v : Word) : (s.setCfg r v).holdL = s.holdL :=
  by cases r <;> rfl
@[simp] theorem State.setCfg_holdR (s : State) (r : CfgReg) (v : Word) : (s.setCfg r v).holdR = s.holdR :=
  by cases r <;> rfl
@[simp] theorem State.setCfg_faultCode (s : State) (r : CfgReg) (v : Word) : (s.setCfg r v).faultCode = s.faultCode :=
  by cases r <;> rfl
@[simp] theorem State.setCfg_faultOpc (s : State) (r : CfgReg) (v : Word) : (s.setCfg r v).faultOpc = s.faultOpc :=
  by cases r <;> rfl
@[simp] theorem State.setCfg_faultArg (s : State) (r : CfgReg) (v : Word) : (s.setCfg r v).faultArg = s.faultArg :=
  by cases r <;> rfl
@[simp] theorem State.setCfg_hostInput (s : State) (r : CfgReg) (v : Word) : (s.setCfg r v).hostInput = s.hostInput :=
  by cases r <;> rfl
@[simp] theorem State.setCfg_results (s : State) (r : CfgReg) (v : Word) : (s.setCfg r v).results = s.results :=
  by cases r <;> rfl
@[simp] theorem State.setCfg_taken (s : State) (r : CfgReg) (v : Word) : (s.setCfg r v).taken = s.taken :=
  by cases r <;> rfl
@[simp] theorem State.setCfg_cfg_self (s : State) (r : CfgReg) (v : Word) : (s.setCfg r v).cfg r = v := by
  cases r <;> rfl
theorem State.setCfg_cfg_ne (s : State) {r r' : CfgReg} (h : r' ≠ r) (v : Word) : (s.setCfg r v).cfg r' = s.cfg r' := by
  cases r <;> cases r' <;> first | rfl | exact absurd rfl h

/-! ## `resetBlock` -/

@[simp] theorem State.resetBlock_bitdepth (s : State) (es : List HostEvent) : (s.resetBlock es).bitdepth = State.reset.bitdepth :=
  rfl
@[simp] theorem State.resetBlock_srrFactor (s : State) (es : List HostEvent) : (s.resetBlock es).srrFactor = State.reset.srrFactor :=
  rfl
@[simp] theorem State.resetBlock_mix (s : State) (es : List HostEvent) : (s.resetBlock es).mix = State.reset.mix :=
  rfl
@[simp] theorem State.resetBlock_lpfEn (s : State) (es : List HostEvent) : (s.resetBlock es).lpfEn = State.reset.lpfEn :=
  rfl
@[simp] theorem State.resetBlock_lpfCutoff (s : State) (es : List HostEvent) : (s.resetBlock es).lpfCutoff = State.reset.lpfCutoff :=
  rfl
@[simp] theorem State.resetBlock_clipEn (s : State) (es : List HostEvent) : (s.resetBlock es).clipEn = State.reset.clipEn :=
  rfl
@[simp] theorem State.resetBlock_clipThresh (s : State) (es : List HostEvent) : (s.resetBlock es).clipThresh = State.reset.clipThresh :=
  rfl
@[simp] theorem State.resetBlock_downmixEn (s : State) (es : List HostEvent) : (s.resetBlock es).downmixEn = State.reset.downmixEn :=
  rfl
@[simp] theorem State.resetBlock_sr (s : State) (es : List HostEvent) : (s.resetBlock es).sr = State.reset.sr := rfl
@[simp] theorem State.resetBlock_steps (s : State) (es : List HostEvent) : (s.resetBlock es).steps = State.reset.steps :=
  rfl
@[simp] theorem State.resetBlock_alpha (s : State) (es : List HostEvent) : (s.resetBlock es).alpha = State.reset.alpha :=
  rfl
@[simp] theorem State.resetBlock_fmt (s : State) (es : List HostEvent) : (s.resetBlock es).fmt = State.reset.fmt :=
  rfl
@[simp] theorem State.resetBlock_mode (s : State) (es : List HostEvent) : (s.resetBlock es).mode = State.reset.mode :=
  rfl
@[simp] theorem State.resetBlock_phase (s : State) (es : List HostEvent) : (s.resetBlock es).phase = State.reset.phase :=
  rfl
@[simp] theorem State.resetBlock_filtL (s : State) (es : List HostEvent) : (s.resetBlock es).filtL = State.reset.filtL :=
  rfl
@[simp] theorem State.resetBlock_filtR (s : State) (es : List HostEvent) : (s.resetBlock es).filtR = State.reset.filtR :=
  rfl
@[simp] theorem State.resetBlock_holdL (s : State) (es : List HostEvent) : (s.resetBlock es).holdL = State.reset.holdL :=
  rfl
@[simp] theorem State.resetBlock_holdR (s : State) (es : List HostEvent) : (s.resetBlock es).holdR = State.reset.holdR :=
  rfl
@[simp] theorem State.resetBlock_faultCode (s : State) (es : List HostEvent) : (s.resetBlock es).faultCode = State.reset.faultCode :=
  rfl
@[simp] theorem State.resetBlock_faultOpc (s : State) (es : List HostEvent) : (s.resetBlock es).faultOpc = State.reset.faultOpc :=
  rfl
@[simp] theorem State.resetBlock_faultArg (s : State) (es : List HostEvent) : (s.resetBlock es).faultArg = State.reset.faultArg :=
  rfl
@[simp] theorem State.resetBlock_hostInput (s : State) (es : List HostEvent) : (s.resetBlock es).hostInput = es := rfl
@[simp] theorem State.resetBlock_results (s : State) (es : List HostEvent) : (s.resetBlock es).results = State.reset.results :=
  rfl
@[simp] theorem State.resetBlock_taken (s : State) (es : List HostEvent) : (s.resetBlock es).taken = s.taken := rfl

/-! ## `begun` -/

@[simp] theorem State.begun_bitdepth (s : State) (st i : Bool) (w : Word) : (s.begun st i w).bitdepth = s.bitdepth :=
  rfl
@[simp] theorem State.begun_srrFactor (s : State) (st i : Bool) (w : Word) : (s.begun st i w).srrFactor = s.srrFactor :=
  rfl
@[simp] theorem State.begun_mix (s : State) (st i : Bool) (w : Word) : (s.begun st i w).mix = s.mix := rfl
@[simp] theorem State.begun_lpfEn (s : State) (st i : Bool) (w : Word) : (s.begun st i w).lpfEn = s.lpfEn := rfl
@[simp] theorem State.begun_lpfCutoff (s : State) (st i : Bool) (w : Word) : (s.begun st i w).lpfCutoff = s.lpfCutoff :=
  rfl
@[simp] theorem State.begun_clipEn (s : State) (st i : Bool) (w : Word) : (s.begun st i w).clipEn = s.clipEn := rfl
@[simp] theorem State.begun_clipThresh (s : State) (st i : Bool) (w : Word) : (s.begun st i w).clipThresh = s.clipThresh :=
  rfl
@[simp] theorem State.begun_downmixEn (s : State) (st i : Bool) (w : Word) : (s.begun st i w).downmixEn = s.downmixEn :=
  rfl
@[simp] theorem State.begun_sr (s : State) (st i : Bool) (w : Word) : (s.begun st i w).sr = w := rfl
@[simp] theorem State.begun_steps (s : State) (st i : Bool) (w : Word) : (s.begun st i w).steps = stepsOf s.bitdepth :=
  rfl
@[simp] theorem State.begun_alpha (s : State) (st i : Bool) (w : Word) : (s.begun st i w).alpha = if s.lpfEn = 1 then (alphaOf (F64.ofBits s.lpfCutoff) (F64.ofBits w)).toBits else 0#64 :=
  rfl
@[simp] theorem State.begun_fmt (s : State) (st i : Bool) (w : Word) : (s.begun st i w).fmt = if i then .int16 else .binary64 :=
  rfl
@[simp] theorem State.begun_mode (s : State) (st i : Bool) (w : Word) : (s.begun st i w).mode = if st then .stereo else .mono :=
  rfl
@[simp] theorem State.begun_phase (s : State) (st i : Bool) (w : Word) : (s.begun st i w).phase = 0#64 := rfl
@[simp] theorem State.begun_filtL (s : State) (st i : Bool) (w : Word) : (s.begun st i w).filtL = 0#64 := rfl
@[simp] theorem State.begun_filtR (s : State) (st i : Bool) (w : Word) : (s.begun st i w).filtR = 0#64 := rfl
@[simp] theorem State.begun_holdL (s : State) (st i : Bool) (w : Word) : (s.begun st i w).holdL = 0#64 := rfl
@[simp] theorem State.begun_holdR (s : State) (st i : Bool) (w : Word) : (s.begun st i w).holdR = 0#64 := rfl
@[simp] theorem State.begun_faultCode (s : State) (st i : Bool) (w : Word) : (s.begun st i w).faultCode = s.faultCode :=
  rfl
@[simp] theorem State.begun_faultOpc (s : State) (st i : Bool) (w : Word) : (s.begun st i w).faultOpc = s.faultOpc :=
  rfl
@[simp] theorem State.begun_faultArg (s : State) (st i : Bool) (w : Word) : (s.begun st i w).faultArg = s.faultArg :=
  rfl
@[simp] theorem State.begun_hostInput (s : State) (st i : Bool) (w : Word) : (s.begun st i w).hostInput = s.hostInput :=
  rfl
@[simp] theorem State.begun_results (s : State) (st i : Bool) (w : Word) : (s.begun st i w).results = s.results := rfl
@[simp] theorem State.begun_taken (s : State) (st i : Bool) (w : Word) : (s.begun st i w).taken = s.taken := rfl

end Sys2Proof.Machine
end

