-- ==== Sys2Proof/Laws/Ops.lean ====
section
/-! SUPPORT. What each shared operation and each command can do, said once: if it answers a next state, that state is
one of these. -/

namespace Sys2Proof.Machine

/-! ## Operands -/

theorem sint16_bounds (w : Word) : -32768 ≤ sint16 w ∧ sint16 w ≤ 32767 := by
  unfold sint16
  have h1 := BitVec.le_toInt (w.field 0 16)
  have h2 := BitVec.toInt_lt (x := w.field 0 16)
  norm_num at h1 h2
  omega

theorem normI16_ok (n : Int) : (normI16 n).ok = true := F64.div_ok _ _

theorem normI16_finite {n : Int} (h : n.natAbs < 2 ^ 53) : (normI16 n).isFinite = true := by
  unfold normI16
  rw [F64.ofInt_eq h, F64.ofInt_eq (by decide)]
  have h1 : (32768 : Int).natAbs * F64.unit ≠ 0 := Nat.mul_ne_zero (by decide) F64.unit_pos.ne'
  simp only [F64.div, if_neg h1, F64.round, F64.ofMag]
  rw [if_pos]; · rfl
  have h2 : F64.roundMag (n.natAbs * F64.unit * F64.unit) ((32768 : Int).natAbs * F64.unit) ≤ n.natAbs * F64.unit := by
    refine F64.roundMag_le (Nat.pos_of_ne_zero h1) (Rep.mul_unit h) ?_
    refine Nat.mul_le_mul_left _ ?_
    exact Nat.le_mul_of_pos_left _ (by decide)
  exact h2.trans_lt (F64.mul_unit_lt_beyond h (by omega))

/-- A sample operand that is accepted is a finite binary64 value (41_sample_commands.md R150). -/
theorem inSample_finite {fmt : SampleFormat} {w : Word} {d : F64} (h : inSample fmt w = .ok d) :
    d.isFinite = true ∧ d.ok = true := by
  cases fmt with
  | binary64 =>
    simp only [inSample] at h
    split_ifs at h with hf
    cases h
    exact ⟨hf, F64.ofBits_ok w⟩
  | int16 =>
    simp only [inSample] at h
    split_ifs at h with hf
    cases h
    have := sint16_bounds w
    exact ⟨normI16_finite (by omega), normI16_ok _⟩

theorem F64.isNaN_of_isFinite {v : F64} (h : v.isFinite = true) : v.isNaN = false := by
  cases v <;> simp_all [F64.isFinite, F64.isNaN]

/-! ## Commands: every case of every meaning -/

theorem raiseFault_next (c : FaultCode) (i : Instr) (s : State) :
    raiseFault c i s = .next (s.takeFault c i.opc i.arg) := rfl

/-- The state a completed `PUSH` leaves (41_sample_commands.md R151). -/
def State.pushed (s : State) (tie : RoundTie) (d : F64) : State :=
  let h := holdUpdate s.phase (F64.ofBits s.holdL) d
  State.emit
    { s with
      holdL := s.holdNext d s.holdL
      filtL := s.filtNext tie h s.filtL
      phase := phaseNext s.srrFactor s.phase }
    (clamp1 (s.mixed tie h d (F64.ofBits s.filtL))).toBits

/-- The mixed value of a `PUSH` (41_sample_commands.md R151). -/
def State.pushMixed (s : State) (tie : RoundTie) (d : F64) : F64 :=
  s.mixed tie (holdUpdate s.phase (F64.ofBits s.holdL) d) d (F64.ofBits s.filtL)

/-- `PUSH`: a fault, or one time step. -/
theorem pushUnder_cases {tie : RoundTie} {op : Word} {s t : State} (h : pushUnder tie op s = .next t) :
    (∃ c, t = s.takeFault c 0x04#8 0x00#8 ∧
      (s.mode ≠ .mono ∧ c = .sequence ∨ s.mode = .mono ∧ inSample s.fmt op = .error c ∨
        s.mode = .mono ∧ c = .numericNan ∧ ∃ d, inSample s.fmt op = .ok d ∧ (s.pushMixed tie d).isNaN = true)) ∨
    (s.mode = .mono ∧ ∃ d, inSample s.fmt op = .ok d ∧ (s.pushMixed tie d).isNaN = false ∧ t = s.pushed tie d) := by
  unfold pushUnder at h
  split_ifs at h with hm
  · cases h; exact .inl ⟨.sequence, rfl, .inl ⟨hm, rfl⟩⟩
  · rw [not_not] at hm
    split at h
    · next c hc => cases h; exact .inl ⟨c, rfl, .inr (.inl ⟨hm, hc⟩)⟩
    · next d hd =>
      dsimp only at h
      split_ifs at h with hn
      · cases h; exact .inl ⟨.numericNan, rfl, .inr (.inr ⟨hm, rfl, d, hd, hn⟩)⟩
      · cases h; exact .inr ⟨hm, d, hd, by rwa [Bool.not_eq_true] at hn, rfl⟩

/-- The state a completed `PUSH2` leaves (41_sample_commands.md R152). -/
def State.pushed2 (s : State) (tie : RoundTie) (dL dR : F64) : State :=
  let hL := holdUpdate s.phase (F64.ofBits s.holdL) (s.frameLoad dL dR dL)
  let hR := holdUpdate s.phase (F64.ofBits s.holdR) (s.frameLoad dL dR dR)
  State.emit (State.emit
    { s with
      holdL := s.holdNext (s.frameLoad dL dR dL) s.holdL
      holdR := s.holdNext (s.frameLoad dL dR dR) s.holdR
      filtL := s.filtNext tie hL s.filtL
      filtR := s.filtNext tie hR s.filtR
      phase := phaseNext s.srrFactor s.phase }
    (clamp1 (s.mixed tie hL dL (F64.ofBits s.filtL))).toBits)
    (clamp1 (s.mixed tie hR dR (F64.ofBits s.filtR))).toBits

/-- The mixed values of a `PUSH2` (41_sample_commands.md R152). -/
def State.push2Mixed (s : State) (tie : RoundTie) (dL dR : F64) : F64 × F64 :=
  (s.mixed tie (holdUpdate s.phase (F64.ofBits s.holdL) (s.frameLoad dL dR dL)) dL (F64.ofBits s.filtL),
   s.mixed tie (holdUpdate s.phase (F64.ofBits s.holdR) (s.frameLoad dL dR dR)) dR (F64.ofBits s.filtR))

/-- `PUSH2`: a fault, or one time step of both lanes. -/
theorem push2Under_cases {tie : RoundTie} {op0 op1 : Word} {s t : State} (h : push2Under tie op0 op1 s = .next t) :
    (∃ c, t = s.takeFault c 0x05#8 0x00#8 ∧
      (s.mode ≠ .stereo ∧ c = .sequence ∨
        s.mode = .stereo ∧ (inSample s.fmt op0 = .error c ∨ inSample s.fmt op1 = .error c) ∨
        s.mode = .stereo ∧ c = .numericNan ∧ ∃ dL dR, inSample s.fmt op0 = .ok dL ∧ inSample s.fmt op1 = .ok dR ∧
          ((s.push2Mixed tie dL dR).1.isNaN = true ∨ (s.push2Mixed tie dL dR).2.isNaN = true))) ∨
    (s.mode = .stereo ∧ ∃ dL dR, inSample s.fmt op0 = .ok dL ∧ inSample s.fmt op1 = .ok dR ∧
      (s.push2Mixed tie dL dR).1.isNaN = false ∧ (s.push2Mixed tie dL dR).2.isNaN = false ∧
      t = s.pushed2 tie dL dR) := by
  unfold push2Under at h
  split_ifs at h with hm
  · cases h; exact .inl ⟨.sequence, rfl, .inl ⟨hm, rfl⟩⟩
  · rw [not_not] at hm
    split at h
    · next c hc => cases h; exact .inl ⟨c, rfl, .inr (.inl ⟨hm, .inl hc⟩)⟩
    · next dL hdL =>
      split at h
      · next c hc => cases h; exact .inl ⟨c, rfl, .inr (.inl ⟨hm, .inr hc⟩)⟩
      · next dR hdR =>
        dsimp only at h
        split_ifs at h with hn
        · cases h
          exact .inl ⟨.numericNan, rfl, .inr (.inr ⟨hm, rfl, dL, dR, hdL, hdR, Bool.or_eq_true _ _ ▸ hn⟩)⟩
        · cases h
          rw [Bool.or_eq_true, not_or, Bool.not_eq_true, Bool.not_eq_true] at hn
          exact .inr ⟨hm, dL, dR, hdL, hdR, hn.1, hn.2, rfl⟩

theorem execCfgWr_cases {sel : Byte} {v : Word} {s t : State} (h : execCfgWr sel v s = .next t) :
    (∃ c, t = s.takeFault c 0x01#8 sel ∧
      (cfgRegOf sel = none ∧ c = .illegalSelector ∨ (cfgRegOf sel).isSome ∧ s.mode ≠ .idle ∧ c = .sequence)) ∨
    (s.mode = .idle ∧ ∃ r, cfgRegOf sel = some r ∧ t = s.setCfg r v) := by
  unfold execCfgWr at h
  split at h
  · next hr => cases h; exact .inl ⟨_, rfl, .inl ⟨hr, rfl⟩⟩
  · next r hr =>
    split_ifs at h with hm
    · cases h; exact .inl ⟨_, rfl, .inr ⟨by simp [hr], hm, rfl⟩⟩
    · cases h; exact .inr ⟨not_not.mp hm, r, hr, rfl⟩

theorem execCfgRd_cases {sel : Byte} {s t : State} (h : execCfgRd sel s = .next t) :
    (s.read sel = none ∧ t = s.takeFault .illegalSelector 0x02#8 sel) ∨
    (s.mode = .faulted ∧ t = s) ∨
    (s.mode ≠ .faulted ∧ ∃ w, s.read sel = some w ∧ t = s.emit w) := by
  unfold execCfgRd at h
  split at h
  · next hr => cases h; exact .inl ⟨hr, rfl⟩
  · next w hr =>
    split_ifs at h with hm
    · cases h; exact .inr (.inl ⟨hm, rfl⟩)
    · cases h; exact .inr (.inr ⟨hm, w, hr, rfl⟩)

theorem execBegin_cases {st f : Bool} {rate : Word} {s t : State} (h : execBegin st f rate s = .next t) :
    (∃ c, t = s.takeFault c 0x03#8 (Instr.beginCall st f rate).arg ∧
      (s.mode ≠ .idle ∧ c = .sequence ∨ s.mode = .idle ∧ s.cfgOk (F64.ofBits rate) = false ∧ c = .configInvalid)) ∨
    (s.mode = .idle ∧ s.cfgOk (F64.ofBits rate) = true ∧ t = s.begun st f rate) := by
  unfold execBegin at h
  split_ifs at h with hm hc
  · cases h; exact .inl ⟨_, rfl, .inl ⟨hm, rfl⟩⟩
  · cases h; exact .inr ⟨not_not.mp hm, hc, rfl⟩
  · cases h; exact .inl ⟨_, rfl, .inr ⟨not_not.mp hm, by simpa using hc, rfl⟩⟩

theorem execEnd_cases {s t : State} (h : execEnd s = .next t) :
    (¬ (s.mode = .mono ∨ s.mode = .stereo) ∧ t = s.takeFault .sequence 0x06#8 0x00#8) ∨
    ((s.mode = .mono ∨ s.mode = .stereo) ∧ t = { s with mode := .idle }) := by
  unfold execEnd at h
  split_ifs at h with hm
  · cases h; exact .inr ⟨hm, rfl⟩
  · cases h; exact .inl ⟨hm, rfl⟩

/-- Every command answers a next state: no meaning stops. -/
theorem exec_answers (i : Instr) (s : State) : ∃ t, exec i s = .next t := by
  cases i with
  | cfgWr sel v => simp only [exec, execCfgWr]; split <;> [exact ⟨_, rfl⟩; (split_ifs <;> exact ⟨_, rfl⟩)]
  | cfgRd sel => simp only [exec, execCfgRd]; split <;> [exact ⟨_, rfl⟩; (split_ifs <;> exact ⟨_, rfl⟩)]
  | beginCall st f r => simp only [exec, execBegin]; split_ifs <;> exact ⟨_, rfl⟩
  | push o =>
    simp only [exec, execPush, pushUnder]
    split_ifs
    · exact ⟨_, rfl⟩
    · split
      · exact ⟨_, rfl⟩
      · split_ifs <;> exact ⟨_, rfl⟩
  | push2 o o' =>
    simp only [exec, execPush2, push2Under]
    split_ifs
    · exact ⟨_, rfl⟩
    · split
      · exact ⟨_, rfl⟩
      · split
        · exact ⟨_, rfl⟩
        · split_ifs <;> exact ⟨_, rfl⟩
  | endCall => simp only [exec, execEnd]; split_ifs <;> exact ⟨_, rfl⟩

/-- A selector names a configuration register exactly where `CFG_WR` accepts it (10_state.md R24). -/
theorem cfgRegOf_isSome (sel : Byte) : (cfgRegOf sel).isSome = writableSelector sel := by
  revert sel; decide +kernel

/-- A selector names a register exactly where `CFG_RD` accepts it (10_state.md R24, R50). -/
theorem read_isSome (s : State) (sel : Byte) : (s.read sel).isSome = readableSelector sel := by
  have h : (s.read sel).isSome = ((cfgRegOf sel).isSome || (winRegOf sel).isSome) := by
    unfold State.read
    cases cfgRegOf sel <;> cases winRegOf sel <;> rfl
  rw [h]
  clear h; revert sel; decide +kernel

/-- Everything a command can do: take a fault, be discarded in `FAULTED`, or have its own effect. -/
theorem exec_next_cases {i : Instr} {s t : State} (h : exec i s = .next t) :
    (∃ c, t = s.takeFault c i.opc i.arg) ∨ (s.mode = .faulted ∧ t = s) ∨
    (s.mode ≠ .faulted ∧ t.mode ≠ .faulted ∧
      t.faultCode = s.faultCode ∧ t.faultOpc = s.faultOpc ∧ t.faultArg = s.faultArg ∧
      match i with
      | .cfgWr sel v => s.mode = .idle ∧ ∃ r, cfgRegOf sel = some r ∧ t = s.setCfg r v
      | .cfgRd sel => ∃ w, s.read sel = some w ∧ t = s.emit w
      | .beginCall st f r => s.mode = .idle ∧ s.cfgOk (F64.ofBits r) = true ∧ t = s.begun st f r
      | .push o => s.mode = .mono ∧ ∃ d, inSample s.fmt o = .ok d ∧
          (s.pushMixed Config.roundTie d).isNaN = false ∧ t = s.pushed Config.roundTie d
      | .push2 o o' => s.mode = .stereo ∧ ∃ dL dR, inSample s.fmt o = .ok dL ∧ inSample s.fmt o' = .ok dR ∧
          (s.push2Mixed Config.roundTie dL dR).1.isNaN = false ∧
          (s.push2Mixed Config.roundTie dL dR).2.isNaN = false ∧ t = s.pushed2 Config.roundTie dL dR
      | .endCall => (s.mode = .mono ∨ s.mode = .stereo) ∧ t = { s with mode := .idle }) := by
  cases i with
  | cfgWr sel v =>
    rcases execCfgWr_cases h with ⟨c, h, _⟩ | ⟨hm, r, hr, rfl⟩
    · exact .inl ⟨c, h⟩
    · refine .inr (.inr ?_)
      cases r <;> simp [State.setCfg, hm, hr]
  | cfgRd sel =>
    rcases execCfgRd_cases h with ⟨_, h⟩ | ⟨hm, h⟩ | ⟨hm, w, hr, rfl⟩
    · exact .inl ⟨_, h⟩
    · exact .inr (.inl ⟨hm, h⟩)
    · exact .inr (.inr ⟨hm, hm, rfl, rfl, rfl, w, hr, rfl⟩)
  | beginCall st f r =>
    rcases execBegin_cases h with ⟨c, h, _⟩ | ⟨hm, hc, rfl⟩
    · exact .inl ⟨c, h⟩
    · refine .inr (.inr ⟨by simp [hm], ?_, rfl, rfl, rfl, hm, hc, rfl⟩)
      cases st <;> simp [State.begun]
  | push o =>
    rcases pushUnder_cases h with ⟨c, h, _⟩ | ⟨hm, d, hd, hn, rfl⟩
    · exact .inl ⟨c, h⟩
    · exact .inr (.inr ⟨by simp [hm], by simp [State.pushed, State.emit, hm], rfl, rfl, rfl, hm, d, hd, hn, rfl⟩)
  | push2 o o' =>
    rcases push2Under_cases h with ⟨c, h, _⟩ | ⟨hm, dL, dR, hd, hd', hn, hn', rfl⟩
    · exact .inl ⟨c, h⟩
    · exact .inr (.inr ⟨by simp [hm], by simp [State.pushed2, State.emit, hm], rfl, rfl, rfl, hm, dL, dR, hd, hd', hn,
        hn', rfl⟩)
  | endCall =>
    rcases execEnd_cases h with ⟨_, h⟩ | ⟨hm, rfl⟩
    · exact .inl ⟨_, h⟩
    · exact .inr (.inr ⟨by rcases hm with h | h <;> simp [h], by simp, rfl, rfl, rfl, hm, rfl⟩)

/-! ## What the shared operations leave alone -/

@[simp] theorem takeFault_mode (s : State) (c : FaultCode) (o a : Byte) : (s.takeFault c o a).mode = .faulted := by
  unfold State.takeFault; split_ifs <;> simp_all

@[simp] theorem setCfg_cfg (s : State) (r r' : CfgReg) (v : Word) :
    (s.setCfg r v).cfg r' = if r' = r then v else s.cfg r' := by cases r <;> cases r' <;> rfl

@[simp] theorem setCfg_win (s : State) (r : CfgReg) (r' : WinReg) (v : Word) : (s.setCfg r v).win r' = s.win r' := by
  cases r <;> cases r' <;> rfl

@[simp] theorem takeFault_cfg (s : State) (c : FaultCode) (o a : Byte) (r : CfgReg) :
    (s.takeFault c o a).cfg r = s.cfg r := by unfold State.takeFault; split_ifs <;> cases r <;> rfl

@[simp] theorem takeFault_win (s : State) (c : FaultCode) (o a : Byte) (r : WinReg) :
    (s.takeFault c o a).win r = s.win r := by unfold State.takeFault; split_ifs <;> cases r <;> rfl

@[simp] theorem takeFault_read (s : State) (c : FaultCode) (o a sel : Byte) :
    (s.takeFault c o a).read sel = s.read sel := by unfold State.read; simp only [takeFault_cfg, takeFault_win]

@[simp] theorem emit_cfg (s : State) (w : Word) (r : CfgReg) : (s.emit w).cfg r = s.cfg r := by cases r <;> rfl

@[simp] theorem begun_cfg (s : State) (st f : Bool) (w : Word) (r : CfgReg) : (s.begun st f w).cfg r = s.cfg r := by
  cases r <;> rfl

@[simp] theorem pushed_cfg (s : State) (tie : RoundTie) (d : F64) (r : CfgReg) : (s.pushed tie d).cfg r = s.cfg r := by
  cases r <;> rfl

@[simp] theorem pushed2_cfg (s : State) (tie : RoundTie) (dL dR : F64) (r : CfgReg) :
    (s.pushed2 tie dL dR).cfg r = s.cfg r := by cases r <;> rfl

/-- Two selectors of one configuration register are the same. -/
theorem cfgRegOf_inj {a b : Byte} {r : CfgReg} (h : cfgRegOf a = some r) (h' : cfgRegOf b = some r) : a = b := by
  have key : ∀ (a : Byte) (r : CfgReg), cfgRegOf a = some r → a = r.sel := by
    intro a r
    cases r <;> (revert a; decide +kernel)
  rw [key a r h, key b r h']

/-- The configuration check reads the configuration registers only. -/
theorem cfgOk_congr {s t : State} (h : ∀ r, t.cfg r = s.cfg r) (sr : F64) : t.cfgOk sr = s.cfgOk sr := by
  have h1 := h .bitdepth; have h2 := h .srrFactor; have h3 := h .mix; have h4 := h .lpfEn
  have h5 := h .lpfCutoff; have h6 := h .clipEn; have h7 := h .clipThresh; have h8 := h .downmixEn
  simp only [State.cfg] at *
  simp only [State.cfgOk, *]

/-! ## A meaning does not read the command port -/

theorem emit_at (s : State) (es : List HostEvent) (w : Word) :
    ({ s with hostInput := es } : State).emit w = { s.emit w with hostInput := es } := rfl

theorem takeFault_at (s : State) (es : List HostEvent) (c : FaultCode) (o a : Byte) :
    ({ s with hostInput := es } : State).takeFault c o a = { s.takeFault c o a with hostInput := es } := by
  unfold State.takeFault; split_ifs <;> rfl

theorem read_at (s : State) (es : List HostEvent) (sel : Byte) :
    ({ s with hostInput := es } : State).read sel = s.read sel := by
  unfold State.read
  rcases cfgRegOf sel with _ | r
  · rcases winRegOf sel with _ | r
    · rfl
    · cases r <;> rfl
  · cases r <;> rfl

theorem mixed_at (s : State) (es : List HostEvent) (tie : RoundTie) (h d st : F64) :
    ({ s with hostInput := es } : State).mixed tie h d st = s.mixed tie h d st := rfl

theorem frameLoad_at (s : State) (es : List HostEvent) (dL dR own : F64) :
    ({ s with hostInput := es } : State).frameLoad dL dR own = s.frameLoad dL dR own := rfl

/-- A command does the same whatever stands at the port behind it (20_memory.md R69). -/
theorem exec_at (i : Instr) (s : State) (es : List HostEvent) :
    exec i { s with hostInput := es } =
      match exec i s with
      | .next t => .next { t with hostInput := es }
      | .fault f => .fault f
      | .refused r => .refused r := by
  cases i with
  | cfgWr sel v =>
    simp only [exec, execCfgWr, raiseFault, takeFault_at]
    split
    · rfl
    · split_ifs
      · rfl
      · next r _ _ => cases r <;> rfl
  | cfgRd sel =>
    simp only [exec, execCfgRd, raiseFault, takeFault_at, read_at]
    split
    · rfl
    · split_ifs <;> rfl
  | beginCall st f r =>
    have hc : ({ s with hostInput := es } : State).cfgOk (F64.ofBits r) = s.cfgOk (F64.ofBits r) := rfl
    simp only [exec, execBegin, raiseFault, takeFault_at, hc]
    split_ifs <;> rfl
  | push o =>
    simp only [exec, execPush, pushUnder, raiseFault, takeFault_at, mixed_at]
    split_ifs
    · rfl
    · split
      · rfl
      · split_ifs <;> rfl
  | push2 o o' =>
    simp only [exec, execPush2, push2Under, raiseFault, takeFault_at, mixed_at, frameLoad_at]
    split_ifs
    · rfl
    · split
      · rfl
      · split
        · rfl
        · split_ifs <;> rfl
  | endCall => simp only [exec, execEnd, raiseFault, takeFault_at]; split_ifs <;> rfl

/-- A command leaves the port as it is. -/
theorem exec_hostInput {i : Instr} {s t : State} (h : exec i s = .next t) : t.hostInput = s.hostInput := by
  have h' := exec_at i s s.hostInput
  rw [show ({ s with hostInput := s.hostInput } : State) = s from rfl, h] at h'
  injection h' with h'
  rw [h']

/-! ## What a time step writes -/

theorem stepsOf_toNat {b : Word} (h : b.toNat ≤ 16) : (stepsOf b).toNat = 2 ^ b.toNat - 1 := by
  unfold stepsOf
  rw [BitVec.toNat_ofNat, Nat.mod_eq_of_lt]
  have : 2 ^ b.toNat ≤ 2 ^ 16 := Nat.pow_le_pow_right (by omega) h
  omega

theorem phaseNext_lt {f p : Word} (h : p.toNat < f.toNat) : (phaseNext f p).toNat < f.toNat := by
  unfold phaseNext
  split_ifs
  · simp only [BitVec.toNat_ofNat]; omega
  · rw [BitVec.toNat_add]
    have := f.isLt
    rw [Nat.mod_eq_of_lt] <;> simp only [BitVec.toNat_ofNat] <;> omega

theorem toBits_not_nan {v : F64} (h : v.ok = true) (hn : v.isNaN = false) : (F64.ofBits v.toBits).isNaN = false := by
  rwa [F64.ofBits_toBits h hn]

theorem processed_ok (s : State) (tie : RoundTie) (h st : F64) : (s.processed tie h st).ok = true := by
  unfold State.processed
  dsimp only
  split_ifs
  · exact F64.add_ok _ _
  · unfold clipStage hclip quant
    split_ifs <;> simp [F64.div_ok, F64.ofBits_ok]

theorem mixStage_ok (m p d : F64) : (mixStage m p d).ok = true := F64.add_ok _ _

/-- A NaN from the filter reaches the output clamp (40_datapath_stages.md R130). -/
theorem not_nan_of_mixStage {m p d : F64} (h : (mixStage m p d).isNaN = false) : p.isNaN = false := by
  cases p with
  | nan => simp [mixStage, F64.mul, F64.add, F64.isNaN] at h
  | _ => rfl

theorem filtNext_not_nan {s : State} {tie : RoundTie} {h d : F64} {st : Word}
    (hv : (s.mixed tie h d (F64.ofBits st)).isNaN = false) (hs : (F64.ofBits st).isNaN = false) :
    (F64.ofBits (s.filtNext tie h st)).isNaN = false := by
  unfold State.filtNext
  split_ifs
  · exact toBits_not_nan (processed_ok ..) (not_nan_of_mixStage hv)
  · exact hs

theorem holdNext_not_nan {s : State} {d : F64} {w : Word} (hd : d.ok = true) (hn : d.isNaN = false)
    (hs : (F64.ofBits w).isNaN = false) : (F64.ofBits (s.holdNext d w)).isNaN = false := by
  unfold State.holdNext
  split_ifs
  · exact toBits_not_nan hd hn
  · exact hs

end Sys2Proof.Machine
end

