-- ==== Sys2Proof/Laws/Sequencer.lean ====
section
/-! SUPPORT. The host's events and what one step can do. -/

namespace Sys2Proof.Machine

/-! ## Events -/

@[simp] theorem arrivedWords_nil : arrivedWords [] = [] := rfl
@[simp] theorem arrivedWords_word (w : Word) (es : List HostEvent) :
    arrivedWords (.word w :: es) = w :: arrivedWords es := rfl
@[simp] theorem arrivedWords_take (es : List HostEvent) : arrivedWords (.take :: es) = [] := rfl
@[simp] theorem arrivedWords_reset (es : List HostEvent) : arrivedWords (.reset :: es) = [] := rfl

@[simp] theorem arrivedWords_append (ws : List Word) (es : List HostEvent) :
    arrivedWords (ws.map .word ++ es) = ws ++ arrivedWords es := by
  induction ws with
  | nil => rfl
  | cons w ws ih => simp [ih]

@[simp] theorem nextSignal_append (ws : List Word) (es : List HostEvent) :
    nextSignal (ws.map .word ++ es) = nextSignal es := by
  induction ws with
  | nil => rfl
  | cons w ws ih => simpa [nextSignal] using ih

@[simp] theorem withoutSignal_append (ws : List Word) (es : List HostEvent) :
    withoutSignal (ws.map .word ++ es) = ws.map .word ++ withoutSignal es := by
  induction ws with
  | nil => rfl
  | cons w ws ih => simp [withoutSignal, ih]

@[simp] theorem afterSignal_append (ws : List Word) (es : List HostEvent) :
    afterSignal (ws.map .word ++ es) = afterSignal es := by
  induction ws with
  | nil => rfl
  | cons w ws ih => simpa [afterSignal] using ih

@[simp] theorem arrivedWords_words (ws : List Word) : arrivedWords (ws.map .word) = ws := by
  simpa using arrivedWords_append ws []

@[simp] theorem nextSignal_words (ws : List Word) : nextSignal (ws.map .word) = none := by
  simpa [nextSignal] using nextSignal_append ws []

/-- Every list of events is some words, then nothing or a signal. -/
theorem events_split (es : List HostEvent) :
    ∃ ws : List Word, es = ws.map .word ∨ (∃ r, es = ws.map .word ++ .take :: r) ∨
      ∃ r, es = ws.map .word ++ .reset :: r := by
  induction es with
  | nil => exact ⟨[], .inl rfl⟩
  | cons e es ih =>
    cases e with
    | word w =>
      obtain ⟨ws, h | ⟨r, h⟩ | ⟨r, h⟩⟩ := ih
      · exact ⟨w :: ws, .inl (by simp [h])⟩
      · exact ⟨w :: ws, .inr (.inl ⟨r, by simp [h]⟩)⟩
      · exact ⟨w :: ws, .inr (.inr ⟨r, by simp [h]⟩)⟩
    | take => exact ⟨[], .inr (.inl ⟨es, rfl⟩)⟩
    | reset => exact ⟨[], .inr (.inr ⟨es, rfl⟩)⟩

theorem arrivedWords_length_le (es : List HostEvent) : (arrivedWords es).length ≤ es.length := by
  induction es with
  | nil => simp
  | cons e es ih => cases e <;> simp; omega

/-! ## Steps -/

/-- What waiting can do: nothing, let the host take a word, or reset. -/
theorem State.waitForHost_cases (s : State) :
    s.waitForHost = s ∨
    (nextSignal s.hostInput = some .take ∧
      s.waitForHost = { s.takeResult with hostInput := withoutSignal s.hostInput }) ∨
    (nextSignal s.hostInput = some .reset ∧ s.waitForHost = s.resetBlock (afterSignal s.hostInput)) := by
  unfold State.waitForHost
  split
  · next h => exact .inr (.inl ⟨h, rfl⟩)
  · next h => exact .inr (.inr ⟨h, rfl⟩)
  · exact .inl rfl

/-- Waiting never enters `FAULTED`. -/
theorem State.waitForHost_faulted {s : State} (h : s.waitForHost.mode = .faulted) : s.mode = .faulted := by
  rcases s.waitForHost_cases with e | ⟨_, e⟩ | ⟨_, e⟩ <;> rw [e] at h
  · exact h
  · simpa using h
  · simp [State.resetBlock, State.reset] at h

/-- What a step can do: wait for the host, discard a word in `FAULTED`, fault on an illegal word, or run a command. -/
theorem step_cases {s t : State} (h : step s = .next t) :
    t = s.waitForHost ∨
    (s.mode = .faulted ∧ (∃ w es, s.hostInput = .word w :: es) ∧ t = s.consume 1) ∨
    (s.mode ≠ .faulted ∧ ∃ c w, decode (arrivedWords s.hostInput) = .illegal c w ∧
      t = (s.consume (1 + nops (opcOf w))).takeFault c (opcOf w) (argOf w)) ∨
    (s.mode ≠ .faulted ∧ ∃ i rest, decode (arrivedWords s.hostInput) = .command i rest ∧ s.hasRoom i.nres = true ∧
      exec i (s.consume (1 + i.operands.length)) = .next t) := by
  unfold step sequencer at h
  split_ifs at h with hm
  · unfold discardNext at h
    split at h
    · next w es he => cases h; exact .inr (.inl ⟨hm, ⟨w, es, he⟩, rfl⟩)
    · cases h; exact .inl rfl
  · unfold runNext at h
    split at h
    · cases h; exact .inl rfl
    · next c w hd => cases h; exact .inr (.inr (.inl ⟨hm, c, w, hd, rfl⟩))
    · next i rest hd =>
      split_ifs at h with hr
      · exact .inr (.inr (.inr ⟨hm, i, rest, hd, hr, h⟩))
      · cases h; exact .inl rfl

/-- A step always answers a next state. -/
theorem step_answers (s : State) : ∃ t, step s = .next t := by
  unfold step sequencer
  split_ifs
  · exact ⟨_, rfl⟩
  · unfold runNext
    split
    · exact ⟨_, rfl⟩
    · exact ⟨_, rfl⟩
    · split_ifs
      · exact exec_answers _ _
      · exact ⟨_, rfl⟩

end Sys2Proof.Machine
end

