-- ==== Sys2Proof/Laws/HostOps.lean ====
section
/-! SUPPORT. Runs of the block and the events of host operations. -/

namespace Sys2Proof.Machine

/-- Steps add up. -/
theorem runSteps_add (m n : Nat) (s : State) : runSteps (m + n) s = runSteps n (runSteps m s) := by
  induction m generalizing s with
  | zero => simp [runSteps]
  | succ m ih =>
    rw [Nat.succ_add]
    obtain ⟨t, ht⟩ := step_answers s
    simp only [runSteps, ht]
    exact ih t

/-- With no event the block waits (60_exceptions.md R216). -/
theorem step_no_event {s : State} (h : s.hostInput = []) : step s = .next s := by
  unfold step sequencer
  have : s.waitForHost = s := by unfold State.waitForHost; rw [h]; rfl
  split_ifs
  · unfold discardNext; rw [h]; simp [this]
  · unfold runNext; rw [h]; simp [decode, this]

/-- A step that leaves the state leaves it for good. -/
theorem runSteps_still {s : State} (h : step s = .next s) (n : Nat) : runSteps n s = s := by
  induction n with
  | zero => rfl
  | succ n ih => simp [runSteps, h, ih]

theorem runSteps_no_event {s : State} (h : s.hostInput = []) (n : Nat) : runSteps n s = s :=
  runSteps_still (step_no_event h) n

/-- Without a RESET among the events the block stays in `FAULTED` (60_exceptions.md R208). -/
theorem runSteps_faulted (n : Nat) {s : State} (h : s.mode = .faulted) (hr : HostEvent.reset ∉ s.hostInput) :
    (runSteps n s).mode = .faulted := by
  induction n generalizing s with
  | zero => exact h
  | succ n ih =>
    have : ∃ t, step s = .next t ∧ t.mode = .faulted ∧ HostEvent.reset ∉ t.hostInput := by
      unfold step sequencer
      rw [if_pos h]
      refine ⟨_, rfl, ?_⟩
      unfold discardNext
      split
      · next w es he => exact ⟨h, fun hm => hr (List.mem_of_mem_drop hm)⟩
      · next hne =>
        rcases hs : s.hostInput with _ | ⟨e, es⟩
        · unfold State.waitForHost; rw [hs]; simp [nextSignal, h, hs]
        · cases e with
          | word w => exact absurd hs (hne w es)
          | take =>
            unfold State.waitForHost; rw [hs]; simp [nextSignal, h, withoutSignal]
            rw [hs] at hr; simp at hr; exact hr
          | reset => rw [hs] at hr; simp at hr
    obtain ⟨t, ht, hm, hr'⟩ := this
    simp only [runSteps, ht]
    exact ih hm hr'

/-- A take that comes first acts in every mode (20_memory.md R62). -/
theorem step_take {s : State} {es : List HostEvent} {w : Word} {rs : List Word} (h : s.hostInput = .take :: es)
    (hr : s.results = w :: rs) :
    step s = .next { s with hostInput := es, results := rs, taken := s.taken ++ [w] } := by
  have : s.waitForHost = { s with hostInput := es, results := rs, taken := s.taken ++ [w] } := by
    unfold State.waitForHost; rw [h]; simp [nextSignal, State.takeResult, hr, withoutSignal]
  unfold step sequencer
  split_ifs
  · unfold discardNext; rw [h]; simp [this]
  · unfold runNext; rw [h]; simp [decode, this]

/-- A host operation never resets the block. -/
theorem reset_not_mem_hostEvents (cmds : List Instr) : HostEvent.reset ∉ hostEvents cmds := by
  unfold hostEvents
  simp [List.mem_flatMap, List.mem_replicate]

/-! ## Coming to rest -/

/-- A step leaves the state, or uses at least one event up. -/
theorem step_progress (s : State) :
    step s = .next s ∨ ∃ t, step s = .next t ∧ t.hostInput.length < s.hostInput.length := by
  have hdrop (n : Nat) (h0 : 0 < n) (h : n ≤ s.hostInput.length) :
      (s.hostInput.drop n).length < s.hostInput.length := by rw [List.length_drop]; omega
  obtain ⟨t, ht⟩ := step_answers s
  rcases step_cases ht with rfl | ⟨_, ⟨w, es, he⟩, rfl⟩ | ⟨_, c, w, hd, rfl⟩ | ⟨_, i, rest, hd, _, hx⟩
  · rcases s.waitForHost_cases with e | ⟨hn, e⟩ | ⟨hn, e⟩
    · rw [e] at ht; exact .inl ht
    all_goals
      refine .inr ⟨_, ht, ?_⟩
      rw [e]
      obtain ⟨ws, h | ⟨r, h⟩ | ⟨r, h⟩⟩ := events_split s.hostInput <;> rw [h] at hn ⊢
      · simp at hn
      · simp_all [nextSignal, withoutSignal, afterSignal, State.resetBlock]
      · simp_all [nextSignal, withoutSignal, afterSignal, State.resetBlock]; try omega
  · exact .inr ⟨_, ht, hdrop 1 (by omega) (by simp [he])⟩
  · obtain ⟨r, hr, _, hl⟩ := decode_illegal hd
    have h := arrivedWords_length_le s.hostInput
    rw [hr, List.length_cons] at h
    refine .inr ⟨_, ht, ?_⟩
    rw [State.takeFault_hostInput]
    exact hdrop _ (by omega) (by omega)
  · refine .inr ⟨_, ht, ?_⟩
    rw [exec_hostInput hx]
    exact hdrop _ (by omega) ((decode_command_length hd).trans (arrivedWords_length_le _))

/-- After as many steps as there are events the block is at rest. -/
theorem runSteps_rest {n : Nat} {s : State} (h : s.hostInput.length ≤ n) :
    step (runSteps n s) = .next (runSteps n s) := by
  induction n generalizing s with
  | zero => exact step_no_event (List.length_eq_zero_iff.1 (Nat.le_zero.1 h))
  | succ n ih =>
    rcases step_progress s with hs | ⟨t, ht, hl⟩
    · rw [runSteps_still hs]; exact hs
    · simp only [runSteps, ht]
      exact ih (by omega)

theorem step_settled (s : State) : step s.settled = .next s.settled := runSteps_rest le_rfl

/-- A block at rest stays as it is. -/
theorem settled_of_still {s : State} (h : step s = .next s) : s.settled = s := runSteps_still h _

@[simp] theorem settled_settled (s : State) : s.settled.settled = s.settled := settled_of_still (step_settled s)

@[simp] theorem settled_no_event {s : State} (h : s.hostInput = []) : s.settled = s := settled_of_still (step_no_event h)

/-- On a block with nothing at its command port a run is as many steps as there are events. -/
theorem runEvents_no_event {s : State} (h : s.hostInput = []) (es : List HostEvent) :
    runEvents es s = runSteps es.length { s with hostInput := es } := by
  rw [runEvents, settled_no_event h, State.settled, State.deliver, h, List.nil_append]

@[simp] theorem runEvents_settled (es : List HostEvent) (s : State) : runEvents es s.settled = runEvents es s := by
  rw [runEvents, settled_settled, ← runEvents]

/-- A host operation begins where the block has come to rest. -/
theorem returned_settled (cmds : List Instr) (s : State) : returned cmds s.settled = returned cmds s := by
  simp only [returned, received, perform, runEvents_settled, settled_settled]
  exact if_congr Iff.rfl rfl rfl

/-- An operation all of whose events stand ahead of the RESET returns what it returns without one
(43_host_operations.md R190). -/
theorem returnedBy_cutShort_of_le {cmds : List Instr} {k : Nat} (h : (hostEvents cmds).length ≤ k) (s : State) :
    returnedBy cmds (cutShort cmds k) s = returned cmds s := by
  rw [returnedBy, cutShort, List.take_of_length_le h, if_pos (List.isPrefixOf_iff_prefix.2 (List.prefix_append _ _))]

/-- An operation with an event left behind the RESET returns no buffer (70_reset_and_hazards.md R241). -/
theorem returnedBy_cutShort_of_lt {cmds : List Instr} {k : Nat} (h : k < (hostEvents cmds).length) (s : State) :
    returnedBy cmds (cutShort cmds k) s = none := by
  refine if_neg fun hp => ?_
  have hp := List.isPrefixOf_iff_prefix.1 hp
  have hl : (cutShort cmds k).length = k + 1 := by simp [cutShort, Nat.min_eq_left h.le]
  have he := hp.eq_of_length_le (by omega)
  exact reset_not_mem_hostEvents cmds (he ▸ (by simp [cutShort] : HostEvent.reset ∈ cutShort cmds k))

/-- An operation whose host does nothing else returns what R190 says. -/
@[simp] theorem returnedBy_hostEvents (cmds : List Instr) (s : State) :
    returnedBy cmds (hostEvents cmds) s = returned cmds s :=
  if_pos (List.isPrefixOf_iff_prefix.2 (List.prefix_refl _))

end Sys2Proof.Machine
end

