-- ==== Sys2Proof/Laws/PerInstr.lean ====
section
/-! SUPPORT. Laws stated of every command as a term, one lemma a constructor. -/

namespace Sys2Proof.Laws.CommandLength

/-- A decoder tells the length of a command from its command word alone: `1 + NOPS(OPC)` words (30_encoding.md R85). -/
def Statement (i : Instr) : Prop := ∀ w ∈ (encode i).head?, (encode i).length = 1 + nops (opcOf w)

theorem cfgWr (sel : Byte) (op0 : Word) : Statement (.cfgWr sel op0) := by
  simp [Statement, encode, Instr.operands, Instr.opc, nops]

theorem cfgRd (sel : Byte) : Statement (.cfgRd sel) := by
  simp [Statement, encode, Instr.operands, Instr.opc, nops]

theorem beginCall (stereo i16 : Bool) (op0 : Word) : Statement (.beginCall stereo i16 op0) := by
  simp [Statement, encode, Instr.operands, Instr.opc, nops]

theorem push (op0 : Word) : Statement (.push op0) := by
  simp [Statement, encode, Instr.operands, Instr.opc, nops]

theorem push2 (op0 op1 : Word) : Statement (.push2 op0 op1) := by
  simp [Statement, encode, Instr.operands, Instr.opc, nops]

theorem endCall : Statement .endCall := by
  simp [Statement, encode, Instr.operands, Instr.opc, nops]

end Sys2Proof.Laws.CommandLength
end

