-- ==== Sys2Proof/Laws/Range.lean ====
section
/-! SUPPORT. Order of values, and the stages on values in [-1, 1] (40_datapath_stages.md R129, R130). -/

namespace Sys2Proof.Machine

/-! ## Order -/

theorem signedMag_natAbs (n : Bool) (m : Nat) : (signedMag n m).natAbs = m := by
  unfold signedMag; split_ifs <;> simp

theorem signedMag_not (n : Bool) (m : Nat) : signedMag (!n) m = -signedMag n m := by
  cases n <;> simp [signedMag]

theorem F64.one_eq : F64.one = .fin false F64.unit := rfl

/-- The values in [-1, 1] are the finite ones of magnitude at most 1. -/
theorem F64.inUnit_iff {v : F64} : v.inUnit = true ↔ ∃ n m, v = .fin n m ∧ m ≤ F64.unit := by
  have hb := F64.unit_lt_beyond
  constructor
  · intro h
    cases v with
    | nan => simp [F64.inUnit, F64.le, F64.key] at h
    | inf n => cases n <;> simp [F64.inUnit, F64.le, F64.key, F64.one, F64.neg, signedMag] at h <;> omega
    | fin n m =>
      refine ⟨n, m, rfl, ?_⟩
      cases n <;> simp [F64.inUnit, F64.le, F64.key, F64.one, F64.neg, signedMag] at h <;> omega
  · rintro ⟨n, m, rfl, hm⟩
    cases n <;> simp [F64.inUnit, F64.le, F64.key, F64.one, F64.neg, signedMag] <;> omega

theorem F64.inUnit_fin {n : Bool} {m : Nat} (h : m ≤ F64.unit) : (F64.fin n m).inUnit = true :=
  F64.inUnit_iff.mpr ⟨n, m, rfl, h⟩

/-- A positive value that is at most 1. -/
theorem F64.pos_le_one {v : F64} (h0 : F64.zero.lt v = true) (h1 : v.le F64.one = true) :
    ∃ m, v = .fin false m ∧ 0 < m ∧ m ≤ F64.unit := by
  have hb := F64.unit_lt_beyond
  cases v with
  | nan => simp [F64.lt, F64.key, F64.zero] at h0
  | inf n => cases n <;> simp [F64.lt, F64.le, F64.key, F64.zero, F64.one, signedMag] at h0 h1 <;> omega
  | fin n m =>
    cases n <;> simp [F64.lt, F64.le, F64.key, F64.zero, F64.one, signedMag] at h0 h1
    · exact ⟨m, rfl, h0, h1⟩
    · omega

/-- A value in [0, 1]. -/
theorem F64.nonneg_le_one {v : F64} (h0 : F64.zero.le v = true) (h1 : v.le F64.one = true) :
    ∃ n m, v = .fin n m ∧ (n = true → m = 0) ∧ m ≤ F64.unit := by
  have hb := F64.unit_lt_beyond
  cases v with
  | nan => simp [F64.le, F64.key, F64.zero] at h0
  | inf n => cases n <;> simp [F64.le, F64.key, F64.zero, F64.one, signedMag] at h0 h1 <;> omega
  | fin n m =>
    cases n <;> simp [F64.le, F64.key, F64.zero, F64.one, signedMag] at h0 h1
    · exact ⟨false, m, rfl, by simp, h1⟩
    · exact ⟨true, m, rfl, fun _ => by omega, by omega⟩

/-- A positive finite value. -/
theorem F64.pos_finite {v : F64} (h0 : F64.zero.lt v = true) (h1 : v.isFinite = true) :
    ∃ m, v = .fin false m ∧ 0 < m := by
  cases v with
  | nan => simp [F64.isFinite] at h1
  | inf n => simp [F64.isFinite] at h1
  | fin n m =>
    cases n <;> simp [F64.lt, F64.key, F64.zero, signedMag] at h0
    · exact ⟨m, rfl, h0⟩
    · omega

/-- What the output clamp yields lies in [-1, 1] (40_datapath_stages.md R126, R129). -/
theorem clamp1_inUnit {v : F64} (h : v.isNaN = false) : (clamp1 v).inUnit = true := by
  have hb := F64.unit_lt_beyond
  unfold clamp1
  split_ifs with h1 h2
  · exact F64.inUnit_fin le_rfl
  · exact F64.inUnit_fin le_rfl
  · cases v with
    | nan => simp [F64.isNaN] at h
    | inf n => cases n <;> simp [F64.lt, F64.key, F64.one, F64.neg, signedMag] at h1 h2 <;> omega
    | fin n m =>
      refine F64.inUnit_fin ?_
      cases n <;> simp [F64.lt, F64.key, F64.one, F64.neg, signedMag] at h1 h2 <;> omega

theorem clamp1_ok {v : F64} (h : v.ok = true) : (clamp1 v).ok = true := by
  unfold clamp1; split_ifs <;> simp_all

theorem F64.not_isNaN_of_inUnit {v : F64} (h : v.inUnit = true) : v.isNaN = false := by
  obtain ⟨n, m, rfl, _⟩ := F64.inUnit_iff.mp h; rfl

/-! ## Rounding below a bound -/

/-- A result whose exact magnitude is at most a finite representable one is finite and at most that. -/
theorem F64.round_le {n : Bool} {num den r : Nat} (hd : 0 < den) (hr : F64.magOk r = true) (h : num ≤ r * den) :
    ∃ m, F64.round n num den = .fin n m ∧ m ≤ r := by
  obtain ⟨hrep, hlt⟩ := F64.magOk_iff.mp hr
  have hle := F64.roundMag_le hd hrep h
  refine ⟨_, ?_, hle⟩
  unfold F64.round F64.ofMag
  rw [if_pos (by omega)]

theorem F64.unit_magOk : F64.magOk F64.unit = true := F64.magOk_iff.mpr ⟨F64.rep_unit, F64.unit_lt_beyond⟩

theorem F64.mul_unit_magOk {n : Nat} (h : n < 2 ^ 53) : F64.magOk (n * F64.unit) = true :=
  F64.magOk_iff.mpr ⟨Rep.mul_unit h, F64.mul_unit_lt_beyond h (by omega)⟩

/-! ## Quantizer and clipper -/

/-- The integer the quantizer's `roundInt` yields for a magnitude. -/
theorem roundInt_fin (tie : RoundTie) (n : Bool) (m : Nat) :
    ∃ k, (F64.fin n m).roundInt tie = .fin n (k * F64.unit) ∧ ∀ N, m ≤ N * F64.unit → k ≤ N := by
  refine ⟨_, rfl, fun N h => ?_⟩
  have h1 : m / F64.unit ≤ N := Nat.div_le_of_le_mul (by rwa [Nat.mul_comm])
  split_ifs with hup
  · rcases Nat.lt_or_eq_of_le h1 with h2 | h2
    · exact h2
    · exfalso
      have h3 : m % F64.unit = 0 := by
        have h4 := Nat.div_add_mod m F64.unit
        rw [h2, Nat.mul_comm] at h4
        omega
      rw [h3] at hup
      unfold roundsUp at hup
      rw [if_pos (by simpa using F64.unit_pos)] at hup
      exact absurd hup (by simp)
  · exact h1

/-- The quantizer on [-1, 1]: a level `k / STEPS`, its sign kept (40_datapath_stages.md R116, R117). -/
theorem quant_level (tie : RoundTie) {steps : Word} (h1 : 1 ≤ steps.toNat) (h2 : steps.toNat < 2 ^ 53) {n : Bool}
    {m : Nat} (hm : m ≤ F64.unit) :
    ∃ k, k ≤ steps.toNat ∧
      quant tie steps (.fin n m) = F64.round n (k * F64.unit * F64.unit) (steps.toNat * F64.unit) := by
  have hpos : steps.toNat * F64.unit ≠ 0 := Nat.mul_ne_zero (by omega) F64.unit_pos.ne'
  unfold quant
  rw [F64.ofNat_eq h2]
  simp only [F64.mul, Bool.xor_false]
  obtain ⟨r, hr, hrle⟩ := F64.round_le (n := n) (num := m * (steps.toNat * F64.unit)) F64.unit_pos
    (F64.mul_unit_magOk h2) (by rw [Nat.mul_comm]; exact Nat.mul_le_mul_left _ hm)
  rw [hr]
  obtain ⟨k, hk, hkle⟩ := roundInt_fin tie n r
  rw [hk]
  refine ⟨k, hkle _ hrle, ?_⟩
  simp only [F64.div, if_neg hpos, Bool.xor_false]

theorem quant_inUnit (tie : RoundTie) {steps : Word} (h1 : 1 ≤ steps.toNat) (h2 : steps.toNat < 2 ^ 53) {h : F64}
    (hu : h.inUnit = true) : (quant tie steps h).inUnit = true := by
  obtain ⟨n, m, rfl, hm⟩ := F64.inUnit_iff.mp hu
  obtain ⟨k, hk, he⟩ := quant_level tie h1 h2 (n := n) hm
  obtain ⟨r, hr, hrle⟩ := F64.round_le (n := n) (num := k * F64.unit * F64.unit) (den := steps.toNat * F64.unit)
    (Nat.mul_pos h1 F64.unit_pos) F64.unit_magOk
    (by rw [Nat.mul_comm F64.unit]; exact Nat.mul_le_mul_right _ (Nat.mul_le_mul_right _ hk))
  rw [he, hr]
  exact F64.inUnit_fin hrle

theorem quant_ok (tie : RoundTie) (steps : Word) (h : F64) : (quant tie steps h).ok = true := F64.div_ok _ _

theorem hclip_inUnit {t q : F64} (h0 : F64.zero.lt t = true) (h1 : t.le F64.one = true) (hq : q.inUnit = true) :
    (hclip t q).inUnit = true := by
  obtain ⟨mt, rfl, hpos, hle⟩ := F64.pos_le_one h0 h1
  unfold hclip
  split_ifs
  · exact F64.inUnit_fin hle
  · exact F64.inUnit_fin hle
  · exact hq

theorem hclip_ok {t q : F64} (ht : t.ok = true) (hq : q.ok = true) : (hclip t q).ok = true := by
  unfold hclip; split_ifs <;> simp_all

theorem clipStage_ok {en : Word} {t q : F64} (ht : t.ok = true) (hq : q.ok = true) : (clipStage en t q).ok = true := by
  unfold clipStage; split_ifs
  · exact hclip_ok ht hq
  · exact hq

/-! ## Low-pass filter -/

/-- A number at most half a unit in the last place above 1.0 rounds to at most 1.0. -/
theorem F64.roundMag_near_one {j : Nat} (h : 2 * j ≤ 2 * F64.unit + 2 ^ (F64.unitExp - 52)) :
    F64.roundMag j 1 ≤ F64.unit := by
  rcases Nat.lt_or_ge F64.unit j with hj | hj
  · have hE : F64.unitExp = 1074 := F64.unitExp_eq
    have hU : F64.unit = 2 ^ 52 * 2 ^ (F64.unitExp - 52) := by
      rw [F64.unit_eq, ← Nat.pow_add]; congr 1; omega
    have hp : 0 < 2 ^ (F64.unitExp - 52) := Nat.two_pow_pos _
    have hlog : F64.ulpExp j = F64.unitExp - 52 := by
      unfold F64.ulpExp
      have : j.log2 = F64.unitExp := by
        rw [Nat.log2_eq_iff (by omega)]
        refine ⟨hj.le, ?_⟩
        have : 2 ^ (F64.unitExp + 1) = 2 * F64.unit := by rw [Nat.pow_succ, Nat.mul_comm]; rfl
        omega
      rw [this]
    have hs := roundHalfEven_spec j hp
    unfold F64.roundMag
    dsimp only
    rw [Nat.div_one, Nat.one_mul, hlog]
    have hR : roundHalfEven j (2 ^ (F64.unitExp - 52)) ≤ 2 ^ 52 := by
      by_contra hc
      have h1 : (2 ^ 52 + 1) * 2 ^ (F64.unitExp - 52) ≤
          roundHalfEven j (2 ^ (F64.unitExp - 52)) * 2 ^ (F64.unitExp - 52) := Nat.mul_le_mul_right _ (by omega)
      rw [Nat.add_mul, Nat.one_mul, ← hU] at h1
      have h2 := hs.2.2.2 (by omega)
      have h3 : roundHalfEven j (2 ^ (F64.unitExp - 52)) < 2 ^ 52 + 2 := by
        by_contra hc2
        have h4 : (2 ^ 52 + 2) * 2 ^ (F64.unitExp - 52) ≤
            roundHalfEven j (2 ^ (F64.unitExp - 52)) * 2 ^ (F64.unitExp - 52) := Nat.mul_le_mul_right _ (by omega)
        rw [Nat.add_mul, ← hU] at h4
        omega
      omega
    calc _ ≤ 2 ^ 52 * 2 ^ (F64.unitExp - 52) := Nat.mul_le_mul_right _ hR
      _ = F64.unit := hU.symm
  · exact F64.roundMag_le (by omega) F64.rep_unit (by omega)

/-- Rounding a number up to 2.0 moves it by at most half of the unit in the last place of 1.0. -/
theorem F64.roundMag_error {w : Nat} (h : w ≤ 2 * F64.unit) :
    2 * F64.roundMag w 1 ≤ 2 * w + 2 ^ (F64.unitExp - 52) := by
  have hE : F64.unitExp = 1074 := F64.unitExp_eq
  have h2U : 2 * F64.unit = 2 ^ (F64.unitExp + 1) := by rw [Nat.pow_succ, Nat.mul_comm]; rfl
  rcases Nat.lt_or_eq_of_le h with hlt | heq
  · have hexp : F64.ulpExp w ≤ F64.unitExp - 52 := by
      unfold F64.ulpExp
      rcases Nat.eq_zero_or_pos w with rfl | hw
      · simp [Nat.log2_zero]
      · have : w.log2 < F64.unitExp + 1 := (Nat.log2_lt (by omega)).mpr (by omega)
        omega
    have hs := (roundHalfEven_spec w (Nat.two_pow_pos (F64.ulpExp w))).1
    have hp : 2 ^ F64.ulpExp w ≤ 2 ^ (F64.unitExp - 52) := Nat.pow_le_pow_right (by omega) hexp
    unfold F64.roundMag
    dsimp only
    rw [Nat.div_one, Nat.one_mul]
    omega
  · have hrep : Rep w := ⟨1, F64.unitExp + 1, by norm_num, by rw [heq, h2U, Nat.one_mul]⟩
    have hle : F64.roundMag w 1 ≤ w := F64.roundMag_le (by omega) hrep (by omega)
    exact le_trans (Nat.mul_le_mul_left 2 hle) (Nat.le_add_right _ _)

/-- A step of the filter towards a value in [-1, 1] stays in [-1, 1]: the core of 40_datapath_stages.md R130. -/
theorem filter_step_bound {S X : Int} {E : Nat} (hS : S.natAbs ≤ F64.unit) (hX : X.natAbs ≤ F64.unit) (hlt : S < X)
    (hE : E ≤ F64.roundMag (X - S).natAbs 1) : F64.roundMag (S + E).natAbs 1 ≤ F64.unit := by
  rcases Int.lt_or_le (S + E) 0 with hneg | hpos
  · exact F64.roundMag_le (by omega) F64.rep_unit (by omega)
  · apply F64.roundMag_near_one
    have hmono : F64.roundMag (X - S).natAbs 1 ≤ F64.roundMag ((F64.unit : Int) - S).natAbs 1 :=
      F64.roundMag_mono (by omega) (by omega) (by omega)
    have herr := F64.roundMag_error (w := ((F64.unit : Int) - S).natAbs) (by omega)
    omega

theorem lpf_inUnit {a st x : F64} (ha0 : F64.zero.le a = true) (ha1 : a.le F64.one = true)
    (hst : st.inUnit = true) (hsok : st.ok = true) (hx : x.inUnit = true) : (lpf a st x).inUnit = true := by
  obtain ⟨na, A, rfl, hna, hA⟩ := F64.nonneg_le_one ha0 ha1
  obtain ⟨ns, ms, rfl, hms⟩ := F64.inUnit_iff.mp hst
  obtain ⟨nx, mx, rfl, hmx⟩ := F64.inUnit_iff.mp hx
  have hsrep := (F64.magOk_iff.mp hsok).1
  have hUb := F64.unit_lt_beyond
  -- adding a finite `e` of magnitude E with sign `ne` to the state
  have hadd : ∀ (ne : Bool) (E : Nat), F64.roundMag (signedMag ns ms + signedMag ne E).natAbs 1 ≤ F64.unit →
      ((F64.fin ns ms).add (.fin ne E)).inUnit = true := by
    intro ne E h
    simp only [F64.add]
    split_ifs with h0
    · exact F64.inUnit_fin (by omega)
    · unfold F64.round F64.ofMag
      rw [if_pos (by omega)]
      exact F64.inUnit_fin h
  have hsame : F64.roundMag (signedMag ns ms + 0).natAbs 1 ≤ F64.unit := by
    rw [Int.add_zero, signedMag_natAbs]
    exact F64.roundMag_le (by omega) F64.rep_unit (by omega)
  unfold lpf
  dsimp only
  simp only [F64.sub, F64.neg]
  by_cases h0 : signedMag nx mx + signedMag (!ns) ms = 0
  · simp only [F64.add, if_pos h0, F64.mul, Nat.mul_zero]
    have : F64.round (na ^^ (nx && !ns)) 0 F64.unit = .fin (na ^^ (nx && !ns)) 0 := by
      unfold F64.round F64.ofMag; rw [F64.roundMag_zero, if_pos F64.beyond_pos]
    rw [this]
    refine hadd _ _ ?_
    have : signedMag (na ^^ (nx && !ns)) 0 = 0 := by unfold signedMag; split_ifs <;> rfl
    rw [this]; exact hsame
  · rw [signedMag_not] at h0
    have hd : (F64.fin nx mx).add (.fin (!ns) ms) = F64.round
        (decide (signedMag nx mx - signedMag ns ms < 0)) (signedMag nx mx - signedMag ns ms).natAbs 1 := by
      simp only [F64.add, signedMag_not]
      rw [if_neg h0, ← Int.sub_eq_add_neg]
    rw [hd]
    set S := signedMag ns ms with hS
    set X := signedMag nx mx with hX
    have hSabs : S.natAbs ≤ F64.unit := by rw [hS, signedMag_natAbs]; exact hms
    have hXabs : X.natAbs ≤ F64.unit := by rw [hX, signedMag_natAbs]; exact hmx
    set D := F64.roundMag (X - S).natAbs 1 with hD
    have hDrep : Rep D := F64.roundMag_rep _ (by omega)
    have h2Urep : Rep (2 * F64.unit) := Rep.mul_unit (by norm_num)
    have hD2 : D ≤ 2 * F64.unit := F64.roundMag_le (by omega) h2Urep (by omega)
    have h2U : 2 * F64.unit < F64.beyond := F64.mul_unit_lt_beyond (n := 2) (k := 2) (by norm_num) (by omega)
    have hdf : F64.round (decide (X - S < 0)) (X - S).natAbs 1 = .fin (decide (X - S < 0)) D := by
      unfold F64.round F64.ofMag; rw [if_pos (by omega)]
    rw [hdf]
    simp only [F64.mul]
    obtain ⟨E, hE, hED⟩ := F64.round_le (n := na ^^ decide (X - S < 0)) (num := A * D) F64.unit_pos
      (F64.magOk_iff.mpr ⟨hDrep, by omega⟩) (by rw [Nat.mul_comm]; exact Nat.mul_le_mul_left _ hA)
    rw [hE]
    refine hadd _ _ ?_
    -- a negative coefficient is a zero: then E = 0
    by_cases hneg : na = true
    · have hA0 := hna hneg
      have hE0 : E = 0 := by
        rw [hA0, Nat.zero_mul] at hE
        unfold F64.round F64.ofMag at hE
        rw [F64.roundMag_zero, if_pos F64.beyond_pos] at hE
        exact (F64.fin.inj hE).2.symm
      have : signedMag (na ^^ decide (X - S < 0)) E = 0 := by rw [hE0]; unfold signedMag; split_ifs <;> rfl
      rw [this]; exact hsame
    · rw [Bool.not_eq_true] at hneg
      rw [hneg, Bool.false_xor]
      rcases lt_trichotomy S X with hlt | heq | hgt
      · have : signedMag (decide (X - S < 0)) E = E := by
          unfold signedMag; rw [if_neg (by simp; omega)]
        rw [this]
        exact filter_step_bound hSabs hXabs hlt hED
      · omega
      · have : signedMag (decide (X - S < 0)) E = -(E : Int) := by
          unfold signedMag; rw [if_pos (by simp; omega)]
        rw [this]
        have hh := filter_step_bound (S := -S) (X := -X) (E := E) (by omega) (by omega) (by omega)
          (by rw [show (-X - -S).natAbs = (X - S).natAbs by omega]; exact hED)
        rwa [show (-S + (E : Int)).natAbs = (S + -(E : Int)).natAbs by omega] at hh

/-! ## Mixer -/

/-- The mixed value of values in [-1, 1] under a blend in [0, 1] is finite. -/
theorem mixStage_finite {m p d : F64} (hm0 : F64.zero.le m = true) (hm1 : m.le F64.one = true)
    (hp : p.inUnit = true) (hd : d.inUnit = true) : (mixStage m p d).isFinite = true := by
  obtain ⟨nm, M, rfl, hnm, hM⟩ := F64.nonneg_le_one hm0 hm1
  obtain ⟨np, mp, rfl, hmp⟩ := F64.inUnit_iff.mp hp
  obtain ⟨nd, md, rfl, hmd⟩ := F64.inUnit_iff.mp hd
  have h2U : 2 * F64.unit < F64.beyond := F64.mul_unit_lt_beyond (n := 2) (k := 2) (by norm_num) (by omega)
  have h2Urep : Rep (2 * F64.unit) := Rep.mul_unit (by norm_num)
  have h2Uok : F64.magOk (2 * F64.unit) = true := F64.magOk_iff.mpr ⟨h2Urep, h2U⟩
  -- a sum of two magnitudes at most 1 is finite; of 1 and at most 1 it is at most 2
  have hadd : ∀ (n n' : Bool) (m m' : Nat), m ≤ F64.unit → m' ≤ F64.unit →
      ∃ k r, (F64.fin n m).add (.fin n' m') = .fin k r ∧ r ≤ 2 * F64.unit := by
    intro n n' m m' h h'
    simp only [F64.add]
    split_ifs with h0
    · exact ⟨_, 0, rfl, by omega⟩
    · have hs : (signedMag n m + signedMag n' m').natAbs ≤ 2 * F64.unit := by
        have h1 := signedMag_natAbs n m
        have h2 := signedMag_natAbs n' m'
        omega
      obtain ⟨r, hr, hle⟩ := F64.round_le (n := decide (signedMag n m + signedMag n' m' < 0)) (den := 1) (by omega)
        h2Uok (by omega : (signedMag n m + signedMag n' m').natAbs ≤ 2 * F64.unit * 1)
      exact ⟨_, r, hr, hle⟩
  have hmul : ∀ (n n' : Bool) (m m' : Nat), m ≤ F64.unit → m' ≤ F64.unit →
      ∃ r, (F64.fin n m).mul (.fin n' m') = .fin (n ^^ n') r ∧ r ≤ F64.unit := by
    intro n n' m m' h h'
    exact F64.round_le F64.unit_pos F64.unit_magOk (Nat.mul_le_mul h h')
  unfold mixStage
  dsimp only
  obtain ⟨r1, e1, l1⟩ := hmul np nm mp M hmp hM
  -- 1 - m lies in [0, 1]
  have hsub : ∃ k r, F64.one.sub (.fin nm M) = .fin k r ∧ r ≤ F64.unit := by
    unfold F64.sub
    simp only [F64.one, F64.neg, F64.add]
    split_ifs with h0
    · exact ⟨_, 0, rfl, by omega⟩
    · have hs : (signedMag false F64.unit + signedMag (!nm) M).natAbs ≤ F64.unit := by
        rw [signedMag_not]
        have : signedMag nm M = M := by
          unfold signedMag; split_ifs with hn
          · simp [hnm hn]
          · rfl
        rw [this]
        simp only [signedMag, Bool.false_eq_true, if_false]
        omega
      obtain ⟨r, hr, hle⟩ := F64.round_le
        (n := decide (signedMag false F64.unit + signedMag (!nm) M < 0)) (den := 1) (by omega)
        F64.unit_magOk (by omega : (signedMag false F64.unit + signedMag (!nm) M).natAbs ≤ F64.unit * 1)
      exact ⟨_, r, hr, hle⟩
  obtain ⟨k2, r2, e2, l2⟩ := hsub
  obtain ⟨r3, e3, l3⟩ := hmul nd k2 md r2 hmd l2
  obtain ⟨k4, r4, e4, _⟩ := hadd (np ^^ nm) (nd ^^ k2) r1 r3 l1 l3
  rw [e1, e2, e3, e4]
  rfl

/-! ## Fold-down -/

theorem fold_inUnit {l r : F64} (hl : l.inUnit = true) (hr : r.inUnit = true) : (fold l r).inUnit = true := by
  obtain ⟨nl, ml, rfl, hml⟩ := F64.inUnit_iff.mp hl
  obtain ⟨nr, mr, rfl, hmr⟩ := F64.inUnit_iff.mp hr
  have h2Uok : F64.magOk (2 * F64.unit) = true := F64.mul_unit_magOk (by norm_num)
  have hsum : ∃ k m, (F64.fin nl ml).add (.fin nr mr) = .fin k m ∧ m ≤ 2 * F64.unit := by
    simp only [F64.add]
    split_ifs with h0
    · exact ⟨_, 0, rfl, by omega⟩
    · have h1 := signedMag_natAbs nl ml
      have h2 := signedMag_natAbs nr mr
      obtain ⟨m, hm, hle⟩ := F64.round_le (n := decide (signedMag nl ml + signedMag nr mr < 0)) (den := 1) (by omega)
        h2Uok (by omega : (signedMag nl ml + signedMag nr mr).natAbs ≤ 2 * F64.unit * 1)
      exact ⟨_, m, hm, hle⟩
  obtain ⟨k, m, hs, hm⟩ := hsum
  unfold fold
  rw [hs, F64.ofInt_eq (by decide)]
  have hne : (2 : Int).natAbs * F64.unit ≠ 0 := Nat.mul_ne_zero (by decide) F64.unit_pos.ne'
  simp only [F64.div, if_neg hne]
  obtain ⟨q, hq, hle⟩ := F64.round_le (n := k ^^ decide ((2 : Int) < 0)) (num := m * F64.unit)
    (den := (2 : Int).natAbs * F64.unit) (Nat.pos_of_ne_zero hne) F64.unit_magOk
    (by rw [Nat.mul_comm F64.unit]; exact Nat.mul_le_mul_right _ hm)
  rw [hq]
  exact F64.inUnit_fin hle

/-- The fold-down of finite samples is never a NaN (40_datapath_stages.md R130). -/
theorem fold_not_nan {l r : F64} (hl : l.isFinite = true) (hr : r.isFinite = true) : (fold l r).isNaN = false := by
  cases l <;> cases r <;> simp [F64.isFinite] at hl hr
  have hne : (2 : Int).natAbs * F64.unit ≠ 0 := Nat.mul_ne_zero (by decide) F64.unit_pos.ne'
  unfold fold
  rw [F64.ofInt_eq (by decide)]
  simp only [F64.add]
  split_ifs
  · simp only [F64.div, if_neg hne, F64.round_isNaN]
  · unfold F64.round F64.ofMag
    split_ifs
    · simp only [F64.div, if_neg hne, F64.round_isNaN]
    · rfl

theorem fold_ok (l r : F64) : (fold l r).ok = true := F64.div_ok _ _

/-- What a frame loads at an update instant is a value that is not a NaN (40_datapath_stages.md R130). -/
theorem frameLoad_not_nan {s : State} {dL dR own : F64} (hL : dL.isFinite = true) (hR : dR.isFinite = true)
    (hf : own.isFinite = true) (ho : own.ok = true) :
    (s.frameLoad dL dR own).ok = true ∧ (s.frameLoad dL dR own).isNaN = false := by
  unfold State.frameLoad
  split_ifs
  · exact ⟨fold_ok _ _, fold_not_nan hL hR⟩
  · exact ⟨ho, F64.isNaN_of_isFinite hf⟩

theorem frameLoad_inUnit {s : State} {dL dR own : F64} (hL : dL.inUnit = true) (hR : dR.inUnit = true)
    (hi : own.inUnit = true) (ho : own.ok = true) :
    (s.frameLoad dL dR own).inUnit = true ∧ (s.frameLoad dL dR own).ok = true := by
  unfold State.frameLoad
  split_ifs
  · exact ⟨fold_inUnit hL hR, fold_ok _ _⟩
  · exact ⟨hi, ho⟩

/-! ## A time step of a call in range -/

/-- What a time step uses of an accepted configuration (42_call_and_config.md R173). -/
structure State.StageBounds (s : State) : Prop where
  stepsLow : 1 ≤ s.steps.toNat
  stepsHigh : s.steps.toNat < 2 ^ 53
  mixLow : F64.zero.le (F64.ofBits s.mix) = true
  mixHigh : (F64.ofBits s.mix).le F64.one = true
  threshold : s.clipEn = 1 →
    F64.zero.lt (F64.ofBits s.clipThresh) = true ∧ (F64.ofBits s.clipThresh).le F64.one = true

theorem State.Inv.bounds {s : State} (hI : s.Inv) (ha : s.active) : s.StageBounds := by
  have hl := hI.legal ha
  simp only [State.cfgOk, Bool.and_eq_true, Bool.or_eq_true, decide_eq_true_eq, beq_iff_eq] at hl
  obtain ⟨⟨⟨⟨⟨⟨⟨h1, h2⟩, -⟩, -⟩, h5⟩, -⟩, -⟩, h8⟩ := hl
  have e := stepsOf_toNat h2
  have h3 : 2 ^ s.bitdepth.toNat ≤ 2 ^ 16 := Nat.pow_le_pow_right (by omega) h2
  have h4 : 2 ^ 1 ≤ 2 ^ s.bitdepth.toNat := Nat.pow_le_pow_right (by omega) h1
  rw [← hI.stepsValue ha] at e
  refine ⟨by omega, by omega, h5.1, h5.2, fun h => ?_⟩
  rw [h] at h8
  exact h8.resolve_left (by decide)

theorem toBits_inUnit {v : F64} (h : v.ok = true) (hv : v.inUnit = true) : (F64.ofBits v.toBits).inUnit = true := by
  rwa [F64.ofBits_toBits h (F64.not_isNaN_of_inUnit hv)]

theorem processed_inUnit {s : State} {tie : RoundTie} {h st : F64} (c : s.StageBounds) (hr : s.InRange)
    (hh : h.inUnit = true) (hst : st.inUnit = true) (hok : st.ok = true) : (s.processed tie h st).inUnit = true := by
  have hq := quant_inUnit tie c.stepsLow c.stepsHigh hh
  have hc : (clipStage s.clipEn (F64.ofBits s.clipThresh) (quant tie s.steps h)).inUnit = true := by
    unfold clipStage
    split_ifs with he
    · exact hclip_inUnit (c.threshold he).1 (c.threshold he).2 hq
    · exact hq
  unfold State.processed
  dsimp only
  split_ifs
  · exact lpf_inUnit hr.alphaLow hr.alphaHigh hst hok hc
  · exact hc

theorem holdUpdate_inUnit {p : Word} {d held : F64} (hd : d.inUnit = true) (hh : held.inUnit = true) :
    (holdUpdate p held d).inUnit = true := by unfold holdUpdate; split_ifs <;> assumption

theorem mixed_not_nan {s : State} {tie : RoundTie} {h d st : F64} (c : s.StageBounds) (hr : s.InRange)
    (hh : h.inUnit = true) (hd : d.inUnit = true) (hst : st.inUnit = true) (hok : st.ok = true) :
    (s.mixed tie h d st).isNaN = false :=
  F64.isNaN_of_isFinite (mixStage_finite c.mixLow c.mixHigh (processed_inUnit c hr hh hst hok) hd)

theorem filtNext_inUnit {s : State} {tie : RoundTie} {h : F64} {st : Word} (c : s.StageBounds) (hr : s.InRange)
    (hh : h.inUnit = true) (hst : (F64.ofBits st).inUnit = true) :
    (F64.ofBits (s.filtNext tie h st)).inUnit = true := by
  unfold State.filtNext
  split_ifs
  · exact toBits_inUnit (processed_ok ..) (processed_inUnit c hr hh hst (F64.ofBits_ok _))
  · exact hst

theorem holdNext_inUnit {s : State} {d : F64} {w : Word} (hd : d.inUnit = true) (ho : d.ok = true)
    (hw : (F64.ofBits w).inUnit = true) : (F64.ofBits (s.holdNext d w)).inUnit = true := by
  unfold State.holdNext
  split_ifs
  · exact toBits_inUnit ho hd
  · exact hw

end Sys2Proof.Machine
end

