-- ==== Sys2Proof/Tests/Slice0.lean ====
section
/-! SUPPORT. Tests: the smoke test of WellFormed, words written out from 30_encoding.md, one step of each command on
the vectors of 95_test_vectors.md, and a witness for the hypotheses of each statement. -/

namespace Sys2Proof.Tests

open Sys2Proof Sys2Proof.Machine

/-! ## Helpers -/

/-- The state after reset with these words and signals of the host at the port. -/
def hosted (es : List HostEvent) : State := { State.reset with hostInput := es }

/-- The next state of an outcome. -/
def after (o : Host.Outcome State Fault Refusal) : Option State :=
  match o with
  | .next t => some t
  | _ => none

theorem of_after {o : Host.Outcome State Fault Refusal} {m : Mode} (h : (after o).map (·.mode) = some m) :
    ∃ t, o = .next t ∧ t.mode = m := by cases o <;> simp_all [after]

/-- The configuration of 95_test_vectors.md program P4. -/
def cfgP4 : State :=
  { State.reset with
    bitdepth := 4, srrFactor := 2, mix := 0x3FE0000000000000, lpfEn := 1, lpfCutoff := 0x40AF400000000000, clipEn := 1,
    clipThresh := 0x3FE0000000000000 }

/-- P4 after its `BEGIN.mono.i16 44100.0`. -/
def callP4 : State := cfgP4.begun false true 0x40E5888000000000

/-- A mono binary64 call at `BITDEPTH = 1`, `SRR_FACTOR = 1` (program P1). -/
def callP1 : State := State.begun { State.reset with bitdepth := 1, srrFactor := 1 } false false 0x40E5888000000000

/-- A stereo binary64 call at `BITDEPTH = 16`, `SRR_FACTOR = 1` with fold-down (program P2). -/
def callP2 : State :=
  State.begun { State.reset with bitdepth := 16, srrFactor := 1, downmixEn := 1 } true false 0x40E5888000000000

/-- A stereo binary64 call on the reset configuration (fold-down off). -/
def callStereo : State := State.begun State.reset true false 0x40E7700000000000

/-- A block in `FAULTED` (95_test_vectors.md row F10). -/
def faulted : State := State.reset.takeFault .sequence 0x06 0x00

/-- A filtered mono call in the middle: two samples in, at phase 1 (values of 95_test_vectors.md 2.7). -/
def midCall : State :=
  { State.begun { State.reset with lpfEn := 1, lpfCutoff := 0x408F400000000000 } false false 0x40E5888000000000 with
    phase := 1, holdL := 0x3FF0000000000000, filtL := 0x3FBFECDCBB3152A9 }

/-! ## WellFormed refuses -/

theorem test_ill_cfgWr_unassigned : (Instr.cfgWr 0x08 0).wellFormed = false := by decide
theorem test_ill_cfgWr_window : (Instr.cfgWr 0x10 0).wellFormed = false := by decide
theorem test_ill_cfgRd_below_window : (Instr.cfgRd 0x0F).wellFormed = false := by decide
theorem test_ill_cfgRd_above_window : (Instr.cfgRd 0x18).wellFormed = false := by decide

/-! ## Decoding words written out from 30_encoding.md R80, R86 to R90 -/

/-- RSV = 0, ARG = 00000110, OPC = 00000001: `CFG_WR CLIP_THRESH`. -/
theorem test_decode_cfgWr :
    decode [0b0000011000000001#64, 0x3FE0000000000000#64] = .command (.cfgWr 0x06 0x3FE0000000000000) [] := by decide
/-- RSV = 0, ARG = 00010111, OPC = 00000010: `CFG_RD HOLD_R`. -/
theorem test_decode_cfgRd : decode [0b0001011100000010#64, 7#64] = .command (.cfgRd 0x17) [7] := by decide
/-- RSV = 0, ARG = 00000010 (I16 set, STEREO clear), OPC = 00000011. -/
theorem test_decode_begin :
    decode [0b0000001000000011#64, 0x40E5888000000000#64] =
      .command (.beginCall false true 0x40E5888000000000) [] := by decide
/-- RSV = 0, ARG = 00000001 (STEREO set, I16 clear), OPC = 00000011. -/
theorem test_decode_begin_stereo :
    decode [0b0000000100000011#64, 1#64] = .command (.beginCall true false 1) [] := by decide
theorem test_decode_push : decode [0b0000000000000100#64, 9#64, 8#64] = .command (.push 9) [8] := by decide
theorem test_decode_push2 : decode [0b0000000000000101#64, 9#64, 8#64] = .command (.push2 9 8) [] := by decide
theorem test_decode_push2_partial : decode [0b0000000000000101#64, 9#64] = .incomplete := by decide
theorem test_decode_end : decode [0b0000000000000110#64] = .command .endCall [] := by decide
/-- Bit 63 is reserved; bit 10 is reserved in `BEGIN`. -/
theorem test_decode_reserved :
    decode [0x8000000000000006#64] = .illegal .reservedBits 0x8000000000000006 ∧
    decode [0x0000000000000403#64, 7#64] = .illegal .reservedBits 0x0000000000000403 := by decide
/-- An illegal `PUSH2` word with one of its two operand words (20_memory.md R61, 30_encoding.md R85; log entry 21). -/
theorem test_decode_reserved_partial : decode [0x0000000000010005#64, 9#64] = .incomplete := by decide

/-! ## The host's two questions, on every row of the opcode table -/

theorem test_table_decodes :
    decodeTableWord 64 0x0701 = some (.cfgWr 0x07 0) ∧ decodeTableWord 64 0x1002 = some (.cfgRd 0x10) ∧
    decodeTableWord 64 0x0303 = some (.beginCall true true 0) ∧ decodeTableWord 64 4 = some (.push 0) ∧
    decodeTableWord 64 5 = some (.push2 0 0) ∧ decodeTableWord 64 6 = some .endCall := by decide

theorem test_fetch_cfgWr : (after (step (State.reset.withFetchWord 64 0x0701))).map (·.downmixEn) = some 0 := by
  decide +kernel
theorem test_fetch_cfgRd : (after (step (State.reset.withFetchWord 64 0x0602))).map (·.results) =
    some [0x3FE999999999999A] := by decide +kernel
theorem test_fetch_begin : (after (step (State.reset.withFetchWord 64 3))).map State.statusWord =
    some 0x0000000000030503 := by decide +kernel
/-- Rows F11, F10 of 95_test_vectors.md 2.13, and the same for `PUSH2`. -/
theorem test_fetch_push : (after (step (State.reset.withFetchWord 64 4))).map State.statusWord =
    some 0x0000000000040403 := by decide +kernel
theorem test_fetch_push2 : (after (step (State.reset.withFetchWord 64 5))).map State.statusWord =
    some 0x0000000000050403 := by decide +kernel
theorem test_fetch_end : (after (step (State.reset.withFetchWord 64 6))).map State.statusWord =
    some 0x0000000000060403 := by decide +kernel

/-! ## One step of each command on the spec's vectors -/

/-- 95_test_vectors.md 2.10: `CFG_WR BITDEPTH, 4`, then `CFG_RD BITDEPTH`. -/
theorem test_cfgWr : (after (exec (.cfgWr 0x00 4) State.reset)).map (fun t => (t.bitdepth, t.srrFactor)) =
    some (4, 4) := by decide +kernel
/-- Row F14: `CFG_WR MIX` in a stereo int16 call. -/
theorem test_cfgWr_in_call :
    (after (exec (.cfgWr 0x02 0x3FE0000000000000) (State.reset.begun true true 0x40E7700000000000))).map
      State.statusWord = some 0x0000000002010407 := by decide +kernel
/-- 2.10: `CFG_RD CLIP_THRESH` after reset. -/
theorem test_cfgRd : (after (exec (.cfgRd 0x06) State.reset)).map (·.results) = some [0x3FE999999999999A] := by
  decide +kernel
/-- 2.11 vector 2 and the example of 42_call_and_config.md R172: `ALPHA` and `STEPS`. -/
theorem test_begin :
    (after (exec (.beginCall false false 0x40E5888000000000)
      { State.reset with lpfEn := 1, lpfCutoff := 0x408F400000000000 })).map
      (fun t => (t.alpha, t.steps, t.statusWord)) = some (0x3FBFECDCBB3152A9, 255, 1) := by decide +kernel
/-- Row F19: a NaN `ALPHA` is refused. -/
theorem test_begin_nan_alpha :
    (after (exec (.beginCall false false 1) { State.reset with lpfEn := 1, lpfCutoff := 1 })).map State.statusWord =
      some 0x0000000000030503 := by decide +kernel
/-- Program P4, step 0, through all four core stages, under every tie rule. -/
theorem test_push (tie : RoundTie) :
    (after (pushUnder tie 0x0000000000004000 callP4)).map (fun t => (t.results, t.holdL, t.phase)) =
      some ([0x3FD5CEEC1D092985], 0x3FE0000000000000, 1) := by cases tie <;> decide +kernel
/-- 2.12 vector 1: `PUSH 0.5` at one bit, under each tie rule. -/
theorem test_push_tie :
    (after (pushUnder .away 0x3FE0000000000000 callP1)).map (·.results) = some [0x3FF0000000000000] ∧
    (after (pushUnder .even 0x3FE0000000000000 callP1)).map (·.results) = some [0x0000000000000000] ∧
    (after (pushUnder .up 0x3FE0000000000000 callP1)).map (·.results) = some [0x3FF0000000000000] ∧
    (after (pushUnder .up 0xBFE0000000000000 callP1)).map (·.results) = some [0x8000000000000000] := by decide +kernel
/-- Program P2, first frame: the fold-down of 0.8 and 0.4. -/
theorem test_push2 (tie : RoundTie) :
    (after (push2Under tie 0x3FE999999999999A 0x3FD999999999999A callP2)).map (fun t => (t.results, t.holdR)) =
      some ([0x3FE3333333333333, 0x3FE3333333333333], 0x3FE3333333333334) := by cases tie <;> decide +kernel
/-- Row F25: a bad right sample refuses the whole frame. -/
theorem test_push2_bad_right :
    (after (exec (.push2 0x3FE0000000000000 0x7FF8000000000000) callStereo)).map
      (fun t => (t.statusWord, t.results)) = some (0x0000000000050603, []) := by decide +kernel
/-- 2.11 vector 3: `END` of a stereo call. -/
theorem test_end : (after (exec .endCall callStereo)).map (fun t => (t.statusWord, t.sr)) =
    some (0, 0x40E7700000000000) := by decide +kernel

/-! ## Stage functions on the spec's tables -/

/-- 2.5, the tie row 0.3 at 8 bits. -/
theorem test_quant :
    (quant .away (stepsOf 8) (F64.ofBits 0x3FD3333333333333)).toBits = 0x3FD3535353535353 ∧
    (quant .even (stepsOf 8) (F64.ofBits 0x3FD3333333333333)).toBits = 0x3FD3131313131313 := by decide +kernel
/-- 2.4: the fold-down overflows to an infinity. -/
theorem test_fold :
    (fold (F64.ofBits 0x7FE1CCF385EBC8A0) (F64.ofBits 0x7FE1CCF385EBC8A0)).toBits = 0x7FF0000000000000 := by
  decide +kernel
/-- 2.7: two steps of the filter from 0. -/
theorem test_lpf :
    (lpf (F64.ofBits 0x3FBFECDCBB3152A9) (F64.ofBits 0x3FBFECDCBB3152A9) F64.one).toBits = 0x3FCDEF406CAA9F0C := by
  decide +kernel
/-- 2.8, the row 0.1, 0.2, 0.3. -/
theorem test_mix :
    (mixStage (F64.ofBits 0x3FD3333333333333) (F64.ofBits 0x3FB999999999999A) (F64.ofBits 0x3FC999999999999A)).toBits =
      0x3FC5C28F5C28F5C2 := by decide +kernel
/-- 30_encoding.md R96: a decimal literal is the nearest binary64. -/
theorem test_decimal : (F64.ofDecimal false 8 (-1)).toBits = 0x3FE999999999999A := by decide +kernel

/-! ## States that meet the invariant -/

theorem witness_midCall_inv : midCall.Inv := by
  refine ⟨?_, ?_, ?_, ?_, ?_, ?_, ?_, ?_, ?_, ?_, ?_, ?_, ?_, ?_, Nat.zero_le _⟩ <;> decide +kernel

theorem witness_midCall_inRange : midCall.InRange := by
  refine ⟨?_, ?_, ?_, ?_, ?_, ?_⟩ <;> decide +kernel

theorem witness_callStereo_inv : callStereo.Inv := by
  refine ⟨?_, ?_, ?_, ?_, ?_, ?_, ?_, ?_, ?_, ?_, ?_, ?_, ?_, ?_, Nat.zero_le _⟩ <;> decide +kernel

theorem witness_callStereo_inRange : callStereo.InRange := by
  refine ⟨?_, ?_, ?_, ?_, ?_, ?_⟩ <;> decide +kernel

/-! ## A witness for the hypotheses of each statement -/

/-- DecodeOfEncodeIsTheCommand, at the ends of the selector ranges. -/
theorem witness_wellFormed :
    (Instr.cfgWr 0x00 1).wellFormed ∧ (Instr.cfgWr 0x07 1).wellFormed ∧ (Instr.cfgRd 0x07).wellFormed ∧
    (Instr.cfgRd 0x10).wellFormed ∧ (Instr.cfgRd 0x17).wellFormed ∧ (Instr.beginCall true true 1).wellFormed ∧
    (Instr.push 1).wellFormed ∧ (Instr.push2 1 2).wellFormed ∧ Instr.endCall.wellFormed := by decide

/-- DecodedWordsAreTheEncoding. -/
theorem witness_decoded : ∃ ws rest i, decode ws = .command i rest := ⟨[0x1002], [], .cfgRd 0x10, by decide⟩

/-- DecodeFollowsTheOrderOfTests: for each clause a word at the edge of its range, with the clause's outcome. -/
theorem witness_decode_clauses :
    illegal 0x00 = some .illegalOpcode ∧ illegal 0x07 = some .illegalOpcode ∧ illegal 0x10001 = some .reservedBits ∧
    illegal 0x0801 = some .illegalSelector ∧ illegal 0x0F02 = some .illegalSelector ∧
    illegal 0x1802 = some .illegalSelector ∧ illegal 0x0403 = some .reservedBits ∧
    illegal 0x0104 = some .reservedBits ∧ illegal 0xFF06 = some .reservedBits ∧
    decode [0x07#64] = .illegal .illegalOpcode 0x07 ∧ decode [0x10001#64, 2#64] = .illegal .reservedBits 0x10001 ∧
    decode [0x0701#64, 2#64] = .command (.cfgWr 0x07 2) [] ∧ decode [0x0701#64] = .incomplete ∧
    decode [0x0702#64] = .command (.cfgRd 0x07) [] ∧ decode [0x1002#64] = .command (.cfgRd 0x10) [] ∧
    decode [0x0303#64, 2#64] = .command (.beginCall true true 2) [] ∧ decode [0x04#64] = .incomplete ∧
    decode [0x05#64, 1#64] = .incomplete ∧ decode [0x06#64, 1#64] = .command .endCall [1] := by decide

/-- LinkBytesCarryWholeWords: no partial word, and the longest one. -/
theorem witness_part : ([] : List Byte).length < 8 ∧ (List.replicate 7 0xFF#8).length < 8 := by decide

/-- AssemblerLinesNameTheirCommands. -/
theorem witness_line :
    AsmLine.command (.cfgWr .mix (.decimal false 5 (-1))) = some (.cfgWr 0x02 0x3FE0000000000000) ∧
    AsmLine.command (.push (.int (-32768))) = some (.push 0xFFFFFFFFFFFF8000) ∧
    AsmLine.command (.push (.int 32767)) = some (.push 0x7FFF) := by decide +kernel

/-- StepRunsTheDecodedCommand: a `PUSH2` that just fits on the result port, and an `END`. -/
theorem witness_step :
    (∃ s : State, s.mode ≠ .faulted ∧ (Instr.push2 1 2).wellFormed = true ∧
      s.hostInput = (encode (.push2 1 2)).map .word ++ [.take] ∧
      s.results.length + (Instr.push2 1 2).nres ≤ Config.resDepth) ∧
    ∃ s : State, s.mode ≠ .faulted ∧ Instr.endCall.wellFormed = true ∧
      s.hostInput = (encode .endCall).map .word ++ [] ∧ s.results.length + Instr.endCall.nres ≤ Config.resDepth :=
  ⟨⟨{ hosted ((encode (.push2 1 2)).map .word ++ [.take]) with
        results := List.replicate Config.resDepthAboveTwo 0 },
      by decide, rfl, rfl, by simp [Config.resDepth, Instr.nres, nres, Instr.opc]⟩,
    ⟨hosted ((encode .endCall).map .word), by decide, rfl, rfl, Nat.zero_le _⟩⟩

/-- IllegalWordRaisesItsFault (rows F1, F3 and a bad selector): no operand word, one, and one too few. -/
theorem witness_illegal :
    (hosted [.word 0]).mode ≠ .faulted ∧ illegal 0 = some .illegalOpcode ∧ illegal 0x1001 = some .illegalSelector ∧
    (([] : List Word).length = Rule.operandCount ((0 : Word).toNat % 256) ∧
      (hosted [.word 0]).hostInput = [(0 : Word)].map .word ++ []) ∧
    illegal 0x10004 = some .reservedBits ∧
    ([0x3FE0000000000000#64].length = Rule.operandCount ((0x10004 : Word).toNat % 256) ∧
      (hosted [.word 0x10004, .word 0x3FE0000000000000, .take]).hostInput =
        [0x10004#64, 0x3FE0000000000000#64].map .word ++ [.take]) ∧
    (([] : List Word).length < Rule.operandCount ((0x10004 : Word).toNat % 256) ∧
      (hosted [.word 0x10004]).hostInput = [0x10004#64].map .word) := by decide

/-- FaultedModeDiscardsEveryWord, NoCommandHasAnEffectInFaulted, and OnlyResetLeavesFaulted by a word. -/
theorem witness_faulted :
    faulted.mode = .faulted ∧ ({ faulted with hostInput := [.word 4] } : State).hostInput = .word 4 :: [] ∧
    ∃ t, step { faulted with hostInput := [.word 4] } = .next t := ⟨by decide, rfl, step_answers _⟩

/-- OnlyResetLeavesFaulted by a RESET. -/
theorem witness_faulted_reset :
    (after (step { faulted with hostInput := [.reset] })).map State.statusWord = some 0 := by decide +kernel

/-- WaitingKeepsAllState: a `PUSH` without its operand, and a `CFG_RD` before a full result port. -/
theorem witness_waiting :
    (decode [0x04#64] = .incomplete ∧ (hosted [.word 4]).hostInput = [0x04#64].map .word) ∧
    ∃ s : State, s.mode ≠ .faulted ∧ s.hostInput = [0x0002#64].map .word ∧
      decode [0x0002#64] = .command (.cfgRd 0x00) [] ∧
      Config.resDepth < s.results.length + (Instr.cfgRd 0x00).nres :=
  ⟨by decide, { hosted [.word 0x0002] with results := List.replicate Config.resDepth 0 }, by decide, rfl, by decide,
    by simp [Instr.nres, nres, Instr.opc]⟩

/-- TakeMakesRoomForTheWaitingCommand. -/
theorem witness_take :
    ∃ s : State, s.mode ≠ .faulted ∧ s.hostInput = [0x0002#64].map .word ++ .take :: [] ∧
      decode [0x0002#64] = .command (.cfgRd 0x00) [] ∧
      Config.resDepth < s.results.length + (Instr.cfgRd 0x00).nres ∧
      s.results = 5 :: List.replicate (Config.resDepthAboveTwo + 1) 0 :=
  ⟨{ hosted [.word 0x0002, .take] with results := 5 :: List.replicate (Config.resDepthAboveTwo + 1) 0 }, by decide, rfl,
    by decide, by simp [Config.resDepth, Instr.nres, nres, Instr.opc], rfl⟩

/-- ResetRestoresEveryPieceOfState: in `FAULTED` with no word, and in a call with part of a command. -/
theorem witness_reset :
    ({ faulted with hostInput := [.reset] } : State).hostInput = [].map .word ++ .reset :: [] ∧
    ({ callP1 with hostInput := [.word 4, .reset] } : State).hostInput = [0x04#64].map .word ++ .reset :: [] ∧
    callP1.mode ≠ .faulted ∧ decode [0x04#64] = .incomplete := by decide

/-- ResetRestoresEveryPieceOfState: a `CFG_RD` that waits for room ahead of the RESET. -/
theorem witness_reset_waiting :
    ∃ s : State, s.hostInput = [0x0002#64].map .word ++ .reset :: [] ∧ s.mode ≠ .faulted ∧
      decode [0x0002#64] = .command (.cfgRd 0x00) [] ∧ Config.resDepth < s.results.length + (Instr.cfgRd 0x00).nres :=
  ⟨{ hosted [.word 0x0002, .reset] with results := List.replicate Config.resDepth 0 }, rfl, by decide, by decide,
    by simp [Instr.nres, nres, Instr.opc]⟩

/-- ResultWordsKeepTheirOrder, CommandsLeaveTheRestUnchanged: every state has a next one. -/
theorem witness_next (i : Instr) (s : State) : (∃ t, step s = .next t) ∧ ∃ t, exec i s = .next t :=
  ⟨step_answers s, exec_answers i s⟩

/-- CfgWrStoresItsOperand, CfgRdEmitsTheRegister, EndClosesTheCall: each mode, each refused word. -/
theorem witness_config :
    State.reset.mode = .idle ∧ callP1.active ∧ callStereo.active ∧ (0x07#8).toNat ≤ 0x07 ∧
    (opcOf 0x10001 = 0x01 ∧ rsvOf 0x10001 ≠ 0) ∧ (opcOf 0x0801 = 0x01 ∧ rsvOf 0x0801 = 0 ∧ 0x07 < (argOf 0x0801).toNat) ∧
    (opcOf 0x10002 = 0x02 ∧ rsvOf 0x10002 ≠ 0) ∧
    (opcOf 0x1802 = 0x02 ∧ rsvOf 0x1802 = 0 ∧ 0x07 < (argOf 0x1802).toNat ∧
      ¬ (0x10 ≤ (argOf 0x1802).toNat ∧ (argOf 0x1802).toNat ≤ 0x17)) ∧
    (opcOf 0x0106 = 0x06 ∧ argOf 0x0106 ≠ 0) ∧ (opcOf 0x10006 = 0x06 ∧ rsvOf 0x10006 ≠ 0) := by decide +kernel

/-- BeginStartsACallOrRefusesIt: an accepted configuration with filter and clipper on, a refused one (row F15), and the
refused words. -/
theorem witness_begin :
    cfgP4.mode = .idle ∧ Rule.cfgOk cfgP4 (F64.ofBits 0x40E5888000000000) ∧
    ¬ Rule.cfgOk { State.reset with bitdepth := 0 } (F64.ofBits 0x40E5888000000000) ∧ callP1.active ∧
    (0x02#8 = BitVec.ofNat 8 (false.toNat + 2 * true.toNat)) ∧
    (opcOf 0x0403 = 0x03 ∧ (argOf 0x0403).toNat / 4 ≠ 0) ∧ (opcOf 0x10003 = 0x03 ∧ rsvOf 0x10003 ≠ 0) := by
  refine ⟨by decide +kernel, ?_, ?_, by decide +kernel, by decide, by decide, by decide⟩
  · unfold Rule.cfgOk Rule.alpha; decide +kernel
  · unfold Rule.cfgOk; exact fun h => absurd h.1.1 (by decide)

/-- PushRunsOneMonoTimeStep: a binary64 and an int16 sample (the least and the greatest) with a value that is a number,
and each refused operand; a number under every tie rule. -/
theorem witness_push_input :
    callP1.mode = .mono ∧ Rule.input .binary64 0x3FE0000000000000 (F64.ofBits 0x3FE0000000000000) ∧
    Rule.input .int16 0xFFFFFFFFFFFF8000 ((F64.ofInt (-32768)).div (F64.ofInt 32768)) ∧
    Rule.input .int16 0x7FFF ((F64.ofInt 32767).div (F64.ofInt 32768)) ∧
    Rule.badInput .binary64 0x7FF0000000000000 .inputNonfinite ∧ Rule.badInput .int16 0x8000 .operandInvalid := by
  refine ⟨by decide +kernel, .inl ⟨rfl, by decide +kernel, rfl⟩, .inr ⟨rfl, -32768, by omega, by omega, by decide, rfl⟩,
    .inr ⟨rfl, 32767, by omega, by omega, by decide, rfl⟩, .inl ⟨rfl, by decide +kernel, rfl⟩, .inr ⟨rfl, ?_, rfl⟩⟩
  intro n h1 h2 h
  have := congrArg BitVec.toInt h
  rw [BitVec.toInt_ofInt, Int.bmod_eq_of_le (by omega) (by omega)] at this
  exact absurd this (by simp; omega)

theorem witness_push_number :
    (Rule.mixed callP1 (Rule.processed callP1 (F64.ofBits 0x3FE0000000000000) (F64.ofBits callP1.filtL))
      (F64.ofBits 0x3FE0000000000000)).isNaN = false := by
  unfold Rule.processed
  generalize Config.roundTie = tie
  cases tie <;> decide +kernel

/-- Row F23: the mixer makes a NaN. -/
theorem witness_push_nan :
    (Rule.mixed (State.begun { State.reset with bitdepth := 16, mix := 0 } false false 0x40E5888000000000)
      (Rule.processed (State.begun { State.reset with bitdepth := 16, mix := 0 } false false 0x40E5888000000000)
        (F64.ofBits 0x7FE1CCF385EBC8A0) F64.zero) (F64.ofBits 0x7FE1CCF385EBC8A0)).isNaN = true := by
  unfold Rule.processed
  generalize Config.roundTie = tie
  cases tie <;> decide +kernel

/-- The `SEQUENCE` clauses of both sample commands and their refused words. -/
theorem witness_push_sequence :
    State.reset.mode = .idle ∧ callStereo.mode = .stereo ∧ callP1.mode = .mono ∧
    (opcOf 0x0104 = 0x04 ∧ argOf 0x0104 ≠ 0) ∧ (opcOf 0x10004 = 0x04 ∧ rsvOf 0x10004 ≠ 0) ∧
    (opcOf 0x0105 = 0x05 ∧ argOf 0x0105 ≠ 0) ∧ (opcOf 0x10005 = 0x05 ∧ rsvOf 0x10005 ≠ 0) := by decide +kernel

/-- Push2RunsOneStereoTimeStep: both mixed values of P2's first frame are numbers under every tie rule; the operands
are those of `witness_push_input`. -/
theorem witness_push2_number (tie : RoundTie) :
    callP2.mode = .stereo ∧
    (callP2.push2Mixed tie (F64.ofBits 0x3FE999999999999A) (F64.ofBits 0x3FD999999999999A)).1.isNaN = false ∧
    (callP2.push2Mixed tie (F64.ofBits 0x3FE999999999999A) (F64.ofBits 0x3FD999999999999A)).2.isNaN = false := by
  cases tie <;> decide +kernel

/-- FaultsArePrecise, ModeChangesOnlyAsListed (into `FAULTED`), EachCommandRaisesOnlyItsFaults. -/
theorem witness_fault :
    (hosted [.word 6]).mode ≠ .faulted ∧
    (after (step (hosted [.word 6]))).map (fun t => (t.mode, t.faultCode)) = some (.faulted, some .sequence) ∧
    (after (exec (.cfgWr 0x00 1) callP1)).map (fun t => (t.mode, t.faultCode)) = some (.faulted, some .sequence) := by
  decide +kernel

/-- ModeChangesOnlyAsListed: `BEGIN`, `END` and RESET change the mode. -/
theorem witness_mode :
    (after (step (hosted [.word 0x0103, .word 0x40E7700000000000]))).map (·.mode) = some .stereo ∧
    (after (step { callP1 with hostInput := [.word 6] })).map (·.mode) = some .idle ∧
    (after (step { callP1 with hostInput := [.reset] })).map (·.mode) = some .idle := by decide +kernel

/-- ConfigurationIsFixedDuringACall: a command ahead of a RESET, and the RESET. -/
theorem witness_active :
    callP1.active ∧ callStereo.active ∧
    (after (step { callP1 with hostInput := [.word 6, .reset] })).map (fun t => (t.bitdepth, t.mode)) =
      some (1, .idle) ∧
    (after (step { callP1 with hostInput := [.reset] })).map (fun t => (t.bitdepth, t.mode)) = some (8, .idle) := by
  decide +kernel

/-- InstancesAreIndependent: the other instance, the stepping one, and one that is not there. -/
theorem witness_instances :
    (1 : Nat) ≠ 0 ∧ (platformStep [hosted [.word 6], State.reset] 0)[1]? = some State.reset ∧
    [hosted [.word 6], State.reset][0]? = some (hosted [.word 6]) ∧
    ((platformStep [hosted [.word 6], State.reset] 0)[0]?).map State.statusWord = some 0x0000000000060403 ∧
    [hosted [.word 6], State.reset][2]? = none := by decide +kernel

/-- EveryOperationRoundsToNearestEven: a quotient that is a tie in the last subnormal place, a sum and a difference
that are not 0 and that are, an overflow and a finite result. -/
theorem witness_rounding :
    (2 : Nat) ≠ 0 ∧ signedMag false 1 + signedMag true 3 ≠ 0 ∧ signedMag false 1 - signedMag true 3 ≠ 0 ∧
    signedMag false 3 + signedMag true 3 = 0 ∧ signedMag true 3 - signedMag true 3 = 0 ∧
    F64.round false 3 2 = .fin false 2 ∧
    F64.magOk 1 = true ∧ F64.round true ((2 ^ 54 - 1) * 2 ^ (970 + F64.unitExp)) 1 = .inf true := by decide +kernel

/-- RoundIntPicksTheNearestInteger: 0.5 is halfway. -/
theorem witness_halfway : 2 * (F64.unit / 2) = (2 * 0 + 1) * F64.unit ∧ F64.magOk (F64.unit / 2) = true := by
  decide +kernel

/-- Int16SamplesNormalizeExactly: both ends. -/
theorem witness_int16 :
    (-32768 : Int) ≤ -32768 ∧ (32767 : Int) ≤ 32767 ∧ normI16 (-32768) = F64.one.neg ∧
    (normI16 32767).toBits = 0x3FEFFFC000000000 := by decide +kernel

/-- QuantizerYieldsALevel, QuantizerKeepsFullScale: both ends of `BITDEPTH` and of [-1, 1]. -/
theorem witness_quantizer :
    1 ≤ (1#64).toNat ∧ (16#64).toNat ≤ 16 ∧ (F64.ofBits 0xBFF0000000000000).inUnit = true ∧
    (F64.ofBits 0x3FF0000000000000).inUnit = true := by decide +kernel

/-- HardClipKeepsWithinTheThreshold: below, above and at the threshold 0.5. -/
theorem witness_clip :
    F64.zero.lt (F64.ofBits 0x3FE0000000000000) = true ∧
    (F64.inf true).lt (F64.ofBits 0x3FE0000000000000).neg = true ∧
    (F64.ofBits 0x3FE0000000000000).lt F64.one = true ∧
    (F64.ofBits 0x3FE0000000000000).neg.le (F64.ofBits 0x3FE0000000000000) = true ∧
    (F64.ofBits 0x3FE0000000000000).le (F64.ofBits 0x3FE0000000000000) = true := by decide +kernel

/-- AlphaLiesInTheUnitRange: `ALPHA` 0.0 and 1.0 at the extremes (2.6), and a common one. -/
theorem witness_alpha :
    (alphaOf (F64.ofBits 0x00000000000007E8) (F64.ofBits 0x40E5888000000000)).toBits = 0 ∧
    (alphaOf (F64.ofBits 0x7FE1CCF385EBC8A0) (F64.ofBits 0x40E5888000000000)).toBits = 0x3FF0000000000000 ∧
    (F64.ofBits 0x7FE1CCF385EBC8A0).isFinite = true ∧ F64.zero.lt (F64.ofBits 0x7FE1CCF385EBC8A0) = true ∧
    (alphaOf (F64.ofBits 0x408F400000000000) (F64.ofBits 0x40E5888000000000)).isNaN = false := by decide +kernel

/-- FilterRestsAtItsInput, MixEndpointsGiveOneInput: equal numbers of different sign bits, and the zero of either
sign. -/
theorem witness_zero :
    (F64.ofBits 0).numEq (F64.ofBits 0x8000000000000000) = true ∧ (F64.ofBits 0x3FD3333333333333).isFinite = true ∧
    (F64.ofBits 0x8000000000000000).numEq F64.zero = true ∧ (F64.ofBits 0).isFinite = true := by decide +kernel

/-- PhaseIsTheStepIndexModTheFactor: the least and the greatest factor. -/
theorem witness_factor : 1 ≤ (1#64).toNat ∧ 1 ≤ (0xFFFFFFFFFFFFFFFF#64).toNat := by decide

/-- EveryOutputLiesInUnitRange, HoldTakesTheInputWordAtUpdates: a `PUSH` completes at an update instant and between. -/
theorem witness_push_completes :
    (∃ t, exec (.push 0x3FF0000000000000) callP1 = .next t ∧ t.mode = .mono) ∧ callP1.phase = 0 ∧
    callP1.fmt = .binary64 ∧
    (∃ t, exec (.push 0x3FF0000000000000) midCall = .next t ∧ t.mode = .mono) ∧ midCall.phase ≠ 0 := by
  refine ⟨of_after ?_, by decide +kernel, by decide +kernel, of_after ?_, by decide +kernel⟩ <;>
    (simp only [exec, execPush]; generalize Config.roundTie = tie; cases tie <;> decide +kernel)

/-- LanesAreTheMonoComputation, EveryOutputLiesInUnitRange: a `PUSH2` completes with fold-down off. -/
theorem witness_push2_completes :
    callStereo.mode = .stereo ∧ callStereo.downmixEn ≠ 1 ∧
    ∃ t, exec (.push2 0x3FF0000000000000 0xBFF0000000000000) callStereo = .next t ∧ t.mode = .stereo := by
  refine ⟨by decide +kernel, by decide +kernel, of_after ?_⟩
  simp only [exec, execPush2]
  generalize Config.roundTie = tie
  cases tie <;> decide +kernel

/-- StepKeepsTheInvariant, ReachableStatesMeetTheInvariant. -/
theorem witness_inv : midCall.Inv ∧ (∃ t, step midCall = .next t) ∧ Reachable State.reset :=
  ⟨witness_midCall_inv, step_answers _, .start⟩

/-- BeginPutsTheCallInRange. -/
theorem witness_cfgOk : cfgP4.mode = .idle ∧ cfgP4.cfgOk (F64.ofBits 0x40E5888000000000) = true := by decide +kernel

/-- SamplesInRangeNeverFault: both kinds of call, samples at the ends of [-1, 1]. -/
theorem witness_samples :
    (midCall.Inv ∧ midCall.InRange ∧ midCall.mode = .mono ∧ sampleInRange midCall.fmt 0xBFF0000000000000 = true) ∧
    (callStereo.Inv ∧ callStereo.InRange ∧ callStereo.mode = .stereo ∧
      sampleInRange callStereo.fmt 0x3FF0000000000000 = true) ∧
    sampleInRange .int16 0xFFFFFFFFFFFF8000 = true :=
  ⟨⟨witness_midCall_inv, witness_midCall_inRange, by decide +kernel, by decide +kernel⟩,
    ⟨witness_callStereo_inv, witness_callStereo_inRange, by decide +kernel, by decide +kernel⟩, by decide +kernel⟩

/-- EachCallIsSelfContained: a fresh block, and one with another call behind it. -/
theorem witness_two_blocks :
    ∃ s₂ : State, s₂ ≠ State.reset ∧ State.reset.mode = .idle ∧ s₂.mode = .idle ∧ State.reset.hostInput = [] ∧
      s₂.hostInput = [] ∧ State.reset.results = [] ∧ s₂.results = [] ∧ ∀ r : CfgReg, State.reset.cfg r = s₂.cfg r :=
  ⟨{ State.reset with filtL := 0x3FE0000000000000, holdL := 0x3FF0000000000000, steps := 3, taken := [9] },
    by decide, rfl, rfl, rfl, rfl, rfl, rfl, fun r => by cases r <;> rfl⟩

/-- OperationsReturnOneWordPerSample: `process([1.0])` and `processStereo([1.0, -1.0])` return a buffer. -/
theorem witness_process :
    (∃ cmds out, process [.binary64 0x3FF0000000000000] 0x40E5888000000000 = some cmds ∧
      returned cmds State.reset = some out) ∧
    ∃ cmds out, processStereo [.binary64 0x3FF0000000000000, .binary64 0xBFF0000000000000] 0x40E5888000000000 =
        some cmds ∧ returned cmds State.reset = some out :=
  ⟨⟨_, [0x3FF0000000000000], rfl, by decide +kernel⟩,
    ⟨_, [0x3FF0000000000000, 0xBFF0000000000000], rfl, by decide +kernel⟩⟩

/-- The commands of `process([1.0, 0.0])`. -/
def twoSamples : List Instr :=
  [.beginCall false false 0x40E5888000000000, .push 0x3FF0000000000000, .push 0, .endCall]

/-- ResetCutsAnOperationShort: RESET in the middle of the second sample, directly before `END`, and after it. -/
theorem witness_cut :
    State.reset.hostInput = [] ∧ (hostEvents twoSamples).length = 9 ∧
    received (cutShort twoSamples 6) State.reset = [0x3FF0000000000000] ∧
    returnedBy twoSamples (cutShort twoSamples 8) State.reset = none ∧
    returnedBy twoSamples (cutShort twoSamples 9) State.reset = some [0x3FF0000000000000, 0x3FF0000000000000] := by
  decide +kernel

/-- 20_memory.md R65, byte `k` is bits `[8k+7:8k]`: byte 0 is the low one. -/
theorem test_byte_order :
    bytesOfWord 0x0123456789ABCDEF = [0xEF, 0xCD, 0xAB, 0x89, 0x67, 0x45, 0x23, 0x01] := by decide

/-- OperationsBeginWhereTheBlockRests, OperationsReturnAfterTheirEnd: `process([1.0])` behind pending `CFG_WR` commands
returns its one word, and behind a pending command word that lacks its operand word it returns no buffer. -/
theorem witness_pending :
    process [.binary64 0x3FF0000000000000] 0x40E5888000000000 =
      some [.beginCall false false 0x40E5888000000000, .push 0x3FF0000000000000, .endCall] ∧
    (hosted ((configure ⟨1, 1, 0x3FF0000000000000, none, false, 0x3FE0000000000000, false⟩).flatMap
      fun i => (encode i).map .word)).settled.hostInput = [] ∧
    returned [.beginCall false false 0x40E5888000000000, .push 0x3FF0000000000000, .endCall]
      (hosted ((configure ⟨1, 1, 0x3FF0000000000000, none, false, 0x3FE0000000000000, false⟩).flatMap
        fun i => (encode i).map .word)) = some [0x3FF0000000000000] ∧
    returned [.beginCall false false 0x40E5888000000000, .push 0x3FF0000000000000, .endCall]
      (hosted [.word 0x0001]) = none := by decide +kernel

/-- 43_host_operations.md R190: a rate `BEGIN` refuses gives no buffer, behind pending commands too. -/
theorem test_process_bad_rate :
    returned [.beginCall false false 0, .endCall] (hosted ([0x0001#64, 8, 0x0001, 8].map .word)) = none := by
  decide +kernel

/-- Log entry 28: no operation of a block in `FAULTED` returns a buffer. -/
theorem test_process_faulted : returned [.beginCall false false 0x40E5888000000000, .endCall] faulted = none := by
  decide +kernel

/-- EmptyBufferReturnsEmpty. -/
theorem witness_empty :
    State.reset.cfgOk (F64.ofBits 0x40E5888000000000) = true ∧ (process [] 0x40E5888000000000).isSome ∧
    (processStereo [] 0x40E5888000000000).isSome := by decide +kernel

/-- OperationsRefuseOddAndMixedBuffers: a refused buffer of each kind and an accepted one. -/
theorem witness_buffers :
    process [.binary64 0, .int16 1] 0 = none ∧ processStereo [.int16 1] 0 = none ∧
    (processStereo [.int16 1, .int16 2] 0).isSome := by decide

/-- ConfigureWritesEveryField. -/
theorem witness_configure :
    State.reset.mode = .idle ∧ State.reset.hostInput = [] ∧ State.reset.results = [] ∧
    ∃ t, t = perform (configure ⟨4, 8, 0x3FF0000000000000, some 0x40AF400000000000, true, 0x3FE0000000000000, true⟩)
      State.reset := ⟨rfl, rfl, rfl, _, rfl⟩

end Sys2Proof.Tests
end

section
/-! The integer `roundInt` picks (00_scope.md R11). -/

namespace Sys2Proof.Machine

/-! ## `roundsUp` on each side of a half, and at it -/

theorem roundsUp_below_half (tie : RoundTie) (neg : Bool) (n : Nat) {r : Nat} (h : 2 * r < F64.unit) :
    roundsUp tie neg n r = false := if_pos h

theorem roundsUp_above_half (tie : RoundTie) (neg : Bool) (n : Nat) {r : Nat} (h : F64.unit < 2 * r) :
    roundsUp tie neg n r = true :=
  (if_neg (by omega)).trans (if_pos h)

theorem roundsUp_away_half (neg : Bool) (n : Nat) {r : Nat} (h : 2 * r = F64.unit) :
    roundsUp .away neg n r = true := by
  simp [roundsUp, h]

theorem roundsUp_even_half (neg : Bool) (n : Nat) {r : Nat} (h : 2 * r = F64.unit) :
    roundsUp .even neg n r = (n % 2 == 1) := by
  simp [roundsUp, h]

theorem roundsUp_up_half (neg : Bool) (n : Nat) {r : Nat} (h : 2 * r = F64.unit) :
    roundsUp .up neg n r = !neg := by
  simp [roundsUp, h]

/-! ## The integer -/

/-- The integer `roundInt` picks for a finite value, in magnitude. -/
def roundedInt (tie : RoundTie) (neg : Bool) (mag : Nat) : Nat :=
  if roundsUp tie neg (mag / F64.unit) (mag % F64.unit) then mag / F64.unit + 1 else mag / F64.unit

theorem F64.roundInt_fin_eq (tie : RoundTie) (neg : Bool) (mag : Nat) :
    (F64.fin neg mag).roundInt tie = .fin neg (roundedInt tie neg mag * F64.unit) := rfl

theorem roundedInt_within_half (tie : RoundTie) (neg : Bool) (mag : Nat) :
    2 * ((mag : Int) - roundedInt tie neg mag * F64.unit).natAbs ≤ F64.unit := by
  have hdiv : mag / F64.unit * F64.unit + mag % F64.unit = mag := Nat.div_add_mod' ..
  have hmod : mag % F64.unit < F64.unit := Nat.mod_lt _ F64.unit_pos
  rw [← Int.natCast_mul, roundedInt]
  split
  next hup =>
    have hge : ¬ 2 * (mag % F64.unit) < F64.unit := fun h => by simp [roundsUp_below_half _ _ _ h] at hup
    rw [Nat.succ_mul (mag / F64.unit)]
    omega
  next hdown =>
    have hle : ¬ F64.unit < 2 * (mag % F64.unit) := fun h => hdown (roundsUp_above_half _ _ _ h)
    omega

theorem roundedInt_magOk (tie : RoundTie) (neg : Bool) {mag : Nat} (h : F64.magOk mag = true) :
    F64.magOk (roundedInt tie neg mag * F64.unit) = true :=
  F64.roundInt_ok tie (v := .fin neg mag) h

/-- A magnitude halfway between `k` and `k + 1` lies above `k` by half a unit. -/
theorem halfway_div_mod {mag k : Nat} (h : 2 * mag = (2 * k + 1) * F64.unit) :
    mag / F64.unit = k ∧ 2 * (mag % F64.unit) = F64.unit := by
  have hsum : 2 * mag = 2 * (k * F64.unit) + F64.unit := by rw [h]; ring
  have hpos := F64.unit_pos
  have hdiv : mag / F64.unit = k := by
    refine Nat.div_eq_of_lt_le (by omega) ?_
    rw [Nat.succ_mul]
    omega
  have hmod : mag / F64.unit * F64.unit + mag % F64.unit = mag := Nat.div_add_mod' ..
  rw [hdiv] at hmod
  exact ⟨hdiv, by omega⟩

theorem roundedInt_away_halfway (neg : Bool) {mag k : Nat} (h : 2 * mag = (2 * k + 1) * F64.unit) :
    roundedInt .away neg mag = k + 1 := by
  obtain ⟨hdiv, hmod⟩ := halfway_div_mod h
  simp [roundedInt, hdiv, roundsUp_away_half _ _ hmod]

theorem roundedInt_even_halfway (neg : Bool) {mag k : Nat} (h : 2 * mag = (2 * k + 1) * F64.unit) :
    roundedInt .even neg mag % 2 = 0 := by
  obtain ⟨hdiv, hmod⟩ := halfway_div_mod h
  rw [roundedInt, hdiv, roundsUp_even_half _ _ hmod]
  split
  next hodd => exact Nat.succ_mod_two_eq_zero_iff.mpr (by simpa using hodd)
  next heven => simpa using heven

theorem roundedInt_up_halfway (neg : Bool) {mag k : Nat} (h : 2 * mag = (2 * k + 1) * F64.unit) :
    roundedInt .up neg mag = if neg then k else k + 1 := by
  obtain ⟨hdiv, hmod⟩ := halfway_div_mod h
  rw [roundedInt, hdiv, roundsUp_up_half _ _ hmod]
  cases neg <;> rfl

/-- Settles O31: the integer is `roundedInt`, and on a tie it is the one the rule names. -/
theorem roundIntPicksTheNearestInteger : Obligations.RoundIntPicksTheNearestInteger := by
  refine fun tie neg => ⟨rfl, fun mag => ⟨roundedInt tie neg mag, F64.roundInt_fin_eq tie neg mag,
    roundedInt_within_half tie neg mag, roundedInt_magOk tie neg, fun k hk => ?_⟩⟩
  cases tie with
  | away => exact roundedInt_away_halfway neg hk
  | even => exact roundedInt_even_halfway neg hk
  | up => exact roundedInt_up_halfway neg hk

end Sys2Proof.Machine
end

section
/-! The configuration registers (10_state.md R34) and the reset values (R51). -/

namespace Sys2Proof.Machine

/-! ## What leaves the configuration registers alone -/

@[simp] theorem consume_cfg (s : State) (n : Nat) (r : CfgReg) : (s.consume n).cfg r = s.cfg r := by cases r <;> rfl

theorem hostInput_update_cfg (s : State) (es : List HostEvent) (r : CfgReg) :
    ({ s with hostInput := es } : State).cfg r = s.cfg r := by cases r <;> rfl

theorem mode_update_cfg (s : State) (m : Mode) (r : CfgReg) :
    ({ s with mode := m } : State).cfg r = s.cfg r := by cases r <;> rfl

@[simp] theorem takeResult_cfg (s : State) (r : CfgReg) : s.takeResult.cfg r = s.cfg r := by
  cases r <;> simp [State.cfg]

/-- Only an idle block's `CFG_WR` writes a configuration register. -/
theorem exec_cfg_of_not_idle {i : Instr} {s t : State} (h : exec i s = .next t) (hm : s.mode ≠ .idle) (r : CfgReg) :
    t.cfg r = s.cfg r := by
  obtain ⟨c, rfl⟩ | ⟨-, rfl⟩ | ⟨-, -, -, -, -, heffect⟩ := exec_next_cases h
  · exact takeFault_cfg ..
  · rfl
  · cases i with
    | cfgWr sel v => exact absurd heffect.1 hm
    | beginCall st f rate => exact absurd heffect.1 hm
    | cfgRd sel =>
      obtain ⟨w, -, rfl⟩ := heffect
      exact emit_cfg ..
    | push o =>
      obtain ⟨-, d, -, -, rfl⟩ := heffect
      exact pushed_cfg ..
    | push2 o o' =>
      obtain ⟨-, dL, dR, -, -, -, -, rfl⟩ := heffect
      exact pushed2_cfg ..
    | endCall =>
      obtain ⟨-, rfl⟩ := heffect
      exact mode_update_cfg ..

/-! ## RESET -/

theorem resetBlock_eq_afterReset (s : State) (es : List HostEvent) :
    s.resetBlock es = Rule.afterReset es s.taken := rfl

/-- A host whose next signal is a RESET has sent only words ahead of it. -/
theorem words_before_reset {es : List HostEvent} (h : nextSignal es = some .reset) :
    ∃ ws : List Word, es = ws.map .word ++ .reset :: afterSignal es := by
  obtain ⟨ws, rfl | ⟨rest, rfl⟩ | ⟨rest, rfl⟩⟩ := events_split es
  · simp at h
  · simp [nextSignal] at h
  · exact ⟨ws, by simp [afterSignal]⟩

/-! ## One step -/

/-- The step from `s` to `t` is the RESET that stands behind the words at the port. -/
def IsResetStep (s t : State) : Prop :=
  ∃ (ws : List Word) (es : List HostEvent), s.hostInput = ws.map .word ++ .reset :: es ∧
    t = Rule.afterReset es s.taken

theorem waitForHost_cfg_or_reset (s : State) :
    (∀ r, s.waitForHost.cfg r = s.cfg r) ∨ IsResetStep s s.waitForHost := by
  obtain hkeep | ⟨-, htake⟩ | ⟨hreset, hblock⟩ := s.waitForHost_cases
  · exact .inl fun r => by rw [hkeep]
  · exact .inl fun r => by rw [htake, hostInput_update_cfg, takeResult_cfg]
  · obtain ⟨ws, hws⟩ := words_before_reset hreset
    exact .inr ⟨ws, _, hws, hblock.trans (resetBlock_eq_afterReset ..)⟩

/-- Out of idle mode every step keeps the configuration or is a RESET. -/
theorem step_cfg_or_reset {s t : State} (h : step s = .next t) (hm : s.mode ≠ .idle) :
    (∀ r, t.cfg r = s.cfg r) ∨ IsResetStep s t := by
  obtain rfl | ⟨-, -, rfl⟩ | ⟨-, c, w, -, rfl⟩ | ⟨-, i, rest, -, -, hexec⟩ := step_cases h
  · exact waitForHost_cfg_or_reset s
  · exact .inl fun r => consume_cfg ..
  · exact .inl fun r => by rw [takeFault_cfg, consume_cfg]
  · exact .inl fun r => by rw [exec_cfg_of_not_idle hexec hm, consume_cfg]

theorem State.active.ne_idle {s : State} (h : s.active) : s.mode ≠ .idle := by
  rcases h with hmono | hstereo <;> simp [*]

theorem State.active.ne_faulted {s : State} (h : s.active) : s.mode ≠ .faulted := by
  rcases h with hmono | hstereo <;> simp [*]

/-- In a call a `CFG_WR` of a configuration register raises `SEQUENCE`. -/
theorem exec_cfgWr_of_active {s : State} (ha : s.active) {sel : Byte} (hsel : writableSelector sel = true) (v : Word) :
    exec (.cfgWr sel v) s = .next (Rule.faulted s .sequence 0x01#8 sel) := by
  obtain ⟨r, hr⟩ := Option.isSome_iff_exists.mp ((cfgRegOf_isSome sel).trans hsel)
  calc exec (.cfgWr sel v) s
      = raiseFault .sequence (.cfgWr sel v) s := by simp [exec, execCfgWr, hr, ha.ne_idle]
    _ = .next (Rule.faulted s .sequence 0x01#8 sel) :=
        congrArg Host.Outcome.next (State.takeFault_of_not_faulted ha.ne_faulted ..)

/-- Settles O26: in a call no command writes the configuration, so a step that changes it is the RESET. -/
theorem configurationIsFixedDuringACall : Obligations.ConfigurationIsFixedDuringACall :=
  fun _ ha => ⟨fun _ h => step_cfg_or_reset h ha.ne_idle,
    fun _ v hsel => exec_cfgWr_of_active ha (decide_eq_true hsel) v⟩

/-- Settles O28: the two tables agree field by field, and the fields of the status word are all zero. -/
theorem resetValuesAreTheTable : Obligations.ResetValuesAreTheTable :=
  ⟨rfl, by decide, rfl⟩

end Sys2Proof.Machine
end

section
/-! The decoder on the fields of the command word as numbers (30_encoding.md R80 to R90, R98). -/

namespace Sys2Proof

open Sys2Proof.Machine (FaultCode)

variable {w : Word} {ops : List Word}

/-! ## The fields as numbers -/

theorem opcOf_toNat (w : Word) : (opcOf w).toNat = w.toNat % 256 := by
  simp [opcOf, Word.field, BitVec.extractLsb'_toNat]

theorem argOf_toNat (w : Word) : (argOf w).toNat = w.toNat / 256 % 256 := by
  simp [argOf, Word.field, BitVec.extractLsb'_toNat, Nat.shiftRight_eq_div_pow]

theorem rsvOf_toNat (w : Word) : (rsvOf w).toNat = w.toNat / 65536 := by
  have hlt := w.isLt
  simp only [rsvOf, Word.field, BitVec.extractLsb'_toNat, Nat.shiftRight_eq_div_pow]
  omega

theorem rsvOf_eq_zero_iff : rsvOf w = 0 ↔ (rsvOf w).toNat = 0 := BitVec.toNat_inj.symm

theorem argOf_eq_zero_iff : argOf w = 0 ↔ (argOf w).toNat = 0 := BitVec.toNat_inj.symm

/-- Bits 7 to 2 of `BEGIN`'s `ARG`, as a number (30_encoding.md R88). -/
theorem extractLsb_two_six_eq_zero_iff (arg : Byte) : arg.extractLsb' 2 6 = 0 ↔ arg.toNat / 4 = 0 := by
  have hlt := arg.isLt
  simp only [← BitVec.toNat_inj, BitVec.extractLsb'_toNat, Nat.shiftRight_eq_div_pow, BitVec.ofNat_eq_ofNat,
    BitVec.toNat_ofNat]
  omega

theorem getLsbD_zero_eq (arg : Byte) : arg.getLsbD 0 = (arg.toNat % 2 == 1) := by
  simp [BitVec.getLsbD, Nat.testBit_zero, beq_eq_decide]

theorem getLsbD_one_eq (arg : Byte) : arg.getLsbD 1 = (arg.toNat / 2 % 2 == 1) := by
  simp [BitVec.getLsbD, Nat.testBit_succ, beq_eq_decide]

theorem writableSelector_iff {sel : Byte} : writableSelector sel = true ↔ sel.toNat ≤ 0x07 := by
  simp [writableSelector]

theorem readableSelector_iff {sel : Byte} :
    readableSelector sel = true ↔ sel.toNat ≤ 0x07 ∨ 0x10 ≤ sel.toNat ∧ sel.toNat ≤ 0x17 := by
  simp [readableSelector]

/-! ## The tests on the command word, one opcode at a time -/

theorem illegal_opcode (ho : (opcOf w).toNat < 1 ∨ 6 < (opcOf w).toNat) : illegal w = some .illegalOpcode :=
  if_pos ho

theorem illegal_reserved (h1 : 1 ≤ (opcOf w).toNat) (h6 : (opcOf w).toNat ≤ 6) (hr : rsvOf w ≠ 0) :
    illegal w = some .reservedBits :=
  (if_neg (by omega)).trans (if_pos hr)

theorem illegal_cfgWr (ho : (opcOf w).toNat = 1) (hr : rsvOf w = 0) :
    illegal w = if writableSelector (argOf w) then none else some .illegalSelector := by
  simp [illegal, ho, hr]

theorem illegal_cfgRd (ho : (opcOf w).toNat = 2) (hr : rsvOf w = 0) :
    illegal w = if readableSelector (argOf w) then none else some .illegalSelector := by
  simp [illegal, ho, hr]

theorem illegal_beginCall (ho : (opcOf w).toNat = 3) (hr : rsvOf w = 0) :
    illegal w = if (argOf w).toNat / 4 ≠ 0 then some .reservedBits else none := by
  simp only [← not_congr (extractLsb_two_six_eq_zero_iff _)]
  simp [illegal, ho, hr]

/-- `PUSH`, `PUSH2` and `END` take no `ARG` (30_encoding.md R89). -/
theorem illegal_noArg (h4 : 4 ≤ (opcOf w).toNat) (h6 : (opcOf w).toNat ≤ 6) (hr : rsvOf w = 0) :
    illegal w = if argOf w ≠ 0 then some .reservedBits else none := by
  have h1 : ¬ ((opcOf w).toNat < 1 ∨ 6 < (opcOf w).toNat) := by omega
  have hne : (opcOf w).toNat ≠ 1 ∧ (opcOf w).toNat ≠ 2 ∧ (opcOf w).toNat ≠ 3 := by omega
  simp only [illegal, h1, hr, hne, if_false, ne_eq, not_true]

theorem illegal_noArg_eq_none (h4 : 4 ≤ (opcOf w).toNat) (h6 : (opcOf w).toNat ≤ 6) (hr : rsvOf w = 0)
    (ha : argOf w = 0) : illegal w = none :=
  (illegal_noArg h4 h6 hr).trans (if_neg (not_not.2 ha))

/-! ## A legal command word with its operand words -/

theorem assemble_of_short (h : ops.length < nops (opcOf w)) : assemble w ops = none := by
  unfold assemble
  split <;> simp_all [nops]

/-- A legal command word is the command of its words, or still waits for operand words. -/
theorem decode_of_legal (hi : illegal w = none) :
    decode (w :: ops) =
      (assemble w ops).elim .incomplete fun i => .command i (ops.drop (nops (opcOf w))) := by
  by_cases hs : ops.length < nops (opcOf w)
  · rw [decode_short hs, assemble_of_short hs]; rfl
  · simp only [decode, hs, hi, if_false]
    cases assemble w ops <;> rfl

theorem decode_cfgWr (ho : (opcOf w).toNat = 1) (hr : rsvOf w = 0) (ha : (argOf w).toNat ≤ 0x07) :
    decode (w :: ops) =
      match ops with
      | o :: rest => .command (.cfgWr (argOf w) o) rest
      | [] => .incomplete := by
  have hl : illegal w = none := (illegal_cfgWr ho hr).trans (if_pos (writableSelector_iff.2 ha))
  rw [decode_of_legal hl]
  cases ops <;> simp [assemble, nops, ho]

theorem decode_cfgRd (ho : (opcOf w).toNat = 2) (hr : rsvOf w = 0)
    (ha : (argOf w).toNat ≤ 0x07 ∨ 0x10 ≤ (argOf w).toNat ∧ (argOf w).toNat ≤ 0x17) :
    decode (w :: ops) = .command (.cfgRd (argOf w)) ops := by
  have hl : illegal w = none := (illegal_cfgRd ho hr).trans (if_pos (readableSelector_iff.2 ha))
  rw [decode_of_legal hl]
  simp [assemble, nops, ho]

theorem decode_beginCall (ho : (opcOf w).toNat = 3) (hr : rsvOf w = 0) (ha : (argOf w).toNat / 4 = 0) :
    decode (w :: ops) =
      match ops with
      | o :: rest =>
        .command (.beginCall ((argOf w).toNat % 2 == 1) ((argOf w).toNat / 2 % 2 == 1) o) rest
      | [] => .incomplete := by
  have hl : illegal w = none := (illegal_beginCall ho hr).trans (if_neg (not_not.2 ha))
  rw [decode_of_legal hl, ← getLsbD_zero_eq, ← getLsbD_one_eq]
  cases ops <;> simp [assemble, nops, ho]

theorem decode_push (ho : (opcOf w).toNat = 4) (hr : rsvOf w = 0) (ha : argOf w = 0) :
    decode (w :: ops) =
      match ops with
      | o :: rest => .command (.push o) rest
      | [] => .incomplete := by
  rw [decode_of_legal (illegal_noArg_eq_none (by omega) (by omega) hr ha)]
  cases ops <;> simp [assemble, nops, ho]

theorem decode_push2 (ho : (opcOf w).toNat = 5) (hr : rsvOf w = 0) (ha : argOf w = 0) :
    decode (w :: ops) =
      match ops with
      | o :: o' :: rest => .command (.push2 o o') rest
      | _ => .incomplete := by
  rw [decode_of_legal (illegal_noArg_eq_none (by omega) (by omega) hr ha)]
  rcases ops with _ | ⟨o, _ | ⟨o', rest⟩⟩ <;> simp [assemble, nops, ho]

theorem decode_endCall (ho : (opcOf w).toNat = 6) (hr : rsvOf w = 0) (ha : argOf w = 0) :
    decode (w :: ops) = .command .endCall ops := by
  rw [decode_of_legal (illegal_noArg_eq_none (by omega) (by omega) hr ha)]
  simp [assemble, nops, ho]

end Sys2Proof

namespace Sys2Proof.Machine

/-- The operand words of an opcode are those the spec's table counts (30_encoding.md R86). -/
theorem nops_eq_operandCount (opc : Byte) : nops opc = Rule.operandCount opc.toNat := by
  unfold nops
  split <;> simp_all [Rule.operandCount]

/-- Settles O3: with the fields as numbers, one lemma for each test and one for each command. -/
theorem decodeFollowsTheOrderOfTests : Obligations.DecodeFollowsTheOrderOfTests := by
  rintro w ops opc arg rsv rfl rfl rfl
  simp only [← opcOf_toNat, ← argOf_toNat, ← rsvOf_toNat, ne_eq, ← rsvOf_eq_zero_iff, ← argOf_eq_zero_iff,
    BitVec.ofNat_toNat, BitVec.setWidth_eq, ← nops_eq_operandCount]
  refine ⟨illegal_opcode, illegal_reserved, ?_, ?_, ?_, ?_, fun _ => decode_of_illegal, decode_cfgWr, decode_cfgRd,
    decode_beginCall, decode_push, decode_push2, decode_endCall⟩
  · exact fun ho hr ha => (illegal_cfgWr ho hr).trans (if_neg (mt writableSelector_iff.1 (by omega)))
  · exact fun ho hr ha => (illegal_cfgRd ho hr).trans (if_neg (mt readableSelector_iff.1 ha))
  · exact fun ho hr ha => (illegal_beginCall ho hr).trans (if_pos ha)
  · exact fun h4 h6 hr ha => (illegal_noArg h4 h6 hr).trans (if_pos ha)

end Sys2Proof.Machine
end

section
/-! The values of the stages: int16 samples, the hard clipper and the output clamp (40_datapath_stages.md R112, R119,
R129). -/

namespace Sys2Proof.Machine

/-! ## Order by keys -/

theorem F64.key_of_not_isNaN {v : F64} (h : v.isNaN = false) : ∃ x, v.key = some x := by
  cases v with
  | nan => cases h
  | inf n => exact ⟨_, rfl⟩
  | fin n m => exact ⟨_, rfl⟩

theorem F64.key_neg {v : F64} {x : Int} (h : v.key = some x) : v.neg.key = some (-x) := by
  cases v with
  | nan => cases h
  | inf n => cases h; exact congrArg some (signedMag_not ..)
  | fin n m => cases h; exact congrArg some (signedMag_not ..)

theorem F64.lt_iff_of_key {a b : F64} {x y : Int} (ha : a.key = some x) (hb : b.key = some y) :
    a.lt b = true ↔ x < y := by
  simp [F64.lt, ha, hb]

theorem F64.le_iff_of_key {a b : F64} {x y : Int} (ha : a.key = some x) (hb : b.key = some y) :
    a.le b = true ↔ x ≤ y := by
  simp [F64.le, ha, hb]

/-- A positive value has a positive key. -/
theorem F64.key_of_pos {v : F64} (h : F64.zero.lt v = true) : ∃ x, v.key = some x ∧ 0 < x := by
  cases v with
  | nan => cases h
  | inf n => exact ⟨_, rfl, (F64.lt_iff_of_key (a := F64.zero) rfl rfl).mp h⟩
  | fin n m => exact ⟨_, rfl, (F64.lt_iff_of_key (a := F64.zero) rfl rfl).mp h⟩

/-! ## Int16 samples -/

/-- An exact ratio that is a finite representable magnitude is the result. -/
theorem F64.round_eq_of_exact {n : Bool} {num den r : Nat} (hd : 0 < den) (hr : F64.magOk r = true)
    (h : num = r * den) : F64.round n num den = .fin n r := by
  obtain ⟨hrep, hlt⟩ := F64.magOk_iff.mp hr
  rw [F64.round, F64.roundMag_eq hd hrep h, F64.ofMag, if_pos hlt]

/-- 1.0 is 32768 units of 2^-15. -/
theorem F64.unit_eq_int16_levels : F64.unit = 32768 * 2 ^ (F64.unitExp - 15) := by
  rw [F64.unit_eq, show 32768 = 2 ^ 15 by rfl, ← Nat.pow_add, Nat.add_sub_cancel' (by rw [F64.unitExp_eq]; omega)]

/-- Division by 32768 is exact on an integer that binary64 has. -/
theorem normI16_eq {n : Int} (h : n.natAbs < 2 ^ 53) :
    normI16 n = .fin (decide (n < 0)) (n.natAbs * 2 ^ (F64.unitExp - 15)) := by
  have hden : 0 < 32768 * F64.unit := Nat.mul_pos (by decide) F64.unit_pos
  have hmag : F64.magOk (n.natAbs * 2 ^ (F64.unitExp - 15)) = true := by
    refine F64.magOk_iff.mpr ⟨(Rep.of_lt h).mul_pow _, lt_of_le_of_lt ?_ (F64.mul_unit_lt_beyond h (by omega))⟩
    exact Nat.mul_le_mul_left _ (Nat.pow_le_pow_right (by decide) (Nat.sub_le ..))
  have hexact : n.natAbs * F64.unit * F64.unit = n.natAbs * 2 ^ (F64.unitExp - 15) * (32768 * F64.unit) := by
    rw [F64.unit_eq_int16_levels]; ring
  calc normI16 n
      = F64.round (decide (n < 0)) (n.natAbs * F64.unit * F64.unit) (32768 * F64.unit) := by
        rw [normI16, F64.ofInt_eq h, F64.ofInt_eq (by decide)]
        simp [F64.div, F64.unit_pos.ne']
    _ = .fin (decide (n < 0)) (n.natAbs * 2 ^ (F64.unitExp - 15)) := F64.round_eq_of_exact hden hmag hexact

theorem signedMag_natAbs_mul (n : Int) (k : Nat) : signedMag (decide (n < 0)) (n.natAbs * k) = n * k := by
  unfold signedMag
  split_ifs with h
  · rw [decide_eq_true_eq] at h
    rw [Int.natCast_mul, Int.ofNat_natAbs_of_nonpos h.le, neg_mul, neg_neg]
  · rw [decide_eq_true_eq, not_lt] at h
    rw [Int.natCast_mul, Int.natAbs_of_nonneg h]

/-- In the order a normalized sample stands at `n` units of 2^-15. -/
theorem normI16_key {n : Int} (h : n.natAbs < 2 ^ 53) :
    (normI16 n).key = some (n * (2 ^ (F64.unitExp - 15) : Nat)) := by
  rw [normI16_eq h]
  exact congrArg some (signedMag_natAbs_mul ..)

/-- Normalization keeps the order of the integers. -/
theorem normI16_le_of_le {m n : Int} (hm : m.natAbs < 2 ^ 53) (hn : n.natAbs < 2 ^ 53) (h : m ≤ n) :
    (normI16 m).le (normI16 n) = true :=
  (F64.le_iff_of_key (normI16_key hm) (normI16_key hn)).mpr (Int.mul_le_mul_of_nonneg_right h (Int.natCast_nonneg _))

theorem normI16_least : normI16 (-32768) = F64.one.neg := by
  rw [normI16_eq (by decide), F64.one_eq, F64.unit_eq_int16_levels]
  rfl

theorem normI16_greatest : normI16 32767 = F64.ofBits 0x3FEFFFC000000000#64 := by decide +kernel

/-- Settles O32: the division is exact and keeps the order, so the ends of the range bound the result. -/
theorem int16SamplesNormalizeExactly : Obligations.Int16SamplesNormalizeExactly := by
  intro n hlow hhigh
  have hn : n.natAbs < 2 ^ 53 := by omega
  refine ⟨normI16_finite hn, normI16_eq hn, ?_, ?_⟩
  · rw [← normI16_least]
    exact normI16_le_of_le (by decide) hn hlow
  · rw [← normI16_greatest]
    exact normI16_le_of_le hn (by decide) hhigh

/-! ## Hard clipper -/

/-- The three branches of the clipper, told apart by where the value stands (40_datapath_stages.md R119). -/
theorem hclip_cases {t q : F64} {x y : Int} (ht : t.key = some x) (hq : q.key = some y) :
    (y < -x ∧ hclip t q = t.neg) ∨ (-x ≤ y ∧ x < y ∧ hclip t q = t) ∨ (-x ≤ y ∧ y ≤ x ∧ hclip t q = q) := by
  have hbelow := F64.lt_iff_of_key hq (F64.key_neg ht)
  have habove := F64.lt_iff_of_key ht hq
  unfold hclip
  split_ifs with h1 h2
  · exact .inl ⟨hbelow.mp h1, rfl⟩
  · exact .inr (.inl ⟨not_lt.mp (mt hbelow.mpr h1), habove.mp h2, rfl⟩)
  · exact .inr (.inr ⟨not_lt.mp (mt hbelow.mpr h1), not_lt.mp (mt habove.mpr h2), rfl⟩)

/-- Settles O35: a positive threshold lies above its negation, so the three branches exclude each other. -/
theorem hardClipKeepsWithinTheThreshold : Obligations.HardClipKeepsWithinTheThreshold := by
  intro t q hpos hnan
  obtain ⟨x, ht, hx⟩ := F64.key_of_pos hpos
  obtain ⟨y, hq⟩ := F64.key_of_not_isNaN hnan
  have hneg := F64.key_neg ht
  rw [F64.lt_iff_of_key hq hneg, F64.lt_iff_of_key ht hq, F64.le_iff_of_key hneg hq, F64.le_iff_of_key hq ht]
  rcases hclip_cases ht hq with ⟨hy, he⟩ | ⟨-, hy, he⟩ | ⟨hy, hy', he⟩
  · rw [he, F64.le_iff_of_key hneg hneg, F64.le_iff_of_key hneg ht]
    exact ⟨le_rfl, by omega, fun _ => rfl, fun h => by omega, fun h => by omega⟩
  · rw [he, F64.le_iff_of_key hneg ht, F64.le_iff_of_key ht ht]
    exact ⟨by omega, le_rfl, fun h => by omega, fun _ => rfl, fun _ h => by omega⟩
  · rw [he, F64.le_iff_of_key hneg hq, F64.le_iff_of_key hq ht]
    exact ⟨hy, hy', fun h => by omega, fun h => by omega, fun _ _ => rfl⟩

/-! ## Output -/

/-- The word a channel emits for a mixed value that is a number. -/
theorem mixed_output_inUnit {s : State} {tie : RoundTie} {h d st : F64} (hn : (s.mixed tie h d st).isNaN = false) :
    (F64.ofBits (clamp1 (s.mixed tie h d st)).toBits).inUnit = true :=
  toBits_inUnit (clamp1_ok (mixStage_ok ..)) (clamp1_inUnit hn)

theorem pushed_results (s : State) (tie : RoundTie) (d : F64) :
    (s.pushed tie d).results = s.results ++ [(clamp1 (s.pushMixed tie d)).toBits] := rfl

theorem pushed2_results (s : State) (tie : RoundTie) (dL dR : F64) :
    (s.pushed2 tie dL dR).results = s.results ++
      [(clamp1 (s.push2Mixed tie dL dR).1).toBits, (clamp1 (s.push2Mixed tie dL dR).2).toBits] :=
  List.append_assoc ..

/-- Settles O40: a command that does not fault emits the clamp of mixed values that are numbers. -/
theorem everyOutputLiesInUnitRange : Obligations.EveryOutputLiesInUnitRange := by
  refine ⟨fun _ => clamp1_inUnit, fun s t hmode => ⟨fun op h => ?_, fun op0 op1 h => ?_⟩⟩
  · obtain ⟨c, rfl, -⟩ | ⟨-, d, -, hn, rfl⟩ := pushUnder_cases h
    · exact absurd (takeFault_mode ..) hmode
    · exact ⟨_, pushed_results .., mixed_output_inUnit hn⟩
  · obtain ⟨c, rfl, -⟩ | ⟨-, dL, dR, -, -, hnL, hnR, rfl⟩ := push2Under_cases h
    · exact absurd (takeFault_mode ..) hmode
    · exact ⟨_, _, pushed2_results .., mixed_output_inUnit hnL, mixed_output_inUnit hnR⟩

end Sys2Proof.Machine
end

section
/-! The sample commands `PUSH` and `PUSH2` (41_sample_commands.md). -/

namespace Sys2Proof.Machine

/-! ## Reserved bits of a command without `ARG` -/

/-- `PUSH`, `PUSH2` and `END` have no `ARG` field, so each of their bits above the opcode is reserved (30_encoding.md
R89). -/
theorem illegal_noArg_of_ne_zero {w : Word} (h4 : 4 ≤ (opcOf w).toNat) (h6 : (opcOf w).toNat ≤ 6)
    (h : argOf w ≠ 0 ∨ rsvOf w ≠ 0) : illegal w = some .reservedBits := by
  by_cases hr : rsvOf w = 0
  · exact (illegal_noArg h4 h6 hr).trans (if_pos (h.resolve_right (not_not.mpr hr)))
  · exact illegal_reserved (by omega) h6 hr

/-! ## Sample operands -/

/-- Sign extension and its inverse: the low 16 bits of an int16 sample's word give the sample back. -/
theorem sint16_ofInt {n : Int} (hlow : -32768 ≤ n) (hhigh : n ≤ 32767) : sint16 (BitVec.ofInt 64 n) = n := by
  have hlow16 : Word.field (BitVec.ofInt 64 n) 0 16 = BitVec.ofInt 16 n := by
    apply BitVec.eq_of_toNat_eq
    simp [Word.field]
    omega
  rw [sint16, hlow16, BitVec.toInt_ofInt_eq_self (by decide) (by omega) (by omega)]

/-- An accepted sample operand, in the rule's words, is what `IN` returns (41_sample_commands.md R150). -/
theorem inSample_of_input {fmt : SampleFormat} {w : Word} {d : F64} (h : Rule.input fmt w d) :
    inSample fmt w = .ok d := by
  obtain ⟨rfl, hfin, rfl⟩ | ⟨rfl, n, hlow, hhigh, rfl, rfl⟩ := h
  · exact if_pos hfin
  · have hn := sint16_ofInt hlow hhigh
    rw [inSample, hn]
    exact if_pos rfl

/-- A refused sample operand, in the rule's words, is what `IN` refuses, with the same code. -/
theorem inSample_of_badInput {fmt : SampleFormat} {w : Word} {c : FaultCode} (h : Rule.badInput fmt w c) :
    inSample fmt w = .error c := by
  obtain ⟨rfl, hfin, rfl⟩ | ⟨rfl, hno, rfl⟩ := h
  · exact if_neg (by simp [hfin])
  · obtain ⟨hlow, hhigh⟩ := sint16_bounds w
    exact if_neg (hno _ hlow hhigh)

/-! ## Raising a fault outside `FAULTED` -/

theorem raiseFault_of_not_faulted {s : State} (hm : s.mode ≠ .faulted) (c : FaultCode) (i : Instr) :
    raiseFault c i s = .next (Rule.faulted s c i.opc i.arg) :=
  congrArg Host.Outcome.next (State.takeFault_of_not_faulted hm ..)

/-! ## `PUSH`, branch by branch -/

theorem encode_push (op : Word) : encode (.push op) = [0x0000000000000004#64, op] :=
  congrArg (· :: [op]) (by decide : cmdWord 0x04#8 0x00#8 = 0x0000000000000004#64)

section Push
variable {s : State} {op : Word} {c : FaultCode} {d : F64}

theorem exec_push_of_idle_or_stereo (hm : s.mode = .idle ∨ s.mode = .stereo) :
    exec (.push op) s = .next (Rule.faulted s .sequence 0x04#8 0x00#8) := by
  have hmono : s.mode ≠ .mono := by rcases hm with hm | hm <;> simp [hm]
  have hfaulted : s.mode ≠ .faulted := by rcases hm with hm | hm <;> simp [hm]
  exact (if_pos hmono).trans (raiseFault_of_not_faulted hfaulted ..)

variable (hm : s.mode = .mono)
include hm

theorem exec_push_of_refused (hc : inSample s.fmt op = .error c) :
    exec (.push op) s = .next (Rule.faulted s c 0x04#8 0x00#8) := by
  simp [exec, execPush, pushUnder, hm, hc, raiseFault_of_not_faulted, Instr.opc, Instr.arg]

theorem exec_push_of_nan (hd : inSample s.fmt op = .ok d) (hn : (s.pushMixed Config.roundTie d).isNaN = true) :
    exec (.push op) s = .next (Rule.faulted s .numericNan 0x04#8 0x00#8) := by
  rw [State.pushMixed] at hn
  simp [exec, execPush, pushUnder, hm, hd, hn, raiseFault_of_not_faulted, Instr.opc, Instr.arg]

theorem exec_push_of_number (hd : inSample s.fmt op = .ok d) (hn : (s.pushMixed Config.roundTie d).isNaN = false) :
    exec (.push op) s = .next (s.pushed Config.roundTie d) := by
  rw [State.pushMixed] at hn
  simp [exec, execPush, pushUnder, hm, hd, hn, State.pushed]

end Push

/-- The state a completed `PUSH` leaves, in the rule's words (41_sample_commands.md R151): each stage function unfolds
to the formula the rule writes. -/
theorem pushed_eq_rule (s : State) (d : F64) :
    s.pushed Config.roundTie d =
      let h := if s.phase = 0 then d else F64.ofBits s.holdL
      let p := Rule.processed s h (F64.ofBits s.filtL)
      { s with
        holdL := if s.phase = 0 then d.toBits else s.holdL
        filtL := if s.lpfEn = 1 then p.toBits else s.filtL
        phase := Rule.phase s
        results := s.results ++ [Rule.output (Rule.mixed s p d)] } := rfl

/-- Settles O18: one branch of `PUSH` for each clause, its formulas in the rule's words. -/
theorem pushRunsOneMonoTimeStep : Obligations.PushRunsOneMonoTimeStep := by
  intro s op
  refine ⟨encode_push op, fun hm d h p v hin hh hp hv => ?_,
    fun hm c hc => exec_push_of_refused hm (inSample_of_badInput hc),
    exec_push_of_idle_or_stereo, fun w hw => illegal_noArg_of_ne_zero (by simp [hw]) (by simp [hw])⟩
  subst hh hp hv
  have hd := inSample_of_input hin
  exact ⟨fun hn => (exec_push_of_number hm hd hn).trans (congrArg _ (pushed_eq_rule s d)), exec_push_of_nan hm hd⟩

/-! ## `PUSH2`, branch by branch -/

theorem encode_push2 (op0 op1 : Word) : encode (.push2 op0 op1) = [0x0000000000000005#64, op0, op1] :=
  congrArg (· :: [op0, op1]) (by decide : cmdWord 0x05#8 0x00#8 = 0x0000000000000005#64)

section Push2
variable {s : State} {op0 op1 : Word} {c : FaultCode} {dL dR : F64}

theorem exec_push2_of_idle_or_mono (hm : s.mode = .idle ∨ s.mode = .mono) :
    exec (.push2 op0 op1) s = .next (Rule.faulted s .sequence 0x05#8 0x00#8) := by
  have hstereo : s.mode ≠ .stereo := by rcases hm with hm | hm <;> simp [hm]
  have hfaulted : s.mode ≠ .faulted := by rcases hm with hm | hm <;> simp [hm]
  exact (if_pos hstereo).trans (raiseFault_of_not_faulted hfaulted ..)

variable (hm : s.mode = .stereo)
include hm

theorem exec_push2_of_refused_left (hc : inSample s.fmt op0 = .error c) :
    exec (.push2 op0 op1) s = .next (Rule.faulted s c 0x05#8 0x00#8) := by
  simp [exec, execPush2, push2Under, hm, hc, raiseFault_of_not_faulted, Instr.opc, Instr.arg]

variable (hL : inSample s.fmt op0 = .ok dL)
include hL

theorem exec_push2_of_refused_right (hc : inSample s.fmt op1 = .error c) :
    exec (.push2 op0 op1) s = .next (Rule.faulted s c 0x05#8 0x00#8) := by
  simp [exec, execPush2, push2Under, hm, hL, hc, raiseFault_of_not_faulted, Instr.opc, Instr.arg]

variable (hR : inSample s.fmt op1 = .ok dR)
include hR

theorem exec_push2_of_nan
    (hn : (s.push2Mixed Config.roundTie dL dR).1.isNaN = true ∨ (s.push2Mixed Config.roundTie dL dR).2.isNaN = true) :
    exec (.push2 op0 op1) s = .next (Rule.faulted s .numericNan 0x05#8 0x00#8) := by
  rw [State.push2Mixed] at hn
  simp [exec, execPush2, push2Under, hm, hL, hR, hn, raiseFault_of_not_faulted, Instr.opc, Instr.arg]

theorem exec_push2_of_numbers (hnL : (s.push2Mixed Config.roundTie dL dR).1.isNaN = false)
    (hnR : (s.push2Mixed Config.roundTie dL dR).2.isNaN = false) :
    exec (.push2 op0 op1) s = .next (s.pushed2 Config.roundTie dL dR) := by
  rw [State.push2Mixed] at hnL hnR
  simp [exec, execPush2, push2Under, hm, hL, hR, hnL, hnR, State.pushed2]

end Push2

/-- Two words emitted one after the other stand on the port in that order. -/
theorem emit_emit (s : State) (v w : Word) :
    (s.emit v).emit w = { s with results := s.results ++ [v, w] } := by
  simp [State.emit]

/-- The state a completed `PUSH2` leaves, in the rule's words (41_sample_commands.md R152). -/
theorem pushed2_eq_rule (s : State) (dL dR : F64) :
    s.pushed2 Config.roundTie dL dR =
      let a := (dL.add dR).div (F64.ofInt 2)
      let nL := if s.downmixEn = 1 then a else dL
      let nR := if s.downmixEn = 1 then a else dR
      let pL := Rule.processed s (if s.phase = 0 then nL else F64.ofBits s.holdL) (F64.ofBits s.filtL)
      let pR := Rule.processed s (if s.phase = 0 then nR else F64.ofBits s.holdR) (F64.ofBits s.filtR)
      { s with
        holdL := if s.phase = 0 then nL.toBits else s.holdL
        holdR := if s.phase = 0 then nR.toBits else s.holdR
        filtL := if s.lpfEn = 1 then pL.toBits else s.filtL
        filtR := if s.lpfEn = 1 then pR.toBits else s.filtR
        phase := Rule.phase s
        results := s.results ++ [Rule.output (Rule.mixed s pL dL), Rule.output (Rule.mixed s pR dR)] } :=
  emit_emit ..

/-- Settles O19: one branch of `PUSH2` for each clause, its formulas in the rule's words. -/
theorem push2RunsOneStereoTimeStep : Obligations.Push2RunsOneStereoTimeStep := by
  intro s op0 op1
  refine ⟨encode_push2 op0 op1,
    fun hm dL dR a nL nR hL hR pL pR vL vR hinL hinR ha hnL hnR hhL hhR hpL hpR hvL hvR => ?_,
    fun hm c hc => exec_push2_of_refused_left hm (inSample_of_badInput hc),
    fun hm d c hd hc => exec_push2_of_refused_right hm (inSample_of_input hd) (inSample_of_badInput hc),
    exec_push2_of_idle_or_mono, fun w hw => illegal_noArg_of_ne_zero (by simp [hw]) (by simp [hw])⟩
  subst ha hnL hnR hhL hhR hpL hpR hvL hvR
  have hdL := inSample_of_input hinL
  have hdR := inSample_of_input hinR
  exact ⟨fun hL hR => (exec_push2_of_numbers hm hdL hdR hL hR).trans (congrArg _ (pushed2_eq_rule s dL dR)),
    exec_push2_of_nan hm hdL hdR⟩

end Sys2Proof.Machine
end

section
/-! The configuration and call commands `CFG_WR`, `CFG_RD`, `BEGIN` and `END` (42_call_and_config.md). -/

namespace Sys2Proof.Machine

/-! ## The words of a command -/

/-- The command word as a number: `ARG` above `OPC` (30_encoding.md R80). -/
theorem cmdWord_eq_ofNat (opc arg : Byte) : cmdWord opc arg = BitVec.ofNat 64 (arg.toNat * 256 + opc.toNat) := by
  apply BitVec.eq_of_toNat_eq
  have hopc := opc.isLt
  have harg := arg.isLt
  rw [cmdWord, BitVec.toNat_append, ← Nat.shiftLeft_add_eq_or_of_lt hopc]
  simp only [BitVec.toNat_append, BitVec.toNat_ofNat, Nat.shiftLeft_eq, Nat.zero_mod, Nat.zero_mul, Nat.zero_or]
  omega

theorem encode_eq_ofNat (i : Instr) :
    encode i = BitVec.ofNat 64 (i.arg.toNat * 256 + i.opc.toNat) :: i.operands :=
  congrArg (· :: i.operands) (cmdWord_eq_ofNat i.opc i.arg)

/-! ## Registers and their selectors (10_state.md R24, R50) -/

@[simp] theorem cfgRegOf_sel (r : CfgReg) : cfgRegOf r.sel = some r := by cases r <;> rfl

theorem exists_cfgReg_of_sel {sel : Byte} (h : sel.toNat ≤ 0x07) : ∃ r : CfgReg, sel = r.sel := by
  obtain ⟨r, hr⟩ := Option.isSome_iff_exists.mp ((cfgRegOf_isSome sel).trans (writableSelector_iff.mpr h))
  exact ⟨r, cfgRegOf_inj hr (cfgRegOf_sel r)⟩

@[simp] theorem read_cfgReg_sel (s : State) (r : CfgReg) : s.read r.sel = some (s.cfg r) := by cases r <;> rfl

@[simp] theorem read_winReg_sel (s : State) (r : WinReg) : s.read r.sel = some (s.win r) := by cases r <;> rfl

/-- Every register with its selector: those of the configuration, then those of the read-only window. -/
def State.registers (s : State) : List (Byte × Word) :=
  [CfgReg.bitdepth, .srrFactor, .mix, .lpfEn, .lpfCutoff, .clipEn, .clipThresh, .downmixEn].map
    (fun r => (r.sel, s.cfg r)) ++
  [WinReg.sr, .steps, .alpha, .phase, .filtL, .filtR, .holdL, .holdR].map (fun r => (r.sel, s.win r))

theorem read_of_mem_registers {s : State} {p : Byte × Word} (h : p ∈ s.registers) : s.read p.1 = some p.2 := by
  rcases List.mem_append.mp h with h | h
  · obtain ⟨r, -, rfl⟩ := List.mem_map.mp h
    exact read_cfgReg_sel s r
  · obtain ⟨r, -, rfl⟩ := List.mem_map.mp h
    exact read_winReg_sel s r

/-! ## `CFG_WR` -/

/-- The write in the rule's words: each register takes the operand where the selector is its own. -/
theorem setCfg_eq_rule (s : State) (r : CfgReg) (v : Word) :
    s.setCfg r v =
      { s with
        bitdepth := if r.sel = 0x00#8 then v else s.bitdepth
        srrFactor := if r.sel = 0x01#8 then v else s.srrFactor
        mix := if r.sel = 0x02#8 then v else s.mix
        lpfEn := if r.sel = 0x03#8 then v else s.lpfEn
        lpfCutoff := if r.sel = 0x04#8 then v else s.lpfCutoff
        clipEn := if r.sel = 0x05#8 then v else s.clipEn
        clipThresh := if r.sel = 0x06#8 then v else s.clipThresh
        downmixEn := if r.sel = 0x07#8 then v else s.downmixEn } := by
  cases r <;> rfl

theorem exec_cfgWr_of_idle {s : State} (hm : s.mode = .idle) (r : CfgReg) (v : Word) :
    exec (.cfgWr r.sel v) s = .next (s.setCfg r v) := by
  simp [exec, execCfgWr, hm]

theorem illegal_cfgWr_of_unwritable {w : Word} (ho : (opcOf w).toNat = 1) (hr : rsvOf w = 0)
    (ha : 0x07 < (argOf w).toNat) : illegal w = some .illegalSelector :=
  (illegal_cfgWr ho hr).trans (if_neg (mt writableSelector_iff.mp (by omega)))

/-- Settles O15: a selector up to 0x07 is a register's own, and the mode decides between the write and the fault. -/
theorem cfgWrStoresItsOperand : Obligations.CfgWrStoresItsOperand := by
  intro s sel v
  refine ⟨encode_eq_ofNat _, fun hsel hm => ?_,
    fun hsel ha => exec_cfgWr_of_active ha (writableSelector_iff.mpr hsel) v, fun w hw => ?_⟩
  · obtain ⟨r, rfl⟩ := exists_cfgReg_of_sel hsel
    rw [exec_cfgWr_of_idle hm, setCfg_eq_rule]
  · have ho : (opcOf w).toNat = 1 := by simp [hw]
    exact ⟨illegal_reserved (by omega) (by omega), illegal_cfgWr_of_unwritable ho⟩

/-! ## `CFG_RD` -/

theorem exec_cfgRd_of_read {s : State} (hm : s.mode ≠ .faulted) {sel : Byte} {v : Word} (h : s.read sel = some v) :
    exec (.cfgRd sel) s = .next { s with results := s.results ++ [v] } := by
  simp [exec, execCfgRd, h, hm, State.emit]

theorem illegal_cfgRd_of_unreadable {w : Word} (ho : (opcOf w).toNat = 2) (hr : rsvOf w = 0)
    (hcfg : 0x07 < (argOf w).toNat) (hwin : ¬ (0x10 ≤ (argOf w).toNat ∧ (argOf w).toNat ≤ 0x17)) :
    illegal w = some .illegalSelector :=
  (illegal_cfgRd ho hr).trans (if_neg (mt readableSelector_iff.mp (by omega)))

/-- Settles O16: the statement's list is every register with its selector, and a read returns its word. -/
theorem cfgRdEmitsTheRegister : Obligations.CfgRdEmitsTheRegister := by
  intro s hm
  refine ⟨fun p (hp : p ∈ s.registers) => ⟨encode_eq_ofNat _, exec_cfgRd_of_read hm (read_of_mem_registers hp)⟩,
    fun w hw => ?_⟩
  have ho : (opcOf w).toNat = 2 := by simp [hw]
  exact ⟨illegal_reserved (by omega) (by omega), illegal_cfgRd_of_unreadable ho⟩

/-! ## `BEGIN` -/

/-- The product `2.0 * PI` is the word the rule gives for it (40_datapath_stages.md R121). -/
theorem twoPi_eq : twoPi = F64.ofBits 0x401921FB54442D18#64 := by decide +kernel

theorem alphaOf_eq_rule (f sr : F64) : alphaOf f sr = Rule.alpha f sr := by
  rw [alphaOf, twoPi_eq, Rule.alpha]

theorem flagOk_iff {w : Word} : flagOk w = true ↔ w = 0 ∨ w = 1 := by simp [flagOk]

/-- The configuration check is the rule's, clause by clause (42_call_and_config.md R173). -/
theorem cfgOk_iff_rule (s : State) (sr : F64) : s.cfgOk sr = true ↔ Rule.cfgOk s sr := by
  simp only [State.cfgOk, Rule.cfgOk, Bool.and_eq_true, Bool.or_eq_true, decide_eq_true_eq, beq_iff_eq, flagOk_iff,
    Bool.not_eq_true', alphaOf_eq_rule, and_assoc, BitVec.ofNat_eq_ofNat]

/-- The state an accepted `BEGIN` leaves, in the rule's words (42_call_and_config.md R172). -/
theorem begun_eq_rule (s : State) (stereo i16 : Bool) (rate : Word) :
    s.begun stereo i16 rate =
      { s with
        sr := rate
        steps := BitVec.ofNat 64 (2 ^ s.bitdepth.toNat - 1)
        alpha := if s.lpfEn = 1 then (Rule.alpha (F64.ofBits s.lpfCutoff) (F64.ofBits rate)).toBits else 0#64
        fmt := if i16 then .int16 else .binary64
        mode := if stereo then .stereo else .mono
        phase := 0#64
        filtL := 0#64
        filtR := 0#64
        holdL := 0#64
        holdR := 0#64 } := by
  rw [← alphaOf_eq_rule]
  rfl

/-- The flags of `BEGIN` in its `ARG` field (30_encoding.md R88). -/
theorem beginCall_arg (stereo i16 : Bool) (rate : Word) :
    (Instr.beginCall stereo i16 rate).arg = BitVec.ofNat 8 (stereo.toNat + 2 * i16.toNat) := by
  cases stereo <;> cases i16 <;> rfl

section Begin
variable {s : State} (stereo i16 : Bool) (rate : Word)

theorem exec_beginCall_of_active (ha : s.active) :
    exec (.beginCall stereo i16 rate) s =
      .next (Rule.faulted s .sequence 0x03#8 (Instr.beginCall stereo i16 rate).arg) :=
  (if_pos ha.ne_idle).trans (raiseFault_of_not_faulted ha.ne_faulted ..)

variable (hm : s.mode = .idle)
include hm

theorem exec_beginCall_of_cfgOk (hc : s.cfgOk (F64.ofBits rate) = true) :
    exec (.beginCall stereo i16 rate) s = .next (s.begun stereo i16 rate) := by
  simp [exec, execBegin, hm, hc]

theorem exec_beginCall_of_not_cfgOk (hc : ¬ s.cfgOk (F64.ofBits rate) = true) :
    exec (.beginCall stereo i16 rate) s =
      .next (Rule.faulted s .configInvalid 0x03#8 (Instr.beginCall stereo i16 rate).arg) := by
  simp [exec, execBegin, hm, hc, raiseFault_of_not_faulted, Instr.opc]

end Begin

theorem illegal_beginCall_of_reserved {w : Word} (ho : (opcOf w).toNat = 3)
    (h : rsvOf w ≠ 0 ∨ (argOf w).toNat / 4 ≠ 0) : illegal w = some .reservedBits := by
  by_cases hr : rsvOf w = 0
  · exact (illegal_beginCall ho hr).trans (if_pos (h.resolve_left (not_not.mpr hr)))
  · exact illegal_reserved (by omega) (by omega) hr

/-- Settles O17: one branch of `BEGIN` for each clause, the check and the state it leaves in the rule's words. -/
theorem beginStartsACallOrRefusesIt : Obligations.BeginStartsACallOrRefusesIt := by
  rintro s stereo i16 rate arg rfl
  simp only [← beginCall_arg stereo i16 rate, ← cfgOk_iff_rule, ← begun_eq_rule]
  exact ⟨encode_eq_ofNat _, exec_beginCall_of_cfgOk stereo i16 rate, exec_beginCall_of_not_cfgOk stereo i16 rate,
    exec_beginCall_of_active stereo i16 rate, fun w hw => illegal_beginCall_of_reserved (by simp [hw])⟩

/-! ## `END` -/

theorem exec_endCall_of_active {s : State} (ha : s.active) : exec .endCall s = .next { s with mode := .idle } :=
  if_pos ha

theorem exec_endCall_of_idle {s : State} (hm : s.mode = .idle) :
    exec .endCall s = .next (Rule.faulted s .sequence 0x06#8 0x00#8) :=
  (if_neg (by simp [hm])).trans (raiseFault_of_not_faulted (by simp [hm]) ..)

/-- Settles O20: the mode decides between closing the call and the fault. -/
theorem endClosesTheCall : Obligations.EndClosesTheCall := fun _ =>
  ⟨encode_eq_ofNat _, exec_endCall_of_active, exec_endCall_of_idle,
    fun w hw => illegal_noArg_of_ne_zero (by simp [hw]) (by simp [hw])⟩

end Sys2Proof.Machine
end

section
/-! `FAULTED` mode (60_exceptions.md R207, R208). -/

namespace Sys2Proof.Machine

variable {s t : State}

/-! ## A word in `FAULTED` -/

theorem step_of_faulted (hm : s.mode = .faulted) : step s = .next (discardNext s) := if_pos hm

theorem discardNext_of_word {w : Word} {es : List HostEvent} (h : s.hostInput = .word w :: es) :
    discardNext s = { s with hostInput := es } := by
  simp [discardNext, State.consume, h]

/-- The port shows neither in the status word (10_state.md R48) nor in `ERR` (R49). -/
theorem hostInput_update_statusWord (s : State) (es : List HostEvent) :
    ({ s with hostInput := es } : State).statusWord = s.statusWord := rfl

theorem hostInput_update_err (s : State) (es : List HostEvent) :
    ({ s with hostInput := es } : State).err = s.err := rfl

theorem err_of_faulted (hm : s.mode = .faulted) : s.err = true := by simp [State.err, hm]

/-- Settles O9: the step in `FAULTED` drops the word, and nothing the host observes depends on the port. -/
theorem faultedModeDiscardsEveryWord : Obligations.FaultedModeDiscardsEveryWord := by
  intro s w es hm hword
  refine ⟨?_, hostInput_update_statusWord s es, (hostInput_update_err s es).trans (err_of_faulted hm)⟩
  rw [step_of_faulted hm, discardNext_of_word hword]

/-! ## The way out of `FAULTED` -/

/-- `t` has the mode and the fault record of `s`. -/
def SameFault (s t : State) : Prop :=
  t.mode = s.mode ∧ t.faultCode = s.faultCode ∧ t.faultOpc = s.faultOpc ∧ t.faultArg = s.faultArg

theorem consume_sameFault (s : State) (n : Nat) : SameFault s (s.consume n) := ⟨rfl, rfl, rfl, rfl⟩

/-- A take moves a result word to the host and leaves the mode and the fault record (20_memory.md R62). -/
theorem taken_sameFault (s : State) (es : List HostEvent) :
    SameFault s { s.takeResult with hostInput := es } :=
  ⟨s.takeResult_mode, s.takeResult_faultCode, s.takeResult_faultOpc, s.takeResult_faultArg⟩

/-- While the block waits, only a RESET of the host touches the mode and the fault record. -/
theorem waitForHost_sameFault_or_reset (s : State) :
    SameFault s s.waitForHost ∨
    (nextSignal s.hostInput = some .reset ∧ s.waitForHost = Rule.afterReset (afterSignal s.hostInput) s.taken) := by
  obtain hkeep | ⟨-, htake⟩ | ⟨hreset, hblock⟩ := s.waitForHost_cases
  · exact .inl (hkeep.symm ▸ ⟨rfl, rfl, rfl, rfl⟩)
  · exact .inl (htake.symm ▸ taken_sameFault s _)
  · exact .inr ⟨hreset, hblock.trans (resetBlock_eq_afterReset ..)⟩

/-- A step from `FAULTED` keeps the mode and the fault record, or is the RESET (60_exceptions.md R208). -/
theorem step_sameFault_or_reset (h : step s = .next t) (hm : s.mode = .faulted) :
    SameFault s t ∨
    (nextSignal s.hostInput = some .reset ∧ t = Rule.afterReset (afterSignal s.hostInput) s.taken) := by
  obtain rfl | ⟨-, -, rfl⟩ | ⟨hne, -⟩ | ⟨hne, -⟩ := step_cases h
  · exact waitForHost_sameFault_or_reset s
  · exact .inl (consume_sameFault s 1)
  · exact absurd hm hne
  · exact absurd hm hne

/-- Settles O24: the block in `FAULTED` runs no command, so a step discards a word or waits for the host. -/
theorem onlyResetLeavesFaulted : Obligations.OnlyResetLeavesFaulted := by
  intro s t h hm
  obtain ⟨hmode, hrecord⟩ | hreset := step_sameFault_or_reset h hm
  · exact .inl ⟨hmode.trans hm, hrecord⟩
  · exact .inr ⟨_, hreset⟩

end Sys2Proof.Machine
end

section
/-! Encoding and decoding are inverse; the byte-wide link; assembler lines as data (30_encoding.md R80 to R98,
20_memory.md R65, R66). -/

namespace Sys2Proof

/-! ## Decoding an encoded command -/

@[simp] theorem nops_opc (i : Instr) : nops i.opc = i.operands.length := by
  cases i <;> rfl

theorem assemble_cmdWord (i : Instr) (rest : List Word) :
    assemble (cmdWord i.opc i.arg) (i.operands ++ rest) = some i := by
  cases i with
  | beginCall stereo i16 rate => cases stereo <;> cases i16 <;> simp [assemble, Instr.opc, Instr.arg, Instr.operands]
  | _ => simp [assemble, Instr.opc, Instr.arg, Instr.operands]

theorem illegal_cmdWord {i : Instr} (h : i.wellFormed = true) : illegal (cmdWord i.opc i.arg) = none := by
  cases i with
  | cfgWr sel v => exact (illegal_cfgWr (by simp [Instr.opc]) (by simp)).trans (if_pos (by simpa [Instr.arg, Instr.wellFormed] using h))
  | cfgRd sel => exact (illegal_cfgRd (by simp [Instr.opc]) (by simp)).trans (if_pos (by simpa [Instr.arg, Instr.wellFormed] using h))
  | beginCall stereo i16 rate =>
    refine (illegal_beginCall (by simp [Instr.opc]) (by simp)).trans (if_neg ?_)
    cases stereo <;> cases i16 <;> simp [Instr.arg]
  | _ => exact illegal_noArg_eq_none (by simp [Instr.opc]) (by simp [Instr.opc]) (by simp) (by simp [Instr.arg])

/-- Settles O1: the command word is legal, and the decoder assembles it with the operand words behind it. -/
theorem decodeOfEncodeIsTheCommand : Obligations.DecodeOfEncodeIsTheCommand := by
  intro i rest hwf
  calc decode (encode i ++ rest)
      = (assemble (cmdWord i.opc i.arg) (i.operands ++ rest)).elim .incomplete fun j =>
          .command j ((i.operands ++ rest).drop (nops (opcOf (cmdWord i.opc i.arg)))) :=
        decode_of_legal (illegal_cmdWord hwf)
    _ = .command i rest := by simp [assemble_cmdWord]

/-! ## Encoding a decoded command -/

/-- What a legal command word is: nothing in `RSV`, and an `ARG` its opcode admits. -/
theorem legal_fields {w : Word} (h : illegal w = none) :
    rsvOf w = 0 ∧ ((opcOf w).toNat = 1 → writableSelector (argOf w) = true) ∧
      ((opcOf w).toNat = 2 → readableSelector (argOf w) = true) ∧
      ((opcOf w).toNat = 3 → (argOf w).toNat / 4 = 0) ∧ (4 ≤ (opcOf w).toNat → argOf w = 0) := by
  have ho : 1 ≤ (opcOf w).toNat ∧ (opcOf w).toNat ≤ 6 := by
    by_contra hc
    rw [illegal_opcode (by omega)] at h
    cases h
  have hr : rsvOf w = 0 := by
    by_contra hc
    rw [illegal_reserved ho.1 ho.2 hc] at h
    cases h
  refine ⟨hr, fun h1 => ?_, fun h2 => ?_, fun h3 => ?_, fun h4 => ?_⟩
  · simpa [illegal_cfgWr h1 hr] using h
  · simpa [illegal_cfgRd h2 hr] using h
  · simpa [illegal_beginCall h3 hr] using h
  · simpa [illegal_noArg h4 ho.2 hr] using h

/-- The two flags of `BEGIN` make up an `ARG` without reserved bits (30_encoding.md R88). -/
theorem beginCall_arg_of_flags {arg : Byte} (h : arg.toNat / 4 = 0) (rate : Word) :
    (Instr.beginCall (arg.getLsbD 0) (arg.getLsbD 1) rate).arg = arg := by
  have hall : ∀ arg : Byte, arg.toNat / 4 = 0 →
      (0#6 ++ BitVec.ofBool (arg.getLsbD 1) ++ BitVec.ofBool (arg.getLsbD 0) : BitVec 8) = arg := by decide
  exact hall arg h

/-- The operand words of a command are the first words after its command word. -/
theorem assemble_words {w : Word} {ops : List Word} {i : Instr} (h : assemble w ops = some i) :
    i.opc = opcOf w ∧ i.operands ++ ops.drop (nops (opcOf w)) = ops := by
  unfold assemble at h
  split at h <;> cases h <;> next ho => simp [Instr.opc, Instr.operands, nops, ho, ← BitVec.toNat_inj]

/-- What is assembled from a legal command word is well formed, and its `ARG` is the word's. -/
theorem assemble_legal {w : Word} {ops : List Word} {i : Instr} (hl : illegal w = none) (h : assemble w ops = some i) :
    i.wellFormed = true ∧ i.arg = argOf w := by
  obtain ⟨-, hcfgWr, hcfgRd, hbegin, hnoArg⟩ := legal_fields hl
  unfold assemble at h
  split at h <;> cases h
  next ho => exact ⟨hcfgWr ho, rfl⟩
  next ho => exact ⟨hcfgRd ho, rfl⟩
  next ho => exact ⟨rfl, beginCall_arg_of_flags (hbegin ho) _⟩
  next ho => exact ⟨rfl, (hnoArg (by omega)).symm⟩
  next ho => exact ⟨rfl, (hnoArg (by omega)).symm⟩
  next ho => exact ⟨rfl, (hnoArg (by omega)).symm⟩

/-- Settles O2: the command word is legal, so its fields and its operand words are those of the command. -/
theorem decodedWordsAreTheEncoding : Obligations.DecodedWordsAreTheEncoding := by
  intro ws rest i h
  obtain ⟨w, ops, rfl⟩ : ∃ w ops, ws = w :: ops := by
    cases ws with
    | nil => cases h
    | cons w ops => exact ⟨w, ops, rfl⟩
  have hl := decode_command_legal h
  rw [decode_of_legal hl] at h
  cases ha : assemble w ops with
  | none => rw [ha] at h; cases h
  | some j =>
    rw [ha] at h
    cases h
    obtain ⟨hopc, hops⟩ := assemble_words ha
    obtain ⟨hwf, harg⟩ := assemble_legal hl ha
    refine ⟨hwf, ?_⟩
    rw [encode, hopc, harg, cmdWord_fields (legal_fields hl).1, List.cons_append, hops]

/-- Settles O4: ten closed runs of the decoder. -/
theorem wordsOfTheSpecDecode : Obligations.WordsOfTheSpecDecode := by
  unfold Obligations.WordsOfTheSpecDecode
  decide

/-! ## The byte-wide link -/

theorem field_eq_ofNat (w : Word) (k : Nat) : w.field (8 * k) 8 = BitVec.ofNat 8 (w.toNat / 256 ^ k) := by
  apply BitVec.eq_of_toNat_eq
  rw [Word.field, BitVec.extractLsb'_toNat, BitVec.toNat_ofNat, Nat.shiftRight_eq_div_pow, Nat.pow_mul]

@[simp] theorem bytesOfWord_length (w : Word) : (bytesOfWord w).length = 8 := by
  simp [bytesOfWord]

theorem bytesOfWord_getElem? (w : Word) {k : Nat} (hk : k < 8) :
    (bytesOfWord w)[k]? = some (BitVec.ofNat 8 (w.toNat / 256 ^ k)) := by
  simp [bytesOfWord, hk, field_eq_ofNat]

theorem field_append_byte (w : Word) {hi lo n : Nat} (h : hi = lo + 8) :
    (w.field hi n ++ w.field lo 8 : BitVec (n + 8)) = w.field lo (n + 8) :=
  BitVec.extractLsb'_append_extractLsb'_eq_extractLsb' h

/-- Eight bytes of the link are the word they were cut from. -/
theorem wordsOfBytes_bytesOfWord (w : Word) (bytes : List Byte) :
    wordsOfBytes (bytesOfWord w ++ bytes) = w :: wordsOfBytes bytes := by
  have hbytes : bytesOfWord w = [w.field 0 8, w.field 8 8, w.field 16 8, w.field 24 8, w.field 32 8, w.field 40 8,
      w.field 48 8, w.field 56 8] := rfl
  have hword : (w.field 56 8 ++ w.field 48 8 ++ w.field 40 8 ++ w.field 32 8 ++ w.field 24 8 ++ w.field 16 8 ++
      w.field 8 8 ++ w.field 0 8 : BitVec 64) = w := by
    repeat rw [field_append_byte w rfl]
    exact BitVec.extractLsb'_eq_self
  rw [hbytes]
  exact congrArg (· :: wordsOfBytes bytes) hword

/-- Less than a word delivers nothing (20_memory.md R66). -/
theorem wordsOfBytes_of_short {bytes : List Byte} (h : bytes.length < 8) : wordsOfBytes bytes = [] := by
  unfold wordsOfBytes
  split
  · simp only [List.length_cons] at h
    omega
  · rfl

theorem wordsOfBytes_flatMap (ws : List Word) {part : List Byte} (h : part.length < 8) :
    wordsOfBytes (ws.flatMap bytesOfWord ++ part) = ws := by
  induction ws with
  | nil => exact wordsOfBytes_of_short h
  | cons w ws ih => rw [List.flatMap_cons, List.append_assoc, wordsOfBytes_bytesOfWord, ih]

/-- Settles O5: the bytes of each word are put together again, and a part of a word is none. -/
theorem linkBytesCarryWholeWords : Obligations.LinkBytesCarryWholeWords :=
  ⟨fun w => ⟨bytesOfWord_length w, fun _ => bytesOfWord_getElem? w⟩, fun ws _ => wordsOfBytes_flatMap ws⟩

end Sys2Proof

namespace Sys2Proof.Machine

/-! ## Assembler lines -/

theorem writableSelector_sel (reg : CfgReg) : writableSelector reg.sel = true := by cases reg <;> rfl

theorem readableSelector_cfgReg_sel (reg : CfgReg) : readableSelector reg.sel = true := by cases reg <;> rfl

theorem readableSelector_winReg_sel (reg : WinReg) : readableSelector reg.sel = true := by cases reg <;> rfl

/-- A line names registers by their selectors, so its command is well formed. -/
theorem wellFormed_of_line {l : AsmLine} {i : Instr} (h : l.command = some i) : i.wellFormed = true := by
  cases l with
  | cfgWr reg v =>
    obtain ⟨w, -, rfl⟩ := Option.map_eq_some_iff.mp h
    exact writableSelector_sel reg
  | cfgRd reg =>
    cases h
    exact readableSelector_cfgReg_sel reg
  | winRd reg =>
    cases h
    exact readableSelector_winReg_sel reg
  | beginCall stereo i16 rate =>
    obtain ⟨w, -, rfl⟩ := Option.map_eq_some_iff.mp h
    rfl
  | push v =>
    obtain ⟨w, -, rfl⟩ := Option.map_eq_some_iff.mp h
    rfl
  | push2 l r =>
    simp only [AsmLine.command] at h
    split at h <;> cases h
    rfl
  | endCall =>
    cases h
    rfl

theorem winRegOf_sel (reg : WinReg) : winRegOf reg.sel = some reg := by cases reg <;> rfl

/-- Settles O6: by the form of the line, and by the register. -/
theorem assemblerLinesNameTheirCommands : Obligations.AssemblerLinesNameTheirCommands :=
  ⟨fun _ _ => wellFormed_of_line, cfgRegOf_sel, winRegOf_sel, fun _ _ => rfl,
    fun _ hlow hhigh => congrArg (Option.map Instr.push) (if_pos ⟨hlow, hhigh⟩)⟩

end Sys2Proof.Machine
end

section
/-! The invariant: each operation of a step keeps it (10_state.md R34 to R49, 40_datapath_stages.md R127, R130). -/

namespace Sys2Proof.Machine

/-! ## Reset -/

/-- Settles O43: the registers are zero, no call runs and nothing is on the result port. -/
theorem resetMeetsTheInvariant : Obligations.ResetMeetsTheInvariant where
  faultRecorded := by decide
  noRecord := by decide
  srFinite := by decide
  alphaNum := by decide
  filtLNum := by decide
  filtRNum := by decide
  holdLNum := by decide
  holdRNum := by decide
  legal := by decide
  stepsValue := by decide
  phaseBound := by decide
  filterOff := by decide
  monoRight := by decide
  foldEqual := by decide
  portBound := Nat.zero_le _

namespace State.Inv
variable {s : State}

/-! ## What one operation keeps -/

/-- The invariant speaks of the ports only through the number of words on the result port. -/
theorem with_ports (hI : s.Inv) (es : List HostEvent) {rs : List Word} (tk : List Word)
    (hrs : rs.length ≤ Config.resDepth) : ({ s with hostInput := es, results := rs, taken := tk } : State).Inv :=
  { hI with portBound := hrs }

theorem resetBlock (s : State) (es : List HostEvent) : (s.resetBlock es).Inv :=
  resetMeetsTheInvariant.with_ports es s.taken (Nat.zero_le _)

theorem consume (hI : s.Inv) (n : Nat) : (s.consume n).Inv := hI.with_ports _ _ hI.portBound

theorem takeResult (hI : s.Inv) (es : List HostEvent) : ({ s.takeResult with hostInput := es } : State).Inv := by
  have hport := hI.portBound
  unfold State.takeResult
  split
  · exact hI.with_ports _ _ hport
  · next w rest hrs =>
    rw [hrs, List.length_cons] at hport
    exact hI.with_ports es (s.taken ++ [w]) (Nat.le_of_succ_le hport)

theorem emit (hI : s.Inv) {w : Word} (hroom : s.results.length + 1 ≤ Config.resDepth) : (s.emit w).Inv :=
  hI.with_ports _ _ (by simpa using hroom)

end State.Inv

/-! ## Out of a call -/

/-- What the invariant says of a call. -/
structure State.CallInv (s : State) : Prop where
  legal : s.active → s.cfgOk (F64.ofBits s.sr) = true
  stepsValue : s.active → s.steps = stepsOf s.bitdepth
  phaseBound : s.active → s.phase.toNat < s.srrFactor.toNat
  filterOff : s.active → s.lpfEn = 0#64 → s.alpha = 0#64 ∧ s.filtL = 0#64 ∧ s.filtR = 0#64
  monoRight : s.mode = .mono → s.filtR = 0#64 ∧ s.holdR = 0#64
  foldEqual : s.mode = .stereo → s.downmixEn = 1#64 → s.holdL = s.holdR ∧ s.filtL = s.filtR

theorem State.CallInv.of_not_active {s : State} (h : ¬ s.active) : s.CallInv where
  legal ha := absurd ha h
  stepsValue ha := absurd ha h
  phaseBound ha := absurd ha h
  filterOff ha := absurd ha h
  monoRight hm := absurd (.inl hm) h
  foldEqual hm := absurd (.inr hm) h

namespace State.Inv
variable {s : State}

theorem takeFault (hI : s.Inv) (c : FaultCode) (o a : Byte) : (s.takeFault c o a).Inv := by
  by_cases hm : s.mode = .faulted
  · rwa [State.takeFault_of_faulted hm]
  · rw [State.takeFault_of_not_faulted hm]
    exact { CallInv.of_not_active (by simp [State.active]), hI with faultRecorded := by simp, noRecord := by simp }

theorem endCall (hI : s.Inv) (ha : s.active) : ({ s with mode := .idle } : State).Inv :=
  { CallInv.of_not_active (by simp [State.active]), hI with
    faultRecorded := by simp [← hI.faultRecorded, ha.ne_faulted] }

theorem setCfg (hI : s.Inv) (hm : s.mode = .idle) (r : CfgReg) (v : Word) : (s.setCfg r v).Inv := by
  have hcall : (s.setCfg r v).CallInv := .of_not_active (by simp [State.active, hm])
  cases r <;> exact { hcall, hI with }

end State.Inv

/-! ## In a call -/

@[simp] theorem ofBits_zero : F64.ofBits 0#64 = F64.zero := by decide

theorem alphaOf_ok (f sr : F64) : (alphaOf f sr).ok = true := F64.div_ok ..

/-- What an accepted configuration says of the rate and of the registers `BEGIN` computes. -/
theorem State.begun_of_cfgOk {s : State} {rate : Word} (hok : s.cfgOk (F64.ofBits rate) = true) (st f : Bool) :
    1 ≤ s.srrFactor.toNat ∧ (F64.ofBits rate).isFinite = true ∧ notNaN (s.begun st f rate).alpha := by
  obtain ⟨-, hfactor, -, -, -, -, ⟨hfin, -⟩, hfilter, -⟩ := (cfgOk_iff_rule ..).mp hok
  refine ⟨hfactor, hfin, ?_⟩
  rw [State.begun_alpha]
  split_ifs with hen
  · obtain hoff | ⟨-, -, hnum⟩ := hfilter
    · rw [hen] at hoff
      cases hoff
    · rw [← alphaOf_eq_rule] at hnum
      exact toBits_not_nan (alphaOf_ok ..) hnum
  · exact congrArg F64.isNaN ofBits_zero

theorem State.begun_alpha_of_off {s : State} (hoff : s.lpfEn = 0#64) (st f : Bool) (rate : Word) :
    (s.begun st f rate).alpha = 0#64 :=
  if_neg (by simp [hoff])

theorem State.filtNext_of_off {s : State} (hoff : s.lpfEn = 0#64) (tie : RoundTie) (h : F64) (st : Word) :
    s.filtNext tie h st = st :=
  if_neg (by simp [hoff])

theorem State.frameLoad_of_fold {s : State} (hfold : s.downmixEn = 1#64) (dL dR own : F64) :
    s.frameLoad dL dR own = fold dL dR :=
  if_pos hfold

/-- With fold-down both lanes load one value, so equal lanes stay equal (40_datapath_stages.md R115). -/
theorem State.pushed2_lanes_eq {s : State} (hfold : s.downmixEn = 1#64) (hlanes : s.holdL = s.holdR ∧ s.filtL = s.filtR)
    (tie : RoundTie) (dL dR : F64) :
    (s.pushed2 tie dL dR).holdL = (s.pushed2 tie dL dR).holdR ∧
      (s.pushed2 tie dL dR).filtL = (s.pushed2 tie dL dR).filtR := by
  obtain ⟨hhold, hfilt⟩ := hlanes
  simp [State.pushed2, State.frameLoad_of_fold hfold, hhold, hfilt]

namespace State.Inv
variable {s : State}

theorem begun (hI : s.Inv) (hm : s.mode = .idle) (st f : Bool) {rate : Word}
    (hok : s.cfgOk (F64.ofBits rate) = true) : (s.begun st f rate).Inv := by
  obtain ⟨hfactor, hfin, halpha⟩ := State.begun_of_cfgOk hok st f
  have hzero : notNaN 0#64 := congrArg F64.isNaN ofBits_zero
  have hcode : s.faultCode = none := by simpa [hm] using hI.faultRecorded
  exact
    { faultRecorded := by cases st <;> simp [hcode]
      noRecord := hI.noRecord
      srFinite := hfin
      alphaNum := halpha
      filtLNum := hzero
      filtRNum := hzero
      holdLNum := hzero
      holdRNum := hzero
      legal := fun _ => hok
      stepsValue := fun _ => rfl
      phaseBound := fun _ => hfactor
      filterOff := fun _ hoff => ⟨State.begun_alpha_of_off hoff st f rate, rfl, rfl⟩
      monoRight := fun _ => ⟨rfl, rfl⟩
      foldEqual := fun _ _ => ⟨rfl, rfl⟩
      portBound := hI.portBound }

theorem pushed (hI : s.Inv) (hm : s.mode = .mono) {tie : RoundTie} {op : Word} {d : F64} (hd : inSample s.fmt op = .ok d)
    (hn : (s.pushMixed tie d).isNaN = false) (hroom : s.results.length + 1 ≤ Config.resDepth) :
    (s.pushed tie d).Inv := by
  obtain ⟨hfin, hok⟩ := inSample_finite hd
  exact
    { hI with
      filtLNum := filtNext_not_nan hn hI.filtLNum
      holdLNum := holdNext_not_nan hok (F64.isNaN_of_isFinite hfin) hI.holdLNum
      phaseBound := fun ha => phaseNext_lt (hI.phaseBound ha)
      filterOff := fun ha hoff => by
        obtain ⟨halpha, hL, hR⟩ := hI.filterOff ha hoff
        exact ⟨halpha, (State.filtNext_of_off hoff ..).trans hL, hR⟩
      foldEqual := fun hst => absurd (hm.symm.trans hst) (by decide)
      portBound := by simpa [pushed_results] using hroom }

theorem pushed2 (hI : s.Inv) (hm : s.mode = .stereo) {tie : RoundTie} {op0 op1 : Word} {dL dR : F64}
    (hdL : inSample s.fmt op0 = .ok dL) (hdR : inSample s.fmt op1 = .ok dR)
    (hnL : (s.push2Mixed tie dL dR).1.isNaN = false) (hnR : (s.push2Mixed tie dL dR).2.isNaN = false)
    (hroom : s.results.length + 2 ≤ Config.resDepth) : (s.pushed2 tie dL dR).Inv := by
  obtain ⟨hfinL, hokL⟩ := inSample_finite hdL
  obtain ⟨hfinR, hokR⟩ := inSample_finite hdR
  obtain ⟨hloadL, hnumL⟩ := frameLoad_not_nan (s := s) hfinL hfinR hfinL hokL
  obtain ⟨hloadR, hnumR⟩ := frameLoad_not_nan (s := s) hfinL hfinR hfinR hokR
  exact
    { hI with
      filtLNum := filtNext_not_nan hnL hI.filtLNum
      filtRNum := filtNext_not_nan hnR hI.filtRNum
      holdLNum := holdNext_not_nan hloadL hnumL hI.holdLNum
      holdRNum := holdNext_not_nan hloadR hnumR hI.holdRNum
      phaseBound := fun ha => phaseNext_lt (hI.phaseBound ha)
      filterOff := fun ha hoff => by
        obtain ⟨halpha, hL, hR⟩ := hI.filterOff ha hoff
        exact ⟨halpha, (State.filtNext_of_off hoff ..).trans hL, (State.filtNext_of_off hoff ..).trans hR⟩
      monoRight := fun hmono => absurd (hm.symm.trans hmono) (by decide)
      foldEqual := fun _ hfold => State.pushed2_lanes_eq (s := s) hfold (hI.foldEqual hm hfold) tie dL dR
      portBound := by simpa [pushed2_results] using hroom }

/-! ## A command, and a step -/

theorem of_exec (hI : s.Inv) {i : Instr} {t : State} (hroom : s.hasRoom i.nres = true) (h : exec i s = .next t) : t.Inv := by
  have hroom := of_decide_eq_true hroom
  obtain ⟨c, rfl⟩ | ⟨-, rfl⟩ | ⟨-, -, -, -, -, heffect⟩ := exec_next_cases h
  · exact hI.takeFault c _ _
  · exact hI
  · cases i with
    | cfgWr sel v =>
      obtain ⟨hm, r, -, rfl⟩ := heffect
      exact hI.setCfg hm r v
    | cfgRd sel =>
      obtain ⟨w, -, rfl⟩ := heffect
      exact hI.emit hroom
    | beginCall st f rate =>
      obtain ⟨hm, hok, rfl⟩ := heffect
      exact hI.begun hm st f hok
    | push o =>
      obtain ⟨hm, d, hd, hn, rfl⟩ := heffect
      exact hI.pushed hm hd hn hroom
    | push2 o o' =>
      obtain ⟨hm, dL, dR, hdL, hdR, hnL, hnR, rfl⟩ := heffect
      exact hI.pushed2 hm hdL hdR hnL hnR hroom
    | endCall =>
      obtain ⟨ha, rfl⟩ := heffect
      exact hI.endCall ha

theorem of_waitForHost (hI : s.Inv) : s.waitForHost.Inv := by
  obtain hkeep | ⟨-, htake⟩ | ⟨-, hreset⟩ := s.waitForHost_cases
  · rwa [hkeep]
  · exact htake ▸ hI.takeResult _
  · exact hreset ▸ resetBlock s _

end State.Inv

/-- Settles O44: every branch of a step is an operation that keeps the invariant. -/
theorem stepKeepsTheInvariant : Obligations.StepKeepsTheInvariant := by
  intro s t hI h
  obtain rfl | ⟨-, -, rfl⟩ | ⟨-, c, w, -, rfl⟩ | ⟨-, i, rest, -, hroom, hexec⟩ := step_cases h
  · exact hI.of_waitForHost
  · exact hI.consume 1
  · exact (hI.consume _).takeFault c _ _
  · exact (hI.consume _).of_exec hroom hexec

/-- Settles O45: by induction on how the state is reached. -/
theorem reachableStatesMeetTheInvariant : Obligations.ReachableStatesMeetTheInvariant := by
  intro s hs
  induction hs with
  | start => exact resetMeetsTheInvariant
  | deliver es _ hI => exact hI.with_ports _ _ hI.portBound
  | step _ h hI => exact stepKeepsTheInvariant _ _ hI h

end Sys2Proof.Machine
end

section
/-! The filter's coefficient lies in [0, 1], and a call in range stays in range (40_datapath_stages.md R121, R130;
43_host_operations.md R193). -/

namespace Sys2Proof.Machine

/-! ## Values with a clear sign bit -/

/-- A number with a clear sign bit: +0.0, a positive value or the positive infinity. -/
def F64.SignClear (v : F64) : Prop := v = .inf false ∨ ∃ m, v = .fin false m

theorem F64.round_signClear (num den : Nat) : (F64.round false num den).SignClear := by
  unfold F64.round F64.ofMag
  split
  · exact .inr ⟨_, rfl⟩
  · exact .inl rfl

theorem F64.fin_mul_fin_signClear (m m' : Nat) : ((F64.fin false m).mul (.fin false m')).SignClear :=
  F64.round_signClear ..

theorem F64.one_div_signClear {v : F64} (h : v.SignClear) : (F64.one.div v).SignClear := by
  obtain rfl | ⟨m, rfl⟩ := h
  · exact .inr ⟨0, rfl⟩
  · simp only [F64.one, F64.div, F64.unit_pos.ne', if_false]
    split
    · exact .inl rfl
    · exact F64.round_signClear ..

theorem F64.add_signClear {a b : F64} (ha : a.SignClear) (hb : b.SignClear) : (a.add b).SignClear := by
  obtain rfl | ⟨m, rfl⟩ := ha <;> obtain rfl | ⟨n, rfl⟩ := hb
  · exact .inl rfl
  · exact .inl rfl
  · exact .inl rfl
  · have hsum : ¬ (m : Int) + n < 0 := by omega
    simp only [F64.add, signedMag, Bool.false_eq_true, if_false, hsum, decide_false]
    split
    · exact .inr ⟨0, rfl⟩
    · exact F64.round_signClear ..

/-- A finite sum of numbers with a clear sign bit is at least each of them. -/
theorem F64.le_of_add_eq_fin {a b : F64} {s : Nat} (ha : a.SignClear) (hb : b.SignClear) (hok : b.ok = true)
    (h : a.add b = .fin false s) : ∃ n, b = .fin false n ∧ n ≤ s := by
  obtain rfl | ⟨m, rfl⟩ := ha <;> obtain rfl | ⟨n, rfl⟩ := hb
  · cases h
  · cases h
  · cases h
  · refine ⟨n, rfl, ?_⟩
    simp only [F64.add, signedMag, Bool.false_eq_true, if_false] at h
    split at h
    · omega
    · unfold F64.round F64.ofMag at h
      split at h <;> cases h
      exact F64.le_roundMag (by omega) (F64.magOk_iff.mp hok).1 (by omega)

/-- A quotient of at most one that is a number lies in [0, 1]. -/
theorem F64.div_le_one {a b : F64} (ha : a.SignClear) (hb : b.SignClear)
    (hle : ∀ n, b = .fin false n → ∃ m, a = .fin false m ∧ m ≤ n) (hnum : (a.div b).isNaN = false) :
    ∃ m, a.div b = .fin false m ∧ m ≤ F64.unit := by
  obtain rfl | ⟨n, rfl⟩ := hb
  · obtain rfl | ⟨m, rfl⟩ := ha
    · cases hnum
    · exact ⟨0, rfl, Nat.zero_le _⟩
  · obtain ⟨m, rfl, hmn⟩ := hle n rfl
    simp only [F64.div, Bool.xor_self] at hnum ⊢
    split at hnum
    next hn =>
      rw [hn, Nat.le_zero] at hmn
      simp [hmn, F64.isNaN] at hnum
    next hn =>
      rw [if_neg hn]
      exact F64.round_le (Nat.pos_of_ne_zero hn) F64.unit_magOk (by rw [Nat.mul_comm]; exact Nat.mul_le_mul_left _ hmn)

theorem F64.fin_le_one {m : Nat} (h : m ≤ F64.unit) :
    F64.zero.le (.fin false m) = true ∧ (F64.fin false m).le F64.one = true :=
  ⟨(F64.le_iff_of_key (a := F64.zero) rfl rfl).mpr (Int.natCast_nonneg m),
    (F64.le_iff_of_key (b := F64.one) rfl rfl).mpr (Int.ofNat_le.mpr h)⟩

/-! ## The coefficient -/

theorem twoPi_eq_fin : ∃ m, twoPi = .fin false m := ⟨_, by rw [twoPi_eq]; rfl⟩

/-- A coefficient that is a number lies in [0, 1]: it divides `dt` by a sum that `dt` is a part of. -/
theorem alphaOf_inRange {f sr : F64} (hf : f.isFinite = true) (hf0 : F64.zero.lt f = true) (hsr : sr.isFinite = true)
    (hsr0 : F64.zero.lt sr = true) (hnum : (alphaOf f sr).isNaN = false) :
    F64.zero.le (alphaOf f sr) = true ∧ (alphaOf f sr).le F64.one = true := by
  obtain ⟨mf, rfl, -⟩ := F64.pos_finite hf0 hf
  obtain ⟨ms, rfl, -⟩ := F64.pos_finite hsr0 hsr
  obtain ⟨mp, hpi⟩ := twoPi_eq_fin
  have hrc : (F64.one.div (twoPi.mul (.fin false mf))).SignClear :=
    F64.one_div_signClear (hpi ▸ F64.fin_mul_fin_signClear mp mf)
  have hdt : (F64.one.div (.fin false ms)).SignClear := F64.one_div_signClear (.inr ⟨ms, rfl⟩)
  obtain ⟨m, hm, hle⟩ := F64.div_le_one hdt (F64.add_signClear hrc hdt)
    (fun _ => F64.le_of_add_eq_fin hrc hdt (F64.div_ok ..)) hnum
  rw [alphaOf, hm]
  exact F64.fin_le_one hle

/-- Settles O36: by `alphaOf_inRange`. -/
theorem alphaLiesInTheUnitRange : Obligations.AlphaLiesInTheUnitRange :=
  fun _ _ => alphaOf_inRange

/-! ## The start of a call -/

theorem ofBits_zero_inUnit : (F64.ofBits 0#64).inUnit = true := by decide +kernel

theorem begun_alpha_inRange {s : State} {rate : Word} (hok : s.cfgOk (F64.ofBits rate) = true) (st f : Bool) :
    F64.zero.le (F64.ofBits (s.begun st f rate).alpha) = true ∧
      (F64.ofBits (s.begun st f rate).alpha).le F64.one = true := by
  obtain ⟨-, -, -, -, -, -, ⟨hfin, hpos⟩, hfilter, -⟩ := (cfgOk_iff_rule ..).mp hok
  rw [State.begun_alpha]
  split_ifs with hen
  · obtain hoff | ⟨hcut, hcut0, hnum⟩ := hfilter
    · rw [hen] at hoff
      cases hoff
    · rw [← alphaOf_eq_rule] at hnum
      rw [F64.ofBits_toBits (alphaOf_ok ..) hnum]
      exact alphaOf_inRange hcut hcut0 hfin hpos hnum
  · decide +kernel

/-- Settles O46: the registers are zero, and the coefficient, a number by `CFG_OK`, lies in [0, 1]. -/
theorem beginPutsTheCallInRange : Obligations.BeginPutsTheCallInRange := by
  intro s st f rate hm hok
  obtain ⟨hlow, hhigh⟩ := begun_alpha_inRange hok st f
  have hactive : (s.begun st f rate).active := by cases st <;> simp [State.active]
  exact ⟨s.begun st f rate, exec_beginCall_of_cfgOk st f rate hm hok, hactive,
    ⟨ofBits_zero_inUnit, ofBits_zero_inUnit, ofBits_zero_inUnit, ofBits_zero_inUnit, hlow, hhigh⟩⟩

/-! ## The samples of a call -/

theorem inSample_of_inRange {fmt : SampleFormat} {w : Word} (h : sampleInRange fmt w = true) :
    ∃ d, inSample fmt w = .ok d ∧ d.inUnit = true ∧ d.ok = true := by
  unfold sampleInRange at h
  split at h
  next d hd => exact ⟨d, hd, h, (inSample_finite hd).2⟩
  next => cases h

/-- Settles O47: the mixed value of values in range is a number, and each register takes a value in range. -/
theorem samplesInRangeNeverFault : Obligations.SamplesInRangeNeverFault := by
  intro s hI hr
  refine ⟨fun op hm hop => ?_, fun op0 op1 hm hop0 hop1 => ?_⟩
  · have hb := hI.bounds (.inl hm)
    obtain ⟨d, hd, hu, hok⟩ := inSample_of_inRange hop
    have hh := holdUpdate_inUnit (p := s.phase) hu hr.holdL
    exact ⟨_, exec_push_of_number hm hd (mixed_not_nan hb hr hh hu hr.filtL (F64.ofBits_ok _)), hm,
      { hr with filtL := filtNext_inUnit hb hr hh hr.filtL, holdL := holdNext_inUnit hu hok hr.holdL }⟩
  · have hb := hI.bounds (.inr hm)
    obtain ⟨dL, hdL, huL, hokL⟩ := inSample_of_inRange hop0
    obtain ⟨dR, hdR, huR, hokR⟩ := inSample_of_inRange hop1
    obtain ⟨hloadL, hloadokL⟩ := frameLoad_inUnit (s := s) huL huR huL hokL
    obtain ⟨hloadR, hloadokR⟩ := frameLoad_inUnit (s := s) huL huR huR hokR
    have hhL := holdUpdate_inUnit (p := s.phase) hloadL hr.holdL
    have hhR := holdUpdate_inUnit (p := s.phase) hloadR hr.holdR
    exact ⟨_, exec_push2_of_numbers hm hdL hdR (mixed_not_nan hb hr hhL huL hr.filtL (F64.ofBits_ok _))
        (mixed_not_nan hb hr hhR huR hr.filtR (F64.ofBits_ok _)), hm,
      { hr with
        filtL := filtNext_inUnit hb hr hhL hr.filtL
        filtR := filtNext_inUnit hb hr hhR hr.filtR
        holdL := holdNext_inUnit hloadL hloadokL hr.holdL
        holdR := holdNext_inUnit hloadR hloadokR hr.holdR }⟩

end Sys2Proof.Machine
end

section
/-! One step at the port (20_memory.md R61, R62, R69; 60_exceptions.md R205, R216; 70_reset_and_hazards.md R240). -/

namespace Sys2Proof.Machine

variable {s t : State} {i : Instr}

/-! ## The command at the port -/

theorem step_of_not_faulted (hm : s.mode ≠ .faulted) : step s = runNext s := if_neg hm

@[simp] theorem drop_encode (i : Instr) (es : List HostEvent) :
    ((encode i).map HostEvent.word ++ es).drop (1 + i.operands.length) = es := by
  rw [← encode_length, ← List.length_map (f := HostEvent.word), List.drop_left]

/-- Settles O7: the decoder reads the command back from its encoding. -/
theorem stepRunsTheDecodedCommand : Obligations.StepRunsTheDecodedCommand := by
  intro s i es hm hwf hport hroom
  have hdecode : decode (arrivedWords s.hostInput) = .command i (arrivedWords es) := by
    rw [hport, arrivedWords_append, decodeOfEncodeIsTheCommand i _ hwf]
  have hconsume : s.consume (1 + i.operands.length) = { s with hostInput := es } := by
    rw [State.consume, hport, drop_encode]
  rw [step_of_not_faulted hm, runNext, hdecode]
  simp only [State.hasRoom, hroom, decide_true, if_true, hconsume]

/-! ## An illegal word at the port -/

/-- An illegal word that has its operand words is consumed with them and raises its fault. -/
theorem step_illegal (hm : s.mode ≠ .faulted) {c : FaultCode} {w : Word}
    (hd : decode (arrivedWords s.hostInput) = .illegal c w) :
    step s = .next (Rule.faulted (s.consume (1 + nops (opcOf w))) c (opcOf w) (argOf w)) := by
  rw [step_of_not_faulted hm, runNext, hd]
  exact congrArg Host.Outcome.next (State.takeFault_of_not_faulted (s := s.consume _) hm ..)

/-! ## Waiting -/

/-- No command can run: its words have not all arrived, or there is no room for its results. -/
def Blocked (s : State) (ws : List Word) : Prop :=
  decode ws = .incomplete ∨ ∃ i rest, decode ws = .command i rest ∧ Config.resDepth < s.results.length + i.nres

theorem step_of_blocked (hm : s.mode ≠ .faulted) (hb : Blocked s (arrivedWords s.hostInput)) :
    step s = .next s.waitForHost := by
  rw [step_of_not_faulted hm, runNext]
  obtain hd | ⟨i, rest, hd, hfull⟩ := hb
  · rw [hd]
  · have hroom : s.hasRoom i.nres = false := decide_eq_false (by omega)
    simp [hd, hroom]

/-- Without a word ahead of the host's signal there is nothing to run or to discard. -/
theorem step_of_no_word (h : arrivedWords s.hostInput = []) : step s = .next s.waitForHost := by
  by_cases hm : s.mode = .faulted
  · rw [step_of_faulted hm, discardNext]
    split
    next w es hes => simp [hes] at h
    next => rfl
  · exact step_of_blocked hm (.inl (by rw [h]; rfl))

variable {ws : List Word} {es : List HostEvent}

theorem waitForHost_of_words (h : s.hostInput = ws.map .word) : s.waitForHost = s := by
  simp [State.waitForHost, h]

/-- A take moves the oldest result word, if there is one, to the host. -/
theorem takeResult_eq (s : State) :
    s.takeResult = { s with results := s.results.tail, taken := s.taken ++ s.results.take 1 } := by
  obtain h | ⟨w, rs, h⟩ : s.results = [] ∨ ∃ w rs, s.results = w :: rs := by cases s.results <;> simp
  · simp only [State.takeResult, h, List.tail_nil, List.take_nil, List.append_nil]
    rw [← h]
  · simp [State.takeResult, h]

theorem waitForHost_of_take (h : s.hostInput = ws.map .word ++ .take :: es) :
    s.waitForHost =
      { s with
        hostInput := ws.map .word ++ es
        results := s.results.tail
        taken := s.taken ++ s.results.take 1 } := by
  simp [State.waitForHost, h, nextSignal, withoutSignal, takeResult_eq]

theorem waitForHost_of_reset (h : s.hostInput = ws.map .word ++ .reset :: es) :
    s.waitForHost = Rule.afterReset es s.taken := by
  simp [State.waitForHost, h, nextSignal, afterSignal, resetBlock_eq_afterReset]

/-- Settles O8: with its operand words the illegal word is decoded as one, without them the block waits. -/
theorem illegalWordRaisesItsFault : Obligations.IllegalWordRaisesItsFault := by
  intro s w ops es c hm hill
  rw [← opcOf_toNat, ← nops_eq_operandCount]
  refine ⟨fun hlen hport => ?_, fun hlen hport => ?_⟩
  · have hd : decode (arrivedWords s.hostInput) = .illegal c w := by
      rw [hport, arrivedWords_append]
      exact decode_of_illegal hill (by simp [hlen])
    have hconsume : s.consume (1 + nops (opcOf w)) = { s with hostInput := es } := by
      simp [State.consume, hport, ← hlen, Nat.add_comm 1]
    rw [step_illegal hm hd, hconsume]
    rfl
  · have hb : Blocked s (arrivedWords s.hostInput) := .inl (by rw [hport, arrivedWords_words, decode_short hlen])
    rw [step_of_blocked hm hb, waitForHost_of_words hport]

/-- Settles O11: the block waits, and the host has sent no signal. -/
theorem waitingKeepsAllState : Obligations.WaitingKeepsAllState := by
  intro s ws hm hport hb
  rw [step_of_blocked hm (by rwa [hport, arrivedWords_words]), waitForHost_of_words hport]

/-- Settles O12: the block waits, and the host's signal is a take. -/
theorem takeMakesRoomForTheWaitingCommand : Obligations.TakeMakesRoomForTheWaitingCommand := by
  intro s ws es i rest w rs hm hport hd hfull hres
  have hb : Blocked s (arrivedWords s.hostInput) := .inr ⟨i, rest, by simpa [hport] using hd, hfull⟩
  rw [step_of_blocked hm hb, waitForHost_of_take hport, hres]
  rfl

/-- Settles O13: the block waits, or has no word to discard, and the host's signal is a RESET. -/
theorem resetRestoresEveryPieceOfState : Obligations.ResetRestoresEveryPieceOfState := by
  intro s ws es hport hwait
  have harrived : arrivedWords s.hostInput = ws := by simp [hport]
  rw [← waitForHost_of_reset hport]
  obtain rfl | ⟨hm, hb⟩ := hwait
  · exact step_of_no_word harrived
  · exact step_of_blocked hm (harrived.symm ▸ hb)

end Sys2Proof.Machine
end

section
/-! What a command does, and what it leaves alone (10_state.md sections 1 to 6, 60_exceptions.md R202). -/

namespace Sys2Proof.Machine

/-! ## In `FAULTED` -/

/-- Settles O10: in `FAULTED` a second fault is not recorded, and every other effect needs another mode. -/
theorem noCommandHasAnEffectInFaulted : Obligations.NoCommandHasAnEffectInFaulted := by
  intro i s hm
  obtain ⟨t, h⟩ := exec_answers i s
  obtain ⟨c, rfl⟩ | ⟨-, rfl⟩ | ⟨hne, -⟩ := exec_next_cases h
  · rw [h, State.takeFault_of_faulted hm]
  · exact h
  · exact absurd hm hne

/-! ## The frame of a command -/

/-- A configuration write leaves what every other selector reads. -/
theorem setCfg_read_of_ne {s : State} {sel sel' : Byte} {r : CfgReg} (hr : cfgRegOf sel = some r) (hne : sel' ≠ sel)
    (v : Word) : (s.setCfg r v).read sel' = s.read sel' := by
  unfold State.read
  cases hr' : cfgRegOf sel' with
  | none => simp
  | some r' =>
    have hrr : r' ≠ r := fun he => hne (cfgRegOf_inj (he ▸ hr') hr)
    simp [hrr]

/-! A time step writes the hold and filter registers of its lanes and `PHASE`, and emits. -/

section Pushed
variable (s : State) (tie : RoundTie) (d dL dR : F64)

@[simp] theorem pushed_sr : (s.pushed tie d).sr = s.sr := rfl
@[simp] theorem pushed_steps : (s.pushed tie d).steps = s.steps := rfl
@[simp] theorem pushed_alpha : (s.pushed tie d).alpha = s.alpha := rfl
@[simp] theorem pushed_fmt : (s.pushed tie d).fmt = s.fmt := rfl
@[simp] theorem pushed_mode : (s.pushed tie d).mode = s.mode := rfl
@[simp] theorem pushed_faultCode : (s.pushed tie d).faultCode = s.faultCode := rfl
@[simp] theorem pushed_faultOpc : (s.pushed tie d).faultOpc = s.faultOpc := rfl
@[simp] theorem pushed_faultArg : (s.pushed tie d).faultArg = s.faultArg := rfl
@[simp] theorem pushed_taken : (s.pushed tie d).taken = s.taken := rfl
@[simp] theorem pushed_filtR : (s.pushed tie d).filtR = s.filtR := rfl
@[simp] theorem pushed_holdR : (s.pushed tie d).holdR = s.holdR := rfl
@[simp] theorem pushed2_sr : (s.pushed2 tie dL dR).sr = s.sr := rfl
@[simp] theorem pushed2_steps : (s.pushed2 tie dL dR).steps = s.steps := rfl
@[simp] theorem pushed2_alpha : (s.pushed2 tie dL dR).alpha = s.alpha := rfl
@[simp] theorem pushed2_fmt : (s.pushed2 tie dL dR).fmt = s.fmt := rfl
@[simp] theorem pushed2_mode : (s.pushed2 tie dL dR).mode = s.mode := rfl
@[simp] theorem pushed2_faultCode : (s.pushed2 tie dL dR).faultCode = s.faultCode := rfl
@[simp] theorem pushed2_faultOpc : (s.pushed2 tie dL dR).faultOpc = s.faultOpc := rfl
@[simp] theorem pushed2_faultArg : (s.pushed2 tie dL dR).faultArg = s.faultArg := rfl
@[simp] theorem pushed2_taken : (s.pushed2 tie dL dR).taken = s.taken := rfl

theorem pushed_filtL_of_off (h : s.lpfEn ≠ 1) : (s.pushed tie d).filtL = s.filtL := if_neg h

theorem pushed2_filtL_of_off (h : s.lpfEn ≠ 1) : (s.pushed2 tie dL dR).filtL = s.filtL := if_neg h

theorem pushed2_filtR_of_off (h : s.lpfEn ≠ 1) : (s.pushed2 tie dL dR).filtR = s.filtR := if_neg h

end Pushed

/-- Settles O21: by the effects a command can have, each an update of the registers it writes. -/
theorem commandsLeaveTheRestUnchanged : Obligations.CommandsLeaveTheRestUnchanged := by
  intro i s t h
  refine ⟨exec_hostInput h, ?_⟩
  obtain ⟨c, rfl⟩ | ⟨-, rfl⟩ | ⟨-, -, -, -, -, heffect⟩ := exec_next_cases h
  · simp
  · simp
  · cases i with
    | cfgWr sel v =>
      obtain ⟨-, r, hr, rfl⟩ := heffect
      simpa using fun sel' hne => setCfg_read_of_ne (s := s) hr hne v
    | cfgRd sel =>
      obtain ⟨w, -, rfl⟩ := heffect
      simp
    | beginCall st f rate =>
      obtain ⟨-, -, rfl⟩ := heffect
      simp
    | push o =>
      obtain ⟨-, d, -, -, rfl⟩ := heffect
      simpa using pushed_filtL_of_off s _ d
    | push2 o o' =>
      obtain ⟨-, dL, dR, -, -, -, -, rfl⟩ := heffect
      simpa using fun hoff => ⟨pushed2_filtL_of_off s _ dL dR hoff, pushed2_filtR_of_off s _ dL dR hoff⟩
    | endCall =>
      obtain ⟨-, rfl⟩ := heffect
      simp [mode_update_cfg]

/-! ## Sample commands -/

/-- Settles O41: a completed `PUSH` loads its sample at phase 0, and a binary64 sample's word comes back from it. -/
theorem holdTakesTheInputWordAtUpdates : Obligations.HoldTakesTheInputWordAtUpdates := by
  intro s t op h hm
  obtain ⟨c, rfl, -⟩ | ⟨-, d, hd, -, rfl⟩ := pushUnder_cases h
  · rw [takeFault_mode] at hm
    cases hm
  · refine ⟨fun hphase hfmt => ?_, fun hphase => if_neg hphase⟩
    rw [hfmt, inSample] at hd
    split_ifs at hd with hfin
    cases hd
    exact (if_pos hphase).trans (F64.toBits_ofBits (F64.isNaN_of_isFinite hfin))

/-- Settles O42: with fold-down off a lane loads its own sample, and the rest of the step is the mono one. -/
theorem lanesAreTheMonoComputation : Obligations.LanesAreTheMonoComputation := by
  intro s t op0 op1 hm hfold h hmode
  obtain ⟨c, rfl, -⟩ | ⟨-, dL, dR, hdL, hdR, hnL, hnR, rfl⟩ := push2Under_cases h
  · rw [takeFault_mode] at hmode
    cases hmode
  · have hload (own : F64) : s.frameLoad dL dR own = own := if_neg hfold
    rw [State.push2Mixed, hload, hload] at hnL hnR
    refine ⟨_, _, _, _, exec_push_of_number rfl hdL hnL, rfl, rfl, exec_push_of_number rfl hdR hnR, rfl, rfl, ?_⟩
    simp only [State.pushed2, State.pushed, hload, State.emit_holdL, State.emit_holdR, State.emit_filtL,
      State.emit_filtR, State.emit_phase, State.emit_results]
    exact ⟨rfl, rfl, rfl, rfl, trivial, List.append_assoc ..⟩

end Sys2Proof.Machine
end

section
/-! What a step does to the result words, to `MODE` and to the fault record (20_memory.md R62, 10_state.md R40,
60_exceptions.md R201 to R206). -/

namespace Sys2Proof.Machine

variable {s t : State} {i : Instr}

/-! ## Result words -/

theorem nres_le_two (i : Instr) : i.nres ≤ 2 := by cases i <;> simp [Instr.nres, nres, Instr.opc]

/-- A command takes no result word and appends those of its opcode, or fewer where it faults (30_encoding.md R86). -/
theorem exec_delivers (h : exec i s = .next t) :
    t.taken = s.taken ∧ ∃ ws : List Word, t.results = s.results ++ ws ∧ ws.length ≤ i.nres ∧
      (t.mode ≠ .faulted → ws.length = i.nres) := by
  obtain ⟨-, htaken, -, -, -, -, -, -, -, hresults, -⟩ := commandsLeaveTheRestUnchanged i s t h
  refine ⟨htaken, ?_⟩
  obtain ⟨c, rfl⟩ | ⟨hf, rfl⟩ | ⟨-, -, -, -, -, heffect⟩ := exec_next_cases h
  · exact ⟨[], by simp, Nat.zero_le _, fun hm => absurd (takeFault_mode ..) hm⟩
  · exact ⟨[], by simp, Nat.zero_le _, fun hm => absurd hf hm⟩
  · cases i with
    | cfgRd sel =>
      obtain ⟨w, -, rfl⟩ := heffect
      exact ⟨[w], rfl, le_rfl, fun _ => rfl⟩
    | push o =>
      obtain ⟨-, d, -, -, rfl⟩ := heffect
      exact ⟨_, pushed_results .., le_rfl, fun _ => rfl⟩
    | push2 o o' =>
      obtain ⟨-, dL, dR, -, -, -, -, rfl⟩ := heffect
      exact ⟨_, pushed2_results .., le_rfl, fun _ => rfl⟩
    | _ => exact ⟨[], by simpa using hresults, le_rfl, fun _ => rfl⟩

/-- Settles O14: a take moves a word from one list to the other, and a command appends. -/
theorem resultWordsKeepTheirOrder : Obligations.ResultWordsKeepTheirOrder := by
  intro s t h
  have hkept (u : State) (hu : u.taken ++ u.results = s.taken ++ s.results) :
      ∃ ws : List Word, ws.length ≤ 2 ∧ u.taken ++ u.results = s.taken ++ s.results ++ ws :=
    ⟨[], by simp, by simpa using hu⟩
  obtain rfl | ⟨-, -, rfl⟩ | ⟨-, c, w, -, rfl⟩ | ⟨-, i, rest, -, -, hexec⟩ := step_cases h
  · obtain hkeep | ⟨-, htake⟩ | ⟨hsignal, hreset⟩ := s.waitForHost_cases
    · exact .inl (hkept _ (by rw [hkeep]))
    · exact .inl (hkept _ (by rw [htake]; exact s.takeResult_delivered))
    · exact .inr ⟨hsignal, by rw [hreset]; rfl, by rw [hreset]; rfl⟩
  · exact .inl (hkept _ rfl)
  · exact .inl (hkept _ (by simp))
  · obtain ⟨htaken, ws, hresults, hlen, -⟩ := exec_delivers hexec
    exact .inl ⟨ws, hlen.trans (nres_le_two i), by rw [htaken, hresults, ← List.append_assoc]; rfl⟩

/-! ## Into `FAULTED` -/

/-- A command that ends in `FAULTED` has done nothing but fault entry. -/
theorem exec_to_faulted (h : exec i s = .next t) (hm : s.mode ≠ .faulted) (ht : t.mode = .faulted) :
    ∃ c, t = Rule.faulted s c i.opc i.arg := by
  obtain ⟨c, rfl⟩ | ⟨hf, -⟩ | ⟨-, hne, -⟩ := exec_next_cases h
  · exact ⟨c, State.takeFault_of_not_faulted hm ..⟩
  · exact absurd hf hm
  · exact absurd ht hne

/-- The command word of a decoded command shows its opcode and its argument. -/
theorem decode_command_word {ws rest : List Word} (h : decode ws = .command i rest) :
    ∃ w ops, ws = w :: ops ∧ i.opc = opcOf w ∧ i.arg = argOf w ∧ i.operands.length = nops (opcOf w) ∧
      nops (opcOf w) ≤ ops.length := by
  have hlen := decode_command_length h
  obtain ⟨-, rfl⟩ := decodedWordsAreTheEncoding _ _ _ h
  refine ⟨cmdWord i.opc i.arg, i.operands ++ rest, rfl, by simp, by simp, by simp, by simp⟩

/-- Settles O22: the block enters `FAULTED` on an illegal word or by a command, and either way by fault entry with the
fields of the command word. -/
theorem faultsArePrecise : Obligations.FaultsArePrecise := by
  intro s t h hm ht
  simp only [← opcOf_toNat, ← nops_eq_operandCount]
  obtain rfl | ⟨hf, -⟩ | ⟨-, c, w, hd, rfl⟩ | ⟨-, i, rest, hd, -, hexec⟩ := step_cases h
  · exact absurd (State.waitForHost_faulted ht) hm
  · exact absurd hf hm
  · obtain ⟨ops, harrived, -, hlen⟩ := decode_illegal hd
    exact ⟨w, ops, _, c, harrived, rfl, hlen, State.takeFault_of_not_faulted (s := s.consume _) hm ..⟩
  · obtain ⟨c, rfl⟩ := exec_to_faulted hexec hm ht
    obtain ⟨w, ops, harrived, hopc, harg, hlen, hle⟩ := decode_command_word hd
    exact ⟨w, ops, _, c, harrived, rfl, hle, by rw [hopc, harg, hlen]; rfl⟩

/-! ## Which fault -/

/-- The faults of the decoder (60_exceptions.md R202). -/
theorem illegal_code {w : Word} {c : FaultCode} (h : illegal w = some c) :
    (c = .illegalOpcode ∧ ¬ (1 ≤ (opcOf w).toNat ∧ (opcOf w).toNat ≤ 6)) ∨
    (c = .reservedBits ∧ 1 ≤ (opcOf w).toNat ∧ (opcOf w).toNat ≤ 6) ∨
    (c = .illegalSelector ∧ ((opcOf w).toNat = 1 ∨ (opcOf w).toNat = 2)) := by
  by_cases ho : 1 ≤ (opcOf w).toNat ∧ (opcOf w).toNat ≤ 6
  · obtain ⟨hlow, hhigh⟩ := ho
    by_cases hr : rsvOf w = 0
    · obtain h1 | h2 | h3 | h4 :
          (opcOf w).toNat = 1 ∨ (opcOf w).toNat = 2 ∨ (opcOf w).toNat = 3 ∨ 4 ≤ (opcOf w).toNat := by omega
      · rw [illegal_cfgWr h1 hr] at h
        split at h <;> cases h
        exact .inr (.inr ⟨rfl, .inl h1⟩)
      · rw [illegal_cfgRd h2 hr] at h
        split at h <;> cases h
        exact .inr (.inr ⟨rfl, .inr h2⟩)
      · rw [illegal_beginCall h3 hr] at h
        split at h <;> cases h
        exact .inr (.inl ⟨rfl, hlow, hhigh⟩)
      · rw [illegal_noArg h4 hhigh hr] at h
        split at h <;> cases h
        exact .inr (.inl ⟨rfl, hlow, hhigh⟩)
    · rw [illegal_reserved hlow hhigh hr] at h
      cases h
      exact .inr (.inl ⟨rfl, hlow, hhigh⟩)
  · rw [illegal_opcode (by omega)] at h
    cases h
    exact .inl ⟨rfl, ho⟩

theorem inSample_error {fmt : SampleFormat} {w : Word} {c : FaultCode} (h : inSample fmt w = .error c) :
    c = .inputNonfinite ∨ c = .operandInvalid := by
  cases fmt with
  | binary64 =>
    rw [inSample] at h
    split at h <;> cases h
    exact .inl rfl
  | int16 =>
    rw [inSample] at h
    split at h <;> cases h
    exact .inr rfl

theorem takeFault_faultCode (hm : s.mode ≠ .faulted) (c : FaultCode) (o a : Byte) :
    (s.takeFault c o a).faultCode = some c := by
  rw [State.takeFault_of_not_faulted hm]

/-- The recorded code is that of the fault. -/
theorem takeFault_code_eq (hm : s.mode ≠ .faulted) {c c' : FaultCode} {o a : Byte}
    (h : (s.takeFault c o a).faultCode = some c') : c' = c := by
  rw [takeFault_faultCode hm] at h
  exact (Option.some.inj h).symm

/-- Settles O23: the decoder's faults by opcode, and those of each meaning by its own cases. -/
theorem eachCommandRaisesOnlyItsFaults : Obligations.EachCommandRaisesOnlyItsFaults := by
  refine ⟨fun w c => illegal_code, fun i s t c hwf hm h ht hc => ?_⟩
  cases i with
  | cfgWr sel v =>
    obtain ⟨c, rfl, ⟨hnone, -⟩ | ⟨-, -, rfl⟩⟩ | ⟨-, r, -, rfl⟩ := execCfgWr_cases h
    · have hsome : (cfgRegOf sel).isSome = true := (cfgRegOf_isSome sel).trans hwf
      simp [hnone] at hsome
    · exact takeFault_code_eq hm hc
    · exact absurd ((s.setCfg_mode r v).symm.trans ht) hm
  | cfgRd sel =>
    obtain ⟨hnone, -⟩ | ⟨hf, -⟩ | ⟨-, w, -, rfl⟩ := execCfgRd_cases h
    · have hsome : (s.read sel).isSome = true := (read_isSome s sel).trans hwf
      simp [hnone] at hsome
    · exact absurd hf hm
    · exact absurd ht hm
  | beginCall st f r =>
    obtain ⟨c, rfl, ⟨-, rfl⟩ | ⟨-, -, rfl⟩⟩ | ⟨-, -, rfl⟩ := execBegin_cases h
    · exact .inl (takeFault_code_eq hm hc)
    · exact .inr (takeFault_code_eq hm hc)
    · cases st <;> cases ht
  | push o =>
    obtain ⟨c, rfl, ⟨-, rfl⟩ | ⟨-, hin⟩ | ⟨-, rfl, -⟩⟩ | ⟨-, d, -, -, rfl⟩ := pushUnder_cases h
    · exact .inl (takeFault_code_eq hm hc)
    · exact takeFault_code_eq hm hc ▸ .inr ((inSample_error hin).imp_right .inl)
    · exact .inr (.inr (.inr (takeFault_code_eq hm hc)))
    · exact absurd ht hm
  | push2 o o' =>
    obtain ⟨c, rfl, ⟨-, rfl⟩ | ⟨-, hin⟩ | ⟨-, rfl, -⟩⟩ | ⟨-, dL, dR, -, -, -, -, rfl⟩ := push2Under_cases h
    · exact .inl (takeFault_code_eq hm hc)
    · exact takeFault_code_eq hm hc ▸ .inr ((hin.elim inSample_error inSample_error).imp_right .inl)
    · exact .inr (.inr (.inr (takeFault_code_eq hm hc)))
    · exact absurd ht hm
  | endCall =>
    obtain ⟨-, rfl⟩ | ⟨-, rfl⟩ := execEnd_cases h
    · exact takeFault_code_eq hm hc
    · cases ht

/-! ## `MODE` -/

/-- Settles O25: by the cases of a step; of the commands only `BEGIN` and `END` write `MODE`. -/
theorem modeChangesOnlyAsListed : Obligations.ModeChangesOnlyAsListed := by
  intro s t h hne
  obtain rfl | ⟨-, -, rfl⟩ | ⟨hm, c, w, -, rfl⟩ | ⟨hm, i, rest, hd, -, hexec⟩ := step_cases h
  · obtain hkeep | ⟨-, htake⟩ | ⟨hsignal, hreset⟩ := s.waitForHost_cases
    · exact absurd (congrArg State.mode hkeep) hne
    · exact absurd ((congrArg State.mode htake).trans s.takeResult_mode) hne
    · exact .inr (.inr (.inr ⟨congrArg State.mode hreset, hsignal⟩))
  · exact absurd rfl hne
  · exact .inr (.inr (.inl ⟨by simp, by simp [takeFault_faultCode (s := s.consume _) hm]⟩))
  · obtain ⟨c, rfl⟩ | ⟨hf, -⟩ | ⟨-, -, -, -, -, heffect⟩ := exec_next_cases hexec
    · exact .inr (.inr (.inl ⟨by simp, by simp [takeFault_faultCode (s := s.consume _) hm]⟩))
    · exact absurd hf hm
    · cases i with
      | cfgWr sel v =>
        obtain ⟨-, r, -, rfl⟩ := heffect
        simp at hne
      | cfgRd sel =>
        obtain ⟨w, -, rfl⟩ := heffect
        exact absurd rfl hne
      | beginCall st f rate =>
        obtain ⟨hidle, -, rfl⟩ := heffect
        exact .inl ⟨hidle, st, f, rate, rest, hd, rfl⟩
      | push o =>
        obtain ⟨-, d, -, -, rfl⟩ := heffect
        exact absurd rfl hne
      | push2 o o' =>
        obtain ⟨-, dL, dR, -, -, -, -, rfl⟩ := heffect
        exact absurd rfl hne
      | endCall =>
        obtain ⟨ha, rfl⟩ := heffect
        exact .inr (.inl ⟨ha, rfl, rest, hd⟩)

/-! ## The status word -/

/-- A field of a concatenation that lies in its low part. -/
theorem extract_low {m n : Nat} (x : BitVec m) (y : BitVec n) : (x ++ y).extractLsb' 0 n = y :=
  (BitVec.extractLsb'_append_eq_of_add_le (by omega)).trans BitVec.extractLsb'_eq_self

/-- A field of a concatenation that lies in its high part. -/
theorem extract_high {m n lo k : Nat} (x : BitVec m) (y : BitVec n) (h : n ≤ lo) :
    (x ++ y).extractLsb' lo k = x.extractLsb' (lo - n) k :=
  BitVec.extractLsb'_append_eq_of_le h

section StatusWord
variable (s : State)

theorem statusWord_mode : s.statusWord.field 0 2 = s.mode.bits := by
  unfold State.statusWord Word.field
  exact extract_low ..

theorem statusWord_fmt : s.statusWord.field 2 1 = s.fmt.bit := by
  unfold State.statusWord Word.field
  iterate 1 rw [extract_high _ _ (by decide)]
  exact extract_low ..

theorem statusWord_reserved : s.statusWord.field 3 5 = 0#5 := by
  unfold State.statusWord Word.field
  iterate 2 rw [extract_high _ _ (by decide)]
  exact extract_low ..

theorem statusWord_faultCode : s.statusWord.field 8 8 = faultCodeBits s.faultCode := by
  unfold State.statusWord Word.field
  iterate 3 rw [extract_high _ _ (by decide)]
  exact extract_low ..

theorem statusWord_faultOpc : s.statusWord.field 16 8 = s.faultOpc := by
  unfold State.statusWord Word.field
  iterate 4 rw [extract_high _ _ (by decide)]
  exact extract_low ..

theorem statusWord_faultArg : s.statusWord.field 24 8 = s.faultArg := by
  unfold State.statusWord Word.field
  iterate 5 rw [extract_high _ _ (by decide)]
  exact extract_low ..

theorem statusWord_high : s.statusWord.field 32 32 = 0#32 := by
  unfold State.statusWord Word.field
  iterate 6 rw [extract_high _ _ (by decide)]
  exact BitVec.extractLsb'_eq_self

end StatusWord

/-- Settles O27: each field stands at its place in the concatenation. -/
theorem statusWordShowsTheFields : Obligations.StatusWordShowsTheFields := by
  intro s
  refine ⟨(statusWord_mode s).trans ?_, (statusWord_fmt s).trans ?_, statusWord_reserved s,
    (statusWord_faultCode s).trans ?_, statusWord_faultOpc s, statusWord_faultArg s, statusWord_high s,
    by simp [State.err]⟩
  · cases s.mode <;> rfl
  · cases s.fmt <;> rfl
  · rcases s.faultCode with _ | c
    · rfl
    · cases c <;> rfl

/-! ## Instances -/

theorem platformStep_of_present {p : List State} {k : Nat} (hk : p[k]? = some s) (h : step s = .next t) :
    platformStep p k = p.set k t := by
  simp [platformStep, hk, h]

theorem platformStep_of_absent {p : List State} {k : Nat} (hk : p[k]? = none) : platformStep p k = p := by
  simp [platformStep, hk]

/-- Settles O29: a step of the platform sets one place of the list. -/
theorem instancesAreIndependent : Obligations.InstancesAreIndependent := by
  intro p k
  refine ⟨fun j hj => ?_, fun s hs => ?_, platformStep_of_absent⟩
  · cases hk : p[k]? with
    | none => rw [platformStep_of_absent hk]
    | some s =>
      obtain ⟨t, ht⟩ := step_answers s
      rw [platformStep_of_present hk ht, List.getElem?_set_ne hj.symm]
  · obtain ⟨t, ht⟩ := step_answers s
    obtain ⟨hlt, -⟩ := List.getElem?_eq_some_iff.mp hs
    exact ⟨t, ht, by rw [platformStep_of_present hs ht, List.getElem?_set_self hlt]⟩

/-! ## The phase -/

theorem phaseNext_toNat {factor phase : Word} (h : phase.toNat < factor.toNat) :
    (phaseNext factor phase).toNat = (phase.toNat + 1) % factor.toNat := by
  have hfactor := factor.isLt
  unfold phaseNext
  split_ifs with hlast
  · rw [hlast, Nat.mod_self]
    rfl
  · rw [BitVec.toNat_add_of_lt (by simp; omega), Nat.mod_eq_of_lt (a := phase.toNat + 1) (by omega)]
    rfl

/-- Settles O39: by induction on the number of steps. -/
theorem phaseIsTheStepIndexModTheFactor : Obligations.PhaseIsTheStepIndexModTheFactor := by
  intro factor n hfactor
  induction n with
  | zero => simp
  | succ n ih =>
    have hlt : (((phaseNext factor)^[n]) 0#64).toNat < factor.toNat := ih ▸ Nat.mod_lt _ hfactor
    rw [Function.iterate_succ_apply', phaseNext_toNat hlt, ih, Nat.mod_add_mod]

end Sys2Proof.Machine
end

section
/-! Each operation rounds once, to nearest (00_scope.md R6, R10). -/

namespace Sys2Proof.Machine

/-! ## The operations on finite values -/

section Finite
variable (n n' : Bool) (m m' : Nat)

theorem F64.div_fin (h : m' ≠ 0) : (F64.fin n m).div (.fin n' m') = F64.round (n ^^ n') (m * F64.unit) m' := if_neg h

theorem F64.add_fin {i : Int} (hi : i = signedMag n m + signedMag n' m') :
    (i ≠ 0 → (F64.fin n m).add (.fin n' m') = F64.round (decide (i < 0)) i.natAbs 1) ∧
      (i = 0 → (F64.fin n m).add (.fin n' m') = .fin (n && n') 0) := by
  subst hi
  exact ⟨fun h => if_neg h, fun h => if_pos h⟩

theorem F64.sub_fin {i : Int} (hi : i = signedMag n m - signedMag n' m') :
    (i ≠ 0 → (F64.fin n m).sub (.fin n' m') = F64.round (decide (i < 0)) i.natAbs 1) ∧
      (i = 0 → (F64.fin n m).sub (.fin n' m') = .fin (n && !n') 0) :=
  F64.add_fin n (!n') m m' (by rw [hi, signedMag_not, Int.sub_eq_add_neg])

end Finite

/-! ## The one rounding -/

theorem F64.round_eq_inf_iff (n : Bool) (num : Nat) {den : Nat} (hd : 0 < den) :
    F64.round n num den = .inf n ↔ (2 ^ 54 - 1) * 2 ^ (970 + F64.unitExp) * den ≤ num := by
  rw [← Nat.not_lt, ← F64.roundMag_lt_beyond hd, F64.round, F64.ofMag]
  split <;> simp [*]

theorem F64.round_eq_fin {n n' : Bool} {num den r : Nat} (h : F64.round n num den = .fin n' r) :
    n' = n ∧ r = F64.roundMag num den ∧ F64.roundMag num den < F64.beyond := by
  unfold F64.round F64.ofMag at h
  split at h <;> cases h
  exact ⟨rfl, rfl, ‹_›⟩

/-- Settles O30: the operations by their definitions, the rounding by its bounds on the result. -/
theorem everyOperationRoundsToNearestEven : Obligations.EveryOperationRoundsToNearestEven := by
  refine ⟨fun n n' m m' => ⟨rfl, F64.div_fin n n' m m', fun i => F64.add_fin n n' m m', fun i => F64.sub_fin n n' m m'⟩,
    fun n num den hd => ⟨F64.round_eq_inf_iff n num hd, fun n' r h => ?_⟩⟩
  obtain ⟨rfl, rfl, hlt⟩ := F64.round_eq_fin h
  exact ⟨rfl, F64.magOk_iff.mpr ⟨F64.roundMag_rep num hd, hlt⟩,
    fun x hx => F64.roundMag_nearest hd (F64.magOk_iff.mp hx).1⟩

end Sys2Proof.Machine
end

section
/-! The quantizer, the filter and the mixer where their results are exact (40_datapath_stages.md R116, R117, R122,
R124). -/

namespace Sys2Proof.Machine

/-! ## Values as numbers -/

theorem F64.numEq_of_key {a b : F64} {x : Int} (ha : a.key = some x) (hb : b.key = some x) : a.numEq b = true := by
  simp [F64.numEq, ha, hb]

theorem F64.key_of_numEq {a b : F64} {x : Int} (h : a.numEq b = true) (hb : b.key = some x) : a.key = some x := by
  unfold F64.numEq at h
  split at h
  next y z hy hz =>
    rw [hb] at hz
    rw [hy, of_decide_eq_true h, hz]
  next => cases h

theorem F64.eq_fin_of_isFinite {v : F64} (h : v.isFinite = true) : ∃ n m, v = .fin n m := by
  cases v with
  | fin n m => exact ⟨n, m, rfl⟩
  | _ => cases h

/-- A value that stands at a finite place in the order is finite. -/
theorem F64.eq_fin_of_key {v : F64} {x : Int} (h : v.key = some x) (hx : x.natAbs < F64.beyond) :
    ∃ n m, v = .fin n m ∧ signedMag n m = x := by
  cases v with
  | nan => cases h
  | inf n =>
    cases h
    rw [signedMag_natAbs] at hx
    exact absurd hx (lt_irrefl _)
  | fin n m => exact ⟨n, m, rfl, Option.some.inj h⟩

/-- A value that equals zero as a number is a zero. -/
theorem F64.eq_zero_of_key {v : F64} (h : v.key = some 0) : ∃ n, v = .fin n 0 := by
  obtain ⟨n, m, rfl, hm⟩ := F64.eq_fin_of_key h F64.beyond_pos
  refine ⟨n, ?_⟩
  rw [← signedMag_natAbs n m, hm]
  rfl

/-! ## Exact operations -/

theorem signedMag_decide_natAbs (i : Int) : signedMag (decide (i < 0)) i.natAbs = i := by
  simpa using signedMag_natAbs_mul i 1

/-- A sum that binary64 has is exact. -/
theorem F64.add_key {n n' : Bool} {m m' : Nat} {i : Int} (hi : i = signedMag n m + signedMag n' m')
    (hok : F64.magOk i.natAbs = true) : ((F64.fin n m).add (.fin n' m')).key = some i := by
  obtain ⟨hne, heq⟩ := F64.add_fin n n' m m' hi
  by_cases h0 : i = 0
  · rw [heq h0, h0]
    cases (n && n') <;> rfl
  · rw [hne h0, F64.round_eq_of_exact Nat.one_pos hok (Nat.mul_one _).symm]
    exact congrArg some (signedMag_decide_natAbs i)

theorem F64.mul_one {n : Bool} {m : Nat} (hok : F64.magOk m = true) : (F64.fin n m).mul F64.one = .fin n m := by
  calc (F64.fin n m).mul F64.one = F64.round (n ^^ false) (m * F64.unit) F64.unit := rfl
    _ = .fin n m := by rw [Bool.xor_false, F64.round_eq_of_exact F64.unit_pos hok rfl]

theorem F64.mul_zero (n n' : Bool) (m : Nat) : (F64.fin n m).mul (.fin n' 0) = .fin (n ^^ n') 0 :=
  F64.round_eq_of_exact F64.unit_pos (F64.zero_ok n) (by simp)

@[simp] theorem signedMag_zero (n : Bool) : signedMag n 0 = 0 := by cases n <;> rfl

/-- Adding a zero of either sign gives the number back. -/
theorem F64.add_zero_key (n z : Bool) {m : Nat} (hok : F64.magOk m = true) :
    ((F64.fin n m).add (.fin z 0)).key = some (signedMag n m) :=
  F64.add_key (by simp) (by rwa [signedMag_natAbs])

theorem F64.zero_add_key (n z : Bool) {m : Nat} (hok : F64.magOk m = true) :
    ((F64.fin z 0).add (.fin n m)).key = some (signedMag n m) :=
  F64.add_key (by simp) (by rwa [signedMag_natAbs])

/-! ## Filter -/

/-- Settles O37: the difference is a zero, its product with the coefficient is one, and the sum is exact. -/
theorem filterRestsAtItsInput : Obligations.FilterRestsAtItsInput := by
  intro a st x ha hst hx
  obtain ⟨na, ma, rfl⟩ := F64.eq_fin_of_isFinite ha
  have hok := F64.ofBits_ok st
  obtain ⟨n, m, hfin⟩ := F64.eq_fin_of_isFinite hst
  rw [hfin] at hok hx ⊢
  have hlt : (signedMag n m).natAbs < F64.beyond := (signedMag_natAbs n m).symm ▸ (F64.magOk_iff.mp hok).2
  obtain ⟨n', m', hxfin, hmag⟩ := F64.eq_fin_of_key (F64.key_of_numEq hx rfl) hlt
  have hdiff : (F64.fin n' m').sub (.fin n m) = .fin (n' && !n) 0 := (F64.sub_fin n' n m' m rfl).2 (by omega)
  rw [hxfin, lpf, hdiff, F64.mul_zero]
  exact F64.numEq_of_key (F64.add_zero_key n _ hok) rfl

/-! ## Mixer -/

theorem F64.one_sub_one : F64.one.sub F64.one = .fin false 0 :=
  (F64.sub_fin false false F64.unit F64.unit rfl).2 (by omega)

theorem F64.one_sub_zero (z : Bool) : F64.one.sub (.fin z 0) = F64.one := by
  have hunit : (F64.unit : Int) ≠ 0 := by exact_mod_cast F64.unit_pos.ne'
  have hpos : ¬ (F64.unit : Int) < 0 := by omega
  rw [F64.one, (F64.sub_fin false z F64.unit 0 (i := F64.unit) (by simp [signedMag])).1 hunit, decide_eq_false hpos]
  exact F64.round_eq_of_exact Nat.one_pos F64.unit_magOk (Nat.mul_one _).symm

/-- Settles O38: at either end one product is a zero and the other its input. -/
theorem mixEndpointsGiveOneInput : Obligations.MixEndpointsGiveOneInput := by
  intro p d hp hd
  have hpok := F64.ofBits_ok p
  have hdok := F64.ofBits_ok d
  obtain ⟨np, mp, hpfin⟩ := F64.eq_fin_of_isFinite hp
  obtain ⟨nd, md, hdfin⟩ := F64.eq_fin_of_isFinite hd
  rw [hpfin] at hpok ⊢
  rw [hdfin] at hdok ⊢
  refine ⟨?_, fun m hm => ?_⟩
  · rw [mixStage, F64.mul_one hpok, F64.one_sub_one, F64.mul_zero]
    exact F64.numEq_of_key (F64.add_zero_key np _ hpok) rfl
  · obtain ⟨z, rfl⟩ := F64.eq_zero_of_key (F64.key_of_numEq (b := F64.zero) hm rfl)
    rw [mixStage, F64.mul_zero, F64.one_sub_zero, F64.mul_one hdok]
    exact F64.numEq_of_key (F64.zero_add_key nd _ hdok) rfl

/-! ## Quantizer -/

theorem F64.roundInt_integer (tie : RoundTie) (n : Bool) (k : Nat) :
    (F64.fin n (k * F64.unit)).roundInt tie = .fin n (k * F64.unit) := by
  have hdown : roundsUp tie n k 0 = false := roundsUp_below_half tie n k (by simpa using F64.unit_pos)
  simp [F64.roundInt_fin_eq, roundedInt, hdown, F64.unit_pos]

theorem stepsOf_bounds {b : Word} (hlow : 1 ≤ b.toNat) (hhigh : b.toNat ≤ 16) :
    1 ≤ (stepsOf b).toNat ∧ (stepsOf b).toNat < 2 ^ 53 := by
  have hmin : 2 ^ 1 ≤ 2 ^ b.toNat := Nat.pow_le_pow_right (by omega) hlow
  have hmax : 2 ^ b.toNat ≤ 2 ^ 16 := Nat.pow_le_pow_right (by omega) hhigh
  rw [stepsOf_toNat hhigh]
  omega

theorem quant_full_scale (tie : RoundTie) {steps : Word} (h1 : 1 ≤ steps.toNat) (h2 : steps.toNat < 2 ^ 53) (n : Bool) :
    quant tie steps (.fin n F64.unit) = .fin n F64.unit := by
  have hpos : steps.toNat * F64.unit ≠ 0 := Nat.mul_ne_zero (by omega) F64.unit_pos.ne'
  have hmul : (F64.fin n F64.unit).mul (.fin false (steps.toNat * F64.unit)) = .fin n (steps.toNat * F64.unit) := by
    rw [F64.mul, Bool.xor_false]
    exact F64.round_eq_of_exact F64.unit_pos (F64.mul_unit_magOk h2) (Nat.mul_comm ..)
  have hdiv : (F64.fin n (steps.toNat * F64.unit)).div (.fin false (steps.toNat * F64.unit)) = .fin n F64.unit := by
    rw [F64.div_fin _ _ _ _ hpos, Bool.xor_false]
    exact F64.round_eq_of_exact (Nat.pos_of_ne_zero hpos) F64.unit_magOk (Nat.mul_comm ..)
  rw [quant, F64.ofNat_eq h2, hmul, F64.roundInt_integer, hdiv]

/-- Settles O34: at full scale every operation of the quantizer is exact. -/
theorem quantizerKeepsFullScale : Obligations.QuantizerKeepsFullScale := by
  intro tie b hlow hhigh
  obtain ⟨h1, h2⟩ := stepsOf_bounds hlow hhigh
  exact ⟨quant_full_scale tie h1 h2 false, quant_full_scale tie h1 h2 true⟩

theorem F64.round_key_zero (n : Bool) {den : Nat} (hd : 0 < den) : (F64.round n 0 den).key = some 0 := by
  rw [F64.round_eq_of_exact hd (F64.zero_ok n) (Nat.zero_mul _).symm]
  cases n <;> rfl

/-- A level of either sign is the rounded quotient of its number by `STEPS`; at zero the two may differ in sign. -/
theorem round_numEq_level (n : Bool) (k : Nat) {steps : Nat} (hpos : steps * F64.unit ≠ 0) (hk : k < 2 ^ 53)
    (hs : steps < 2 ^ 53) :
    (F64.round n (k * F64.unit * F64.unit) (steps * F64.unit)).numEq
      ((F64.ofInt (signedMag n k)).div (F64.ofInt steps)) = true := by
  have hint : F64.ofInt (signedMag n k) = .fin (decide (signedMag n k < 0)) (k * F64.unit) := by
    rw [F64.ofInt_eq (by rwa [signedMag_natAbs]), signedMag_natAbs]
  rw [hint, ← F64.ofNat, F64.ofNat_eq hs, F64.div_fin _ _ _ _ hpos, Bool.xor_false]
  rcases Nat.eq_zero_or_pos k with rfl | hkpos
  · simp only [Nat.zero_mul]
    exact F64.numEq_of_key (F64.round_key_zero _ (Nat.pos_of_ne_zero hpos)) (F64.round_key_zero _ (Nat.pos_of_ne_zero hpos))
  · have hsign : decide (signedMag n k < 0) = n := by cases n <;> simp [signedMag, hkpos]
    rw [hsign]
    obtain ⟨x, hx⟩ := F64.key_of_not_isNaN (F64.round_isNaN n (k * F64.unit * F64.unit) (steps * F64.unit))
    exact F64.numEq_of_key hx hx

/-- Settles O33: the level the quantizer picks, with the sign of the value. -/
theorem quantizerYieldsALevel : Obligations.QuantizerYieldsALevel := by
  intro tie b h hlow hhigh hu
  obtain ⟨h1, h2⟩ := stepsOf_bounds hlow hhigh
  have hsteps : ((stepsOf b).toNat : Int) = 2 ^ b.toNat - 1 := by
    rw [stepsOf_toNat hhigh, Nat.cast_sub Nat.one_le_two_pow]
    simp
  obtain ⟨n, m, hfin, hm⟩ := F64.inUnit_iff.mp hu
  obtain ⟨k, hk, hquant⟩ := quant_level tie h1 h2 (n := n) hm
  have habs := signedMag_natAbs n k
  rw [← hsteps, hfin, hquant]
  exact ⟨signedMag n k, by omega, by omega,
    round_numEq_level n k (Nat.mul_ne_zero (by omega) F64.unit_pos.ne') (by omega) h2⟩

end Sys2Proof.Machine
end

section
/-! Coming to rest, and a RESET behind an operation (43_host_operations.md R190, R191, R194, R195;
70_reset_and_hazards.md R241). -/

namespace Sys2Proof.Machine

variable {s t : State}

/-! ## Buffers -/

theorem all_isInt16_iff (buf : List Sample) : buf.all Sample.isInt16 = true ↔ ¬ ∃ w, Sample.binary64 w ∈ buf := by
  rw [List.all_eq_true]
  refine ⟨fun h ⟨w, hw⟩ => absurd (h _ hw) (by simp [Sample.isInt16]), fun h x hx => ?_⟩
  cases x with
  | binary64 w => exact absurd ⟨w, hx⟩ h
  | int16 v => rfl

theorem all_not_isInt16_iff (buf : List Sample) :
    buf.all (fun x => !x.isInt16) = true ↔ ¬ ∃ v, Sample.int16 v ∈ buf := by
  rw [List.all_eq_true]
  refine ⟨fun h ⟨v, hv⟩ => absurd (h _ hv) (by simp [Sample.isInt16]), fun h x hx => ?_⟩
  cases x with
  | binary64 w => rfl
  | int16 v => exact absurd ⟨v, hx⟩ h

/-- The flag is missing exactly for a buffer with samples of both formats. -/
theorem i16Flag_eq_none_iff (buf : List Sample) :
    i16Flag buf = none ↔ (∃ w, Sample.binary64 w ∈ buf) ∧ ∃ v, Sample.int16 v ∈ buf := by
  rw [i16Flag, ite_eq_iff, ite_eq_iff, all_isInt16_iff, all_not_isInt16_iff]
  simp [and_comm]

theorem frames_eq_none_iff (buf : List Sample) : frames buf = none ↔ buf.length % 2 = 1 := by
  induction buf using frames.induct with
  | case1 => simp [frames]
  | case2 => simp [frames]
  | case3 l r rest ih =>
    rw [frames, Option.map_eq_none_iff, ih, List.length_cons, List.length_cons]
    omega

/-- Settles O51: by the two ways an expansion can be missing. -/
theorem operationsRefuseOddAndMixedBuffers : Obligations.OperationsRefuseOddAndMixedBuffers := by
  intro buf sr
  rw [← i16Flag_eq_none_iff, ← frames_eq_none_iff]
  refine ⟨Option.map_eq_none_iff, ?_⟩
  unfold processStereo
  cases i16Flag buf <;> cases frames buf <;> simp

/-! ## Coming to rest -/

/-- After as many steps as there are events, or more, the block is where it comes to rest. -/
theorem runSteps_eq_settled {n : Nat} (h : s.hostInput.length ≤ n) : runSteps n s = s.settled := by
  obtain ⟨k, rfl⟩ := Nat.exists_eq_add_of_le h
  rw [runSteps_add, ← State.settled, runSteps_still (step_settled s)]

/-- A step does not change where the block comes to rest. -/
theorem settled_step (h : step s = .next t) : s.settled = t.settled := by
  have hrun (n : Nat) : runSteps (n + 1) s = runSteps n t := by simp only [runSteps, h]
  obtain hstill | ⟨u, hu, hlt⟩ := step_progress s
  · rw [h] at hstill
    rw [Host.Outcome.next.inj hstill]
  · rw [h] at hu
    cases hu
    calc s.settled = runSteps (s.hostInput.length + 1) s := (runSteps_eq_settled (Nat.le_succ _)).symm
      _ = runSteps s.hostInput.length t := hrun _
      _ = t.settled := runSteps_eq_settled hlt.le

/-- Settles O54: by `runSteps_eq_settled`. -/
theorem operationsBeginWhereTheBlockRests : Obligations.OperationsBeginWhereTheBlockRests :=
  fun s cmds => ⟨step_settled s, fun _ => runSteps_eq_settled, (returned_settled cmds s).symm⟩

/-! ## Whether a step runs something or waits -/

/-- The block can run and discard nothing: no word has arrived, or what has arrived is blocked. -/
def State.Waits (s : State) : Prop :=
  arrivedWords s.hostInput = [] ∨ s.mode ≠ .faulted ∧ Blocked s (arrivedWords s.hostInput)

theorem step_of_waits (h : s.Waits) : step s = .next s.waitForHost :=
  h.elim step_of_no_word fun ⟨hm, hb⟩ => step_of_blocked hm hb

theorem step_command (hm : s.mode ≠ .faulted) {i : Instr} {rest : List Word}
    (hd : decode (arrivedWords s.hostInput) = .command i rest) (hroom : s.hasRoom i.nres = true) :
    step s = exec i (s.consume (1 + i.operands.length)) := by
  rw [step_of_not_faulted hm, runNext, hd]
  exact if_pos hroom

/-- A block that does not wait discards a word, faults on an illegal word or runs a command. -/
theorem waits_or_acts (s : State) :
    s.Waits ∨ (s.mode = .faulted ∧ ∃ w es, s.hostInput = .word w :: es) ∨
      (s.mode ≠ .faulted ∧ ∃ c w, decode (arrivedWords s.hostInput) = .illegal c w) ∨
      (s.mode ≠ .faulted ∧ ∃ i rest, decode (arrivedWords s.hostInput) = .command i rest ∧ s.hasRoom i.nres = true) := by
  by_cases hm : s.mode = .faulted
  · rcases hport : s.hostInput with _ | ⟨e, es⟩
    · exact .inl (.inl (by rw [hport]; rfl))
    · cases e with
      | word w => exact .inr (.inl ⟨hm, w, es, rfl⟩)
      | take => exact .inl (.inl (by rw [hport]; rfl))
      | reset => exact .inl (.inl (by rw [hport]; rfl))
  · cases hd : decode (arrivedWords s.hostInput) with
    | incomplete => exact .inl (.inr ⟨hm, .inl hd⟩)
    | illegal c w => exact .inr (.inr (.inl ⟨hm, c, w, rfl⟩))
    | command i rest =>
      by_cases hroom : s.hasRoom i.nres = true
      · exact .inr (.inr (.inr ⟨hm, i, rest, rfl, hroom⟩))
      · exact .inl (.inr ⟨hm, .inr ⟨i, rest, hd, by simpa [State.hasRoom] using hroom⟩⟩)

/-! ## A RESET behind everything else -/

theorem arrivedWords_append_reset (es : List HostEvent) : arrivedWords (es ++ [.reset]) = arrivedWords es := by
  induction es with
  | nil => rfl
  | cons e es ih => cases e <;> simp [ih]

theorem State.Waits.deliver_reset (h : s.Waits) : (s.deliver [.reset]).Waits := by
  rw [State.Waits, State.deliver, arrivedWords_append_reset]
  exact h

theorem consume_deliver {n : Nat} (h : n ≤ s.hostInput.length) (es : List HostEvent) :
    (s.deliver es).consume n = (s.consume n).deliver es := by
  simp [State.consume, State.deliver, List.drop_append_of_le_length h]

theorem exec_deliver {i : Instr} (h : exec i s = .next t) (es : List HostEvent) :
    exec i (s.deliver es) = .next (t.deliver es) := by
  rw [State.deliver, exec_at, h, State.deliver, exec_hostInput h]

/-- A block that does not wait does the same with a RESET behind everything, and uses events up. -/
theorem step_deliver_reset (h : ¬ s.Waits) :
    ∃ t k, step s = .next t ∧ step (s.deliver [.reset]) = .next (t.deliver [.reset]) ∧
      t.hostInput = s.hostInput.drop k ∧ 0 < k ∧ k ≤ s.hostInput.length := by
  have harrived : arrivedWords (s.deliver [.reset]).hostInput = arrivedWords s.hostInput :=
    arrivedWords_append_reset _
  have hlen := arrivedWords_length_le s.hostInput
  obtain hw | ⟨hm, w, es, hport⟩ | ⟨hm, c, w, hd⟩ | ⟨hm, i, rest, hd, hroom⟩ := waits_or_acts s
  · exact absurd hw h
  · refine ⟨{ s with hostInput := es }, 1, ?_, ?_, by simp [hport], by simp, by simp [hport]⟩
    · rw [step_of_faulted hm, discardNext_of_word hport]
    · rw [step_of_faulted (s := s.deliver _) hm,
        discardNext_of_word (w := w) (es := es ++ [.reset]) (by simp [State.deliver, hport])]
      rfl
  · obtain ⟨ops, hops, -, hle⟩ := decode_illegal hd
    rw [hops, List.length_cons] at hlen
    refine ⟨_, _, step_illegal hm hd, ?_, rfl, by omega, by omega⟩
    rw [step_illegal (s := s.deliver _) hm (harrived ▸ hd), consume_deliver (by omega)]
    rfl
  · have hle := (decode_command_length hd).trans hlen
    obtain ⟨t, ht⟩ := exec_answers i (s.consume (1 + i.operands.length))
    refine ⟨t, _, (step_command hm hd hroom).trans ht, ?_, exec_hostInput ht, by omega, hle⟩
    rw [step_command (s := s.deliver _) hm (harrived ▸ hd) hroom, consume_deliver hle, exec_deliver ht]

theorem reset_not_mem_drop {es : List HostEvent} (h : HostEvent.reset ∉ es) (k : Nat) : HostEvent.reset ∉ es.drop k :=
  fun hm => h (List.mem_of_mem_drop hm)

theorem deliver_append (s : State) (es es' : List HostEvent) : (s.deliver es).deliver es' = s.deliver (es ++ es') := by
  simp [State.deliver]

/-- A take acts for a waiting block whatever the host does later. -/
theorem step_take_deliver_reset (hw : s.Waits) {ws : List Word} {es : List HostEvent}
    (hport : s.hostInput = ws.map .word ++ .take :: es) :
    ∃ t, step s = .next t ∧ step (s.deliver [.reset]) = .next (t.deliver [.reset]) ∧
      t.hostInput = ws.map .word ++ es := by
  refine ⟨_, (step_of_waits hw).trans (congrArg _ (waitForHost_of_take hport)), ?_, rfl⟩
  rw [step_of_waits hw.deliver_reset,
    waitForHost_of_take (s := s.deliver _) (ws := ws) (es := es ++ [.reset]) (by simp [State.deliver, hport]),
    ← List.append_assoc]
  rfl

/-- A RESET behind everything acts once the block has come to rest. -/
theorem settled_deliver_reset (hr : HostEvent.reset ∉ s.hostInput) :
    (s.deliver [.reset]).settled = Rule.afterReset [] s.settled.taken := by
  induction hn : s.hostInput.length using Nat.strong_induction_on generalizing s with
  | _ n ih =>
    by_cases hw : s.Waits
    · obtain ⟨ws, hport | ⟨es, hport⟩ | ⟨es, hport⟩⟩ := events_split s.hostInput
      · have hstill : step s = .next s := (step_of_waits hw).trans (congrArg _ (waitForHost_of_words hport))
        have hreset := step_of_waits hw.deliver_reset
        rw [waitForHost_of_reset (s := s.deliver _) (ws := ws) (es := []) (by simp [State.deliver, hport])] at hreset
        rw [settled_of_still hstill, settled_step hreset]
        exact settled_no_event rfl
      · obtain ⟨t, ht, hreset, hport'⟩ := step_take_deliver_reset hw hport
        rw [settled_step ht, settled_step hreset]
        refine ih _ ?_ ?_ rfl
        · rw [← hn, hport, hport']
          simp
        · rw [hport']
          rw [hport] at hr
          simpa using hr
      · simp [hport] at hr
    · obtain ⟨t, k, ht, hreset, hport, hpos, hle⟩ := step_deliver_reset hw
      rw [settled_step ht, settled_step hreset]
      refine ih _ ?_ (hport ▸ reset_not_mem_drop hr k) rfl
      rw [hport, List.length_drop]
      omega

theorem runEvents_append_reset {s : State} (h : s.hostInput = []) {es : List HostEvent} (hr : HostEvent.reset ∉ es) :
    runEvents (es ++ [.reset]) s = Rule.afterReset [] (runEvents es s).taken := by
  rw [runEvents, settled_no_event h, ← deliver_append, settled_deliver_reset (by simpa [State.deliver, h] using hr), runEvents,
    settled_no_event h]

/-- Settles O53: the RESET stands behind events that hold no other, and acts when they have. -/
theorem resetCutsAnOperationShort : Obligations.ResetCutsAnOperationShort := by
  intro s cmds k h
  have hr : HostEvent.reset ∉ (hostEvents cmds).take k := fun hm =>
    reset_not_mem_hostEvents cmds (List.mem_of_mem_take hm)
  have hrun := runEvents_append_reset h hr
  exact ⟨fun hk => returnedBy_cutShort_of_lt hk s, fun hk => returnedBy_cutShort_of_le hk s, hrun,
    by rw [received, cutShort, hrun]; rfl⟩

end Sys2Proof.Machine
end

section
/-! Host operations on an idle block with empty ports: a run is the commands one by one, the host taking the results of
each (43_host_operations.md; log entry 15). -/

namespace Sys2Proof.Machine

variable {s t : State}

/-! ## One command and the takes of its results -/

/-- The host takes every word on the result port. -/
def State.handOver (s : State) : State := { s with results := [], taken := s.taken ++ s.results }

/-- The block after a command whose results the host takes. -/
def State.ran (s : State) (i : Instr) : State :=
  match exec i s with
  | .next t => t.handOver
  | _ => s

theorem ran_of_exec {i : Instr} (h : exec i s = .next t) : s.ran i = t.handOver := by rw [State.ran, h]

@[simp] theorem ran_results (s : State) (i : Instr) : (s.ran i).results = [] := by
  obtain ⟨t, h⟩ := exec_answers i s
  rw [ran_of_exec h]
  rfl

theorem ran_hostInput (s : State) (i : Instr) : (s.ran i).hostInput = s.hostInput := by
  obtain ⟨t, h⟩ := exec_answers i s
  rw [ran_of_exec h, State.handOver, exec_hostInput h]

theorem ran_at (s : State) (i : Instr) (es : List HostEvent) :
    ({ s with hostInput := es } : State).ran i = { s.ran i with hostInput := es } := by
  obtain ⟨t, h⟩ := exec_answers i s
  rw [ran_of_exec h, ran_of_exec ((exec_at i s es).trans (by rw [h]))]
  rfl

/-- The host's takes, with no word ahead of them. -/
theorem settled_takes (n : Nat) {es : List HostEvent} (h : s.hostInput = List.replicate n .take ++ es) :
    s.settled =
      ({ s with hostInput := es, results := s.results.drop n, taken := s.taken ++ s.results.take n } : State).settled := by
  induction n generalizing s with
  | zero =>
    rw [List.replicate_zero, List.nil_append] at h
    simp [← h]
  | succ n ih =>
    have hstep : step s = .next { s with
        hostInput := List.replicate n .take ++ es, results := s.results.tail, taken := s.taken ++ s.results.take 1 } := by
      rw [List.replicate_succ, List.cons_append] at h
      rw [step_of_no_word (by rw [h]; rfl), waitForHost_of_take (ws := []) h]
      rfl
    rw [settled_step hstep, ih rfl]
    cases hr : s.results <;> simp

/-- In `FAULTED` the words of a command are discarded. -/
theorem settled_words_of_faulted (hm : s.mode = .faulted) (ws : List Word) {es : List HostEvent}
    (h : s.hostInput = ws.map .word ++ es) : s.settled = ({ s with hostInput := es } : State).settled := by
  induction ws generalizing s with
  | nil =>
    rw [List.map_nil, List.nil_append] at h
    simp [← h]
  | cons w ws ih =>
    have hstep := (step_of_faulted hm).trans (congrArg _ (discardNext_of_word h))
    exact (settled_step hstep).trans (ih hm rfl)

/-- An ill-formed command is an illegal word, and raises the fault of one. -/
theorem illegal_cmdWord_of_ill_formed {i : Instr} (h : i.wellFormed = false) :
    illegal (cmdWord i.opc i.arg) = some .illegalSelector := by
  cases i with
  | cfgWr sel v =>
    exact (illegal_cfgWr (by simp [Instr.opc]) (by simp)).trans (if_neg (by simpa [Instr.arg, Instr.wellFormed] using h))
  | cfgRd sel =>
    exact (illegal_cfgRd (by simp [Instr.opc]) (by simp)).trans (if_neg (by simpa [Instr.arg, Instr.wellFormed] using h))
  | _ => cases h

theorem exec_of_ill_formed {i : Instr} (h : i.wellFormed = false) (s : State) :
    exec i s = raiseFault .illegalSelector i s := by
  cases i with
  | cfgWr sel v =>
    have hnone : cfgRegOf sel = none := by
      simpa using (cfgRegOf_isSome sel).trans h
    simp [exec, execCfgWr, hnone]
  | cfgRd sel =>
    have hnone : s.read sel = none := by
      simpa using (read_isSome s sel).trans h
    simp [exec, execCfgRd, hnone]
  | _ => cases h

/-- The words of any command at the port are run as that command, an ill-formed one as its fault. -/
theorem step_encoded (hm : s.mode ≠ .faulted) {i : Instr} {es : List HostEvent}
    (hport : s.hostInput = (encode i).map .word ++ es) (hroom : s.results.length + i.nres ≤ Config.resDepth) :
    step s = exec i { s with hostInput := es } := by
  cases hwf : i.wellFormed with
  | true => exact stepRunsTheDecodedCommand s i es hm hwf hport hroom
  | false =>
    have hd : decode (arrivedWords s.hostInput) = .illegal .illegalSelector (cmdWord i.opc i.arg) := by
      rw [hport, arrivedWords_append]
      exact decode_of_illegal (illegal_cmdWord_of_ill_formed hwf) (by simp)
    rw [step_illegal hm hd, exec_of_ill_formed hwf, raiseFault_of_not_faulted (s := { s with hostInput := es }) hm,
      State.consume, hport]
    simp

/-- A command at the head of the port and the takes of its results, on an empty result port. -/
theorem settled_ran (hres : s.results = []) (i : Instr) {es : List HostEvent}
    (h : s.hostInput = (encode i).map .word ++ (List.replicate i.nres .take ++ es)) :
    s.settled = ({ s.ran i with hostInput := es } : State).settled := by
  obtain ⟨t, ht⟩ := exec_answers i s
  obtain ⟨htaken, ws, hresults, hlen, -⟩ := exec_delivers ht
  rw [hres, List.nil_append] at hresults
  have hexec : s.settled = ({ t with hostInput := List.replicate i.nres .take ++ es } : State).settled := by
    by_cases hm : s.mode = .faulted
    · have hts : t = s := Host.Outcome.next.inj (ht.symm.trans (noCommandHasAnEffectInFaulted i s hm))
      rw [settled_words_of_faulted hm _ h, hts]
    · have hroom : s.results.length + i.nres ≤ Config.resDepth := by
        have := nres_le_two i
        simp only [hres, List.length_nil, Config.resDepth]
        omega
      exact settled_step ((step_encoded hm h hroom).trans ((exec_at ..).trans (by rw [ht])))
  rw [hexec, settled_takes i.nres rfl, ran_of_exec ht]
  simp [State.handOver, hresults, List.drop_eq_nil_of_le hlen, List.take_of_length_le hlen]

theorem hostEvents_cons (i : Instr) (cmds : List Instr) :
    hostEvents (i :: cmds) = (encode i).map .word ++ (List.replicate i.nres .take ++ hostEvents cmds) := by
  simp [hostEvents]

/-- On a block with empty ports a run of host commands is the commands one by one. -/
theorem perform_eq_foldl (cmds : List Instr) (hport : s.hostInput = []) (hres : s.results = []) :
    perform cmds s = cmds.foldl State.ran s := by
  have hperform : perform cmds s = ({ s with hostInput := hostEvents cmds } : State).settled := by
    rw [perform, runEvents, settled_no_event hport, State.deliver, hport, List.nil_append]
  rw [hperform]
  clear hperform
  induction cmds generalizing s with
  | nil =>
    rw [settled_no_event rfl]
    simp [hostEvents, ← hport]
  | cons i cmds ih =>
    rw [settled_ran (s := { s with hostInput := hostEvents (i :: cmds) }) hres i (hostEvents_cons i cmds), ran_at]
    exact ih ((ran_hostInput s i).trans hport) (ran_results s i)

theorem foldl_ran_hostInput (cmds : List Instr) (hport : s.hostInput = []) : (cmds.foldl State.ran s).hostInput = [] := by
  induction cmds generalizing s with
  | nil => exact hport
  | cons i cmds ih => exact ih ((ran_hostInput s i).trans hport)

/-- What a host operation returns on a block with empty ports. -/
theorem returned_eq (cmds : List Instr) (hport : s.hostInput = []) (hres : s.results = []) :
    returned cmds s =
      if (cmds.foldl State.ran s).mode ≠ .faulted then some ((cmds.foldl State.ran s).taken.drop s.taken.length)
      else none := by
  have hword : s.atCommandWord = true := by
    rw [State.atCommandWord, hport]
    rfl
  have hrun : runEvents (hostEvents cmds) s = cmds.foldl State.ran s := perform_eq_foldl cmds hport hres
  simp [returned, received, perform, hrun, hword, foldl_ran_hostInput cmds hport, settled_no_event hport]

/-! ## The empty buffer, and `CONFIGURE` -/

theorem handOver_of_empty (h : s.results = []) : s.handOver = s := by
  rw [State.handOver, h, List.append_nil, ← h]

/-- Settles O50: `BEGIN` is accepted, `END` closes the call, and neither emits a word. -/
theorem emptyBufferReturnsEmpty : Obligations.EmptyBufferReturnsEmpty := by
  intro s sr cmds hm hport hres hok hcmds
  obtain ⟨st, rfl⟩ : ∃ st, cmds = [.beginCall st false sr, .endCall] := by
    rcases hcmds with h | h
    · exact ⟨false, (Option.some.inj h).symm⟩
    · exact ⟨true, (Option.some.inj h).symm⟩
  have hbegin : s.ran (.beginCall st false sr) = s.begun st false sr :=
    (ran_of_exec (exec_beginCall_of_cfgOk st false sr hm hok)).trans (handOver_of_empty hres)
  have hactive : (s.begun st false sr).active := by cases st <;> simp [State.active]
  have hend : (s.begun st false sr).ran .endCall = { s.begun st false sr with mode := .idle } :=
    (ran_of_exec (exec_endCall_of_active hactive)).trans (handOver_of_empty hres)
  rw [returned_eq _ hport hres]
  simp [hbegin, hend]

/-- The registers an EngineConfig sets, by name (43_host_operations.md R192). -/
def EngineConfig.writes (c : EngineConfig) : List (CfgReg × Word) :=
  [(.bitdepth, c.bitDepth), (.srrFactor, c.sampleRateReductionFactor), (.mix, c.wetDryMix)]
  ++ (match c.lowpassCutoffHz with
      | none => [(.lpfEn, 0#64)]
      | some f => [(.lpfEn, 1#64), (.lpfCutoff, f)])
  ++ [(.clipEn, flagWord c.hardClipEnabled), (.clipThresh, c.clipThreshold), (.downmixEn, flagWord c.monoDownmixEnabled)]

theorem configure_eq_writes (c : EngineConfig) : configure c = c.writes.map fun p => .cfgWr p.1.sel p.2 := by
  unfold configure EngineConfig.registers EngineConfig.writes
  cases c.lowpassCutoffHz <;> rfl

/-- Register writes on an idle block are the writes. -/
theorem foldl_ran_cfgWr (hm : s.mode = .idle) (hres : s.results = []) (writes : List (CfgReg × Word)) :
    (writes.map fun p => Instr.cfgWr p.1.sel p.2).foldl State.ran s = writes.foldl (fun u p => u.setCfg p.1 p.2) s := by
  induction writes generalizing s with
  | nil => rfl
  | cons p writes ih =>
    have hwrite : s.ran (.cfgWr p.1.sel p.2) = s.setCfg p.1 p.2 :=
      (ran_of_exec (exec_cfgWr_of_idle hm p.1 p.2)).trans (handOver_of_empty (by simpa using hres))
    rw [List.map_cons, List.foldl_cons, List.foldl_cons, hwrite, ih (by simpa using hm) (by simpa using hres)]

/-- Settles O52: each write is the last to its register. -/
theorem configureWritesEveryField : Obligations.ConfigureWritesEveryField := by
  rintro s t c hm hport hres rfl
  rw [perform_eq_foldl _ hport hres, configure_eq_writes, foldl_ran_cfgWr hm hres]
  unfold EngineConfig.writes
  cases c.lowpassCutoffHz <;> simp [State.setCfg, flagWord, hm, hport]

/-! ## One word per sample -/

theorem ran_of_faulted (hm : s.mode = .faulted) (i : Instr) : (s.ran i).mode = .faulted := by
  rw [ran_of_exec (noCommandHasAnEffectInFaulted i s hm)]
  exact hm

theorem foldl_ran_of_faulted (hm : s.mode = .faulted) (cmds : List Instr) : (cmds.foldl State.ran s).mode = .faulted := by
  induction cmds generalizing s with
  | nil => exact hm
  | cons i cmds ih => exact ih (ran_of_faulted hm i)

/-- Commands that run without a fault deliver the result words of their opcodes. -/
theorem foldl_ran_taken_length (hres : s.results = []) (cmds : List Instr)
    (h : (cmds.foldl State.ran s).mode ≠ .faulted) :
    (cmds.foldl State.ran s).taken.length = s.taken.length + (cmds.map Instr.nres).sum := by
  induction cmds generalizing s with
  | nil => rfl
  | cons i cmds ih =>
    rw [List.foldl_cons] at h ⊢
    have hmode : (s.ran i).mode ≠ .faulted := fun hf => h (foldl_ran_of_faulted hf cmds)
    obtain ⟨t, ht⟩ := exec_answers i s
    obtain ⟨htaken, ws, hresults, -, hlen⟩ := exec_delivers ht
    have hstep : (s.ran i).taken.length = s.taken.length + i.nres := by
      rw [ran_of_exec ht] at hmode ⊢
      simp [State.handOver, htaken, hresults, hres, hlen hmode]
    rw [ih (ran_results s i) h, hstep, List.map_cons, List.sum_cons, Nat.add_assoc]

theorem frames_length {buf : List Sample} {fs : List (Sample × Sample)} (h : frames buf = some fs) :
    2 * fs.length = buf.length := by
  induction buf using frames.induct generalizing fs with
  | case1 => cases h; rfl
  | case2 => cases h
  | case3 l r rest ih =>
    obtain ⟨fs', hfs, rfl⟩ := Option.map_eq_some_iff.mp h
    simp only [List.length_cons, ← ih hfs]
    omega

/-- The commands of a host operation emit one word per sample (30_encoding.md R86). -/
theorem sum_nres_of_operation {buf : List Sample} {sr : Word} {cmds : List Instr}
    (h : process buf sr = some cmds ∨ processStereo buf sr = some cmds) : (cmds.map Instr.nres).sum = buf.length := by
  rcases h with h | h
  · obtain ⟨i16, -, rfl⟩ := Option.map_eq_some_iff.mp h
    simp [Function.comp_def, Instr.nres, nres, Instr.opc]
  · unfold processStereo at h
    split at h <;> cases h
    next i16 fs _ hfs =>
      rw [← frames_length hfs]
      simp [Function.comp_def, Instr.nres, nres, Instr.opc, Nat.mul_comm]

/-- Settles O49: the words taken are those of the operation's commands. -/
theorem operationsReturnOneWordPerSample : Obligations.OperationsReturnOneWordPerSample := by
  intro s buf sr cmds out _ hport hres hop hout
  rw [returned_eq cmds hport hres] at hout
  split at hout <;> cases hout
  next hmode =>
    rw [List.length_drop, foldl_ran_taken_length hres cmds hmode, sum_nres_of_operation hop, Nat.add_sub_cancel_left]

end Sys2Proof.Machine
end

section
/-! What a call returns depends on nothing before it but the configuration registers (10_state.md R47). -/

namespace Sys2Proof.Machine

variable {s t s₁ s₂ : State}

/-! ## What a command reads -/

/-- The state but for what no command reads: the fault record and the words the host has taken. -/
def State.core (s : State) : State := { s with faultCode := none, faultOpc := 0#8, faultArg := 0#8, taken := [] }

section Core
variable (s : State)

@[simp] theorem core_mode : s.core.mode = s.mode := rfl
@[simp] theorem core_fmt : s.core.fmt = s.fmt := rfl
@[simp] theorem core_phase : s.core.phase = s.phase := rfl
@[simp] theorem core_filtL : s.core.filtL = s.filtL := rfl
@[simp] theorem core_filtR : s.core.filtR = s.filtR := rfl
@[simp] theorem core_holdL : s.core.holdL = s.holdL := rfl
@[simp] theorem core_holdR : s.core.holdR = s.holdR := rfl

@[simp] theorem core_cfgOk (sr : F64) : s.core.cfgOk sr = s.cfgOk sr := rfl

@[simp] theorem core_frameLoad (dL dR own : F64) : s.core.frameLoad dL dR own = s.frameLoad dL dR own := rfl

@[simp] theorem core_mixed (tie : RoundTie) (h d st : F64) : s.core.mixed tie h d st = s.mixed tie h d st := rfl

@[simp] theorem core_read (sel : Byte) : s.core.read sel = s.read sel := by
  unfold State.read
  rcases cfgRegOf sel with _ | r
  · rcases winRegOf sel with _ | r
    · rfl
    · cases r <;> rfl
  · cases r <;> rfl

end Core

/-- What a command leaves of that. -/
def coreOf : Host.Outcome State Fault Refusal → Option State
  | .next t => some t.core
  | _ => none

theorem takeFault_core (s : State) (c : FaultCode) (o a : Byte) :
    (s.core.takeFault c o a).core = (s.takeFault c o a).core := by
  by_cases hm : s.mode = .faulted
  · rw [State.takeFault, State.takeFault, if_pos hm, if_pos (show s.core.mode = .faulted from hm)]
    rfl
  · rw [State.takeFault_of_not_faulted hm, State.takeFault_of_not_faulted (s := s.core) hm]
    rfl

theorem raiseFault_core (c : FaultCode) (i : Instr) (s : State) :
    coreOf (raiseFault c i s.core) = coreOf (raiseFault c i s) :=
  congrArg some (takeFault_core s c i.opc i.arg)

theorem setCfg_core (s : State) (r : CfgReg) (v : Word) : (s.core.setCfg r v).core = (s.setCfg r v).core := by
  cases r <;> rfl

/-- No command reads the fault record or the words taken. -/
theorem exec_core (i : Instr) (s : State) : coreOf (exec i s.core) = coreOf (exec i s) := by
  cases i with
  | cfgWr sel v =>
    simp -implicitDefEqProofs only [exec, execCfgWr, core_mode]
    split
    · exact raiseFault_core ..
    · split_ifs
      · exact raiseFault_core ..
      · exact congrArg some (setCfg_core ..)
  | cfgRd sel =>
    simp -implicitDefEqProofs only [exec, execCfgRd, core_mode, core_read]
    split
    · exact raiseFault_core ..
    · split_ifs <;> rfl
  | beginCall st f rate =>
    simp -implicitDefEqProofs only [exec, execBegin, core_mode, core_cfgOk]
    split_ifs
    · exact raiseFault_core ..
    · rfl
    · exact raiseFault_core ..
  | push o =>
    simp -implicitDefEqProofs only [exec, execPush, pushUnder, core_mode, core_fmt, core_phase, core_holdL, core_filtL,
      core_mixed]
    split_ifs
    · exact raiseFault_core ..
    · split
      · exact raiseFault_core ..
      · split_ifs
        · exact raiseFault_core ..
        · rfl
  | push2 o o' =>
    simp -implicitDefEqProofs only [exec, execPush2, push2Under, core_mode, core_fmt, core_phase, core_holdL, core_holdR,
      core_filtL, core_filtR, core_mixed, core_frameLoad]
    split_ifs
    · exact raiseFault_core ..
    · split
      · exact raiseFault_core ..
      · split
        · exact raiseFault_core ..
        · split_ifs
          · exact raiseFault_core ..
          · rfl
  | endCall =>
    simp -implicitDefEqProofs only [exec, execEnd, core_mode]
    split_ifs
    · rfl
    · exact raiseFault_core ..

/-- Commands do the same on states that agree in that. -/
theorem exec_core_congr {i : Instr} {t₁ t₂ : State} (h : s₁.core = s₂.core) (h₁ : exec i s₁ = .next t₁)
    (h₂ : exec i s₂ = .next t₂) : t₁.core = t₂.core := by
  have hsame := (exec_core i s₁).symm.trans ((congrArg (fun s => coreOf (exec i s)) h).trans (exec_core i s₂))
  rw [h₁, h₂] at hsame
  exact Option.some.inj hsame

/-- Hosts that send the same commands to such blocks take the same words. -/
theorem foldl_ran_core (cmds : List Instr) (h : s₁.core = s₂.core) :
    (cmds.foldl State.ran s₁).core = (cmds.foldl State.ran s₂).core ∧
    ∃ ws, (cmds.foldl State.ran s₁).taken = s₁.taken ++ ws ∧ (cmds.foldl State.ran s₂).taken = s₂.taken ++ ws := by
  induction cmds generalizing s₁ s₂ with
  | nil => exact ⟨h, [], by simp, by simp⟩
  | cons i cmds ih =>
    obtain ⟨t₁, h₁⟩ := exec_answers i s₁
    obtain ⟨t₂, h₂⟩ := exec_answers i s₂
    have hcore : t₁.core = t₂.core := exec_core_congr h h₁ h₂
    have hresults : t₁.results = t₂.results := congrArg (·.results) hcore
    obtain ⟨htaken₁, -⟩ := exec_delivers h₁
    obtain ⟨htaken₂, -⟩ := exec_delivers h₂
    have hran : (s₁.ran i).core = (s₂.ran i).core := by
      rw [ran_of_exec h₁, ran_of_exec h₂]
      exact congrArg (fun s : State => { s with results := [] }) hcore
    obtain ⟨hend, ws, hws₁, hws₂⟩ := ih hran
    refine ⟨hend, t₁.results ++ ws, ?_, ?_⟩
    · rw [List.foldl_cons, hws₁, ran_of_exec h₁, State.handOver, htaken₁, List.append_assoc]
    · rw [List.foldl_cons, hws₂, ran_of_exec h₂, State.handOver, htaken₂, hresults, List.append_assoc]

/-! ## Two calls on one configuration -/

/-- `BEGIN` writes every register but the configuration. -/
theorem begun_core (hport : s₁.hostInput = s₂.hostInput) (hres : s₁.results = s₂.results)
    (hcfg : ∀ r : CfgReg, s₁.cfg r = s₂.cfg r) (st f : Bool) (rate : Word) :
    (s₁.begun st f rate).core = (s₂.begun st f rate).core := by
  have h1 := hcfg .bitdepth; have h2 := hcfg .srrFactor; have h3 := hcfg .mix; have h4 := hcfg .lpfEn
  have h5 := hcfg .lpfCutoff; have h6 := hcfg .clipEn; have h7 := hcfg .clipThresh; have h8 := hcfg .downmixEn
  simp only [State.cfg] at *
  simp only [State.begun, State.core, *]

/-- Settles O48: where `BEGIN` is accepted it leaves the two blocks equal but for their pasts; where it is not, neither
returns a buffer. -/
theorem eachCallIsSelfContained : Obligations.EachCallIsSelfContained := by
  intro s₁ s₂ st f rate cmds hm₁ hm₂ hport₁ hport₂ hres₁ hres₂ hcfg
  rw [returned_eq _ hport₁ hres₁, returned_eq _ hport₂ hres₂, List.foldl_cons, List.foldl_cons]
  have hok : s₁.cfgOk (F64.ofBits rate) = s₂.cfgOk (F64.ofBits rate) := cfgOk_congr hcfg _
  cases hc : s₂.cfgOk (F64.ofBits rate) with
  | true =>
    have hran₁ : s₁.ran (.beginCall st f rate) = s₁.begun st f rate :=
      (ran_of_exec (exec_beginCall_of_cfgOk st f rate hm₁ (hok.trans hc))).trans (handOver_of_empty hres₁)
    have hran₂ : s₂.ran (.beginCall st f rate) = s₂.begun st f rate :=
      (ran_of_exec (exec_beginCall_of_cfgOk st f rate hm₂ hc)).trans (handOver_of_empty hres₂)
    rw [hran₁, hran₂]
    obtain ⟨hcore, ws, hws₁, hws₂⟩ := foldl_ran_core cmds
      (begun_core (hport₁.trans hport₂.symm) (hres₁.trans hres₂.symm) hcfg st f rate)
    have hmode := congrArg State.mode hcore
    rw [core_mode, core_mode] at hmode
    simp [hws₁, hws₂, hmode]
  | false =>
    have hfault {s : State} (hm : s.mode = .idle) (hc : s.cfgOk (F64.ofBits rate) = false) :
        (s.ran (.beginCall st f rate)).mode = .faulted := by
      rw [ran_of_exec (exec_beginCall_of_not_cfgOk st f rate hm (by simp [hc]))]
      rfl
    simp [foldl_ran_of_faulted (hfault hm₁ (hok.trans hc)), foldl_ran_of_faulted (hfault hm₂ hc)]

end Sys2Proof.Machine
end

section
/-! What an operation that returns a buffer has run: all its commands, `END` the last (43_host_operations.md R190, R191). -/

namespace Sys2Proof.Machine

variable {s t : State}

/-! ## The words at the port, the host's takes left out -/

/-- The words among the host's events. -/
def pendingWords : List HostEvent → List Word
  | [] => []
  | .word w :: es => w :: pendingWords es
  | _ :: es => pendingWords es

@[simp] theorem pendingWords_append (es es' : List HostEvent) :
    pendingWords (es ++ es') = pendingWords es ++ pendingWords es' := by
  induction es using pendingWords.induct <;> simp_all [pendingWords]

@[simp] theorem pendingWords_words (ws : List Word) : pendingWords (ws.map .word) = ws := by
  induction ws <;> simp_all [pendingWords]

@[simp] theorem pendingWords_takes (n : Nat) : pendingWords (List.replicate n .take) = [] := by
  induction n <;> simp_all [pendingWords, List.replicate_succ]

/-- A host operation sends the encodings of its commands. -/
theorem pendingWords_hostEvents (cmds : List Instr) : pendingWords (hostEvents cmds) = cmds.flatMap encode := by
  induction cmds with
  | nil => rfl
  | cons i cmds ih => simpa [hostEvents] using ih

/-- The words that have arrived are the first of them, and consuming some leaves the others. -/
theorem pendingWords_eq_arrivedWords_append (es : List HostEvent) :
    ∃ more, pendingWords es = arrivedWords es ++ more ∧
      ∀ k ≤ (arrivedWords es).length, pendingWords (es.drop k) = (arrivedWords es).drop k ++ more := by
  induction es with
  | nil => exact ⟨[], rfl, fun k _ => by simp [pendingWords]⟩
  | cons e es ih =>
    cases e with
    | word w =>
      obtain ⟨more, hmore, hdrop⟩ := ih
      refine ⟨more, congrArg (w :: ·) hmore, fun k hk => ?_⟩
      cases k with
      | zero => exact congrArg (w :: ·) hmore
      | succ k => exact hdrop k (Nat.le_of_succ_le_succ hk)
    | take => exact ⟨_, rfl, fun k hk => by simp [Nat.le_zero.mp hk, pendingWords]⟩
    | reset => exact ⟨_, rfl, fun k hk => by simp [Nat.le_zero.mp hk, pendingWords]⟩

/-! ## `MODE` and `SR` -/

/-- What a command that does not fault makes of `MODE` and `SR` (42_call_and_config.md R172, R174). -/
def modeRate (p : Mode × Word) : Instr → Mode × Word
  | .beginCall stereo _ rate => (if stereo then .stereo else .mono, rate)
  | .endCall => (.idle, p.2)
  | _ => p

theorem exec_modeRate {i : Instr} (h : exec i s = .next t) (hm : s.mode ≠ .faulted) (ht : t.mode ≠ .faulted) :
    (t.mode, t.sr) = modeRate (s.mode, s.sr) i := by
  obtain ⟨c, rfl⟩ | ⟨hf, -⟩ | ⟨-, -, -, -, -, heffect⟩ := exec_next_cases h
  · exact absurd (takeFault_mode ..) ht
  · exact absurd hf hm
  · cases i with
    | cfgWr sel v =>
      obtain ⟨-, r, -, rfl⟩ := heffect
      cases r <;> rfl
    | cfgRd sel =>
      obtain ⟨w, -, rfl⟩ := heffect
      rfl
    | beginCall st f rate =>
      obtain ⟨-, -, rfl⟩ := heffect
      rfl
    | push o =>
      obtain ⟨-, d, -, -, rfl⟩ := heffect
      rfl
    | push2 o o' =>
      obtain ⟨-, dL, dR, -, -, -, -, rfl⟩ := heffect
      rfl
    | endCall =>
      obtain ⟨-, rfl⟩ := heffect
      rfl

theorem not_faulted_of_settled (hr : HostEvent.reset ∉ s.hostInput) (h : s.settled.mode ≠ .faulted) :
    s.mode ≠ .faulted :=
  fun hm => h (runSteps_faulted _ hm hr)

/-- The command at the port is the first of those pending, and its words are consumed. -/
theorem next_command {cmds : List Instr} (hwf : ∀ i ∈ cmds, i.wellFormed = true) {es : List HostEvent}
    (hw : pendingWords es = cmds.flatMap encode) {j : Instr} {rest : List Word}
    (hd : decode (arrivedWords es) = .command j rest) :
    ∃ cmds', cmds = j :: cmds' ∧ pendingWords (es.drop (1 + j.operands.length)) = cmds'.flatMap encode := by
  obtain ⟨more, hmore, hdrop⟩ := pendingWords_eq_arrivedWords_append es
  obtain ⟨hj, harrived⟩ := decodedWordsAreTheEncoding _ _ _ hd
  have hleft : (arrivedWords es).drop (1 + j.operands.length) = rest := by
    rw [← harrived, Nat.add_comm]
    simp [encode]
  rw [hdrop _ (decode_command_length hd), hleft]
  rw [hmore, ← harrived, List.append_assoc] at hw
  cases cmds with
  | nil => simp [encode] at hw
  | cons i cmds =>
    have hi := decodeOfEncodeIsTheCommand i (cmds.flatMap encode) (hwf i List.mem_cons_self)
    rw [← List.flatMap_cons, ← hw, decodeOfEncodeIsTheCommand j _ hj] at hi
    obtain ⟨rfl, hrest⟩ := Decoded.command.inj hi
    exact ⟨cmds, rfl, hrest⟩

/-- A block that uses up all its host has done, without a RESET or a fault, has run all pending commands. -/
theorem settled_modeRate {cmds : List Instr} (hwf : ∀ i ∈ cmds, i.wellFormed = true)
    (hw : pendingWords s.hostInput = cmds.flatMap encode) (hr : HostEvent.reset ∉ s.hostInput)
    (hm : s.settled.mode ≠ .faulted) (hport : s.settled.hostInput = []) :
    (s.settled.mode, s.settled.sr) = cmds.foldl modeRate (s.mode, s.sr) := by
  induction hn : s.hostInput.length using Nat.strong_induction_on generalizing s cmds with
  | _ n ih =>
    have hns := not_faulted_of_settled hr hm
    obtain hwait | ⟨hf, -⟩ | ⟨-, c, w, hd⟩ | ⟨-, i, rest, hd, hroom⟩ := waits_or_acts s
    · obtain ⟨ws, hevents | ⟨es, hevents⟩ | ⟨es, hevents⟩⟩ := events_split s.hostInput
      · rw [settled_of_still ((step_of_waits hwait).trans (congrArg _ (waitForHost_of_words hevents)))] at hport ⊢
        rw [hport] at hw
        cases cmds with
        | nil => rfl
        | cons i cmds => simp [pendingWords, encode] at hw
      · have hstep := (step_of_waits hwait).trans (congrArg _ (waitForHost_of_take hevents))
        rw [hevents] at hr hw hn
        rw [settled_step hstep] at hm hport ⊢
        exact ih _ (by simp [← hn]) hwf (by simpa [pendingWords] using hw) (by simpa using hr) hm hport rfl
      · simp [hevents] at hr
    · exact absurd hf hns
    · have hstep := step_illegal hns hd
      rw [settled_step hstep] at hm
      exact absurd rfl (not_faulted_of_settled (reset_not_mem_drop hr (1 + nops (opcOf w))) hm)
    · obtain ⟨t, ht⟩ := exec_answers i (s.consume (1 + i.operands.length))
      have htport := exec_hostInput ht
      have hle := (decode_command_length hd).trans (arrivedWords_length_le s.hostInput)
      have htr : HostEvent.reset ∉ t.hostInput := htport ▸ reset_not_mem_drop hr _
      obtain ⟨cmds, rfl, hw'⟩ := next_command hwf hw hd
      rw [settled_step ((step_command hns hd hroom).trans ht)] at hm hport ⊢
      have hrun := exec_modeRate ht hns (not_faulted_of_settled htr hm)
      have hwf' : ∀ i ∈ cmds, i.wellFormed = true := fun i hi => hwf i (List.mem_cons_of_mem _ hi)
      rw [List.foldl_cons, ih _ ?_ hwf' (htport ▸ hw') htr hm hport rfl, hrun]
      · rfl
      · rw [htport, State.consume, List.length_drop]
        omega

/-- A call of commands that are neither `BEGIN` nor `END` leaves `MODE` idle and `SR` at its rate. -/
theorem call_modeRate {α : Type} {f : α → Instr} (hwf : ∀ x, (f x).wellFormed = true) (hf : ∀ p x, modeRate p (f x) = p)
    (stereo i16 : Bool) (sr : Word) (xs : List α) :
    (∀ i ∈ Instr.beginCall stereo i16 sr :: xs.map f ++ [Instr.endCall], i.wellFormed = true) ∧
    ∀ p, (Instr.beginCall stereo i16 sr :: xs.map f ++ [Instr.endCall]).foldl modeRate p = (.idle, sr) := by
  refine ⟨?_, fun p => ?_⟩
  · simp only [List.cons_append, List.forall_mem_cons, List.forall_mem_append, List.forall_mem_map]
    exact ⟨rfl, fun _ _ => hwf _, rfl, List.forall_mem_nil _⟩
  · rw [List.cons_append, List.foldl_cons, List.foldl_append, List.foldl_map]
    simp only [hf, List.foldl_fixed]
    rfl

/-- The commands of a host operation are well formed, and leave `MODE` idle and `SR` at the rate. -/
theorem operation_modeRate {buf : List Sample} {sr : Word} {cmds : List Instr}
    (h : process buf sr = some cmds ∨ processStereo buf sr = some cmds) :
    (∀ i ∈ cmds, i.wellFormed = true) ∧ ∀ p, cmds.foldl modeRate p = (.idle, sr) := by
  rcases h with h | h
  · obtain ⟨i16, -, rfl⟩ := Option.map_eq_some_iff.mp h
    exact call_modeRate (f := fun x : Sample => .push x.enc) (fun _ => rfl) (fun _ _ => rfl) ..
  · unfold processStereo at h
    split at h <;> cases h
    exact call_modeRate (f := fun x : Sample × Sample => .push2 x.1.enc x.2.enc) (fun _ => rfl) (fun _ _ => rfl) ..

/-- Settles O55: the block has used up all events, so it has run all commands of the operation. -/
theorem operationsReturnAfterTheirEnd : Obligations.OperationsReturnAfterTheirEnd := by
  intro s buf sr cmds out h
  obtain ⟨⟨-, hend⟩, -⟩ := Option.ite_none_right_eq_some.mp h
  refine ⟨hend, fun hop hport => ?_⟩
  obtain ⟨hwf, hmode⟩ := operation_modeRate hop
  have hevents : (s.settled.deliver (hostEvents cmds)).hostInput = hostEvents cmds := by
    rw [State.deliver, hport, List.nil_append]
  have hrun := settled_modeRate hwf ((congrArg pendingWords hevents).trans (pendingWords_hostEvents cmds))
    (by rw [hevents]; exact reset_not_mem_hostEvents cmds) hend.1 hend.2
  exact Prod.ext_iff.mp (hrun.trans (hmode _))

end Sys2Proof.Machine
end
